-- ==== Sys2Proof/Word.lean ====
section
/-! DEFINITION. The word types of FIRTG: the 32-bit register and sample word, the byte lane of 20_memory.md rule R64,
and the 14-bit byte offset of rule R60. -/

namespace Sys2Proof

/-- A register, a command word or a sample: 32 bits (00_scope.md rules R6, R8). -/
abbrev Word := BitVec 32

/-- One byte lane of a word (20_memory.md rule R64). -/
abbrev Byte := BitVec 8

/-- A byte offset from the block's base address, 0x0000 to 0x3FFF (20_memory.md rule R60). -/
abbrev Offset := BitVec 14

end Sys2Proof
end

