-- ==== Sys2Proof/Syntax.lean ====
section
/-! DEFINITION. The seven commands, one constructor per row of spec/opcode_table.json (30_encoding.md rule R81). -/

namespace Sys2Proof

/-- A command of 30_encoding.md rule R81. Its other operands are read from the configuration registers, IN_BUF and the
hidden state (rule R82). -/
inductive Instr where
  /-- 0x00: no operation (43_control.md rule R200). -/
  | nop
  /-- 0x01: validate the FilterSpec and synthesise the taps (41_designer.md rule R130). -/
  | design
  /-- 0x02: clear the history and latch the gain (42_convolver.md rule R170). -/
  | start
  /-- 0x03: filter IN_BUF[0..count-1] (42_convolver.md rule R180). -/
  | process (count : Nat)
  /-- 0x04: feed L zero samples and end the run (42_convolver.md rule R183). -/
  | flush
  /-- 0x05: halt the run on an I/O error (43_control.md rule R201). -/
  | abort
  /-- 0x06: return every register to its reset value (43_control.md rule R202). -/
  | sreset
  deriving DecidableEq, Repr

end Sys2Proof
end

