-- ==== Sys2Proof/WellFormed.lean ====
section
/-! DEFINITION. Which commands have an encoding: COUNT is 16 bits wide (30_encoding.md rules R80, R82). -/

namespace Sys2Proof

/-- The command fits its encoding: COUNT is in 0 to 65535 (rule R82). -/
def Instr.wf : Instr → Bool
  | .nop => true
  | .design => true
  | .start => true
  | .process n => decide (n < 65536)
  | .flush => true
  | .abort => true
  | .sreset => true

/-- `Instr.wf` as a proposition. -/
abbrev Instr.WellFormed (i : Instr) : Prop := i.wf = true

end Sys2Proof
end

