-- ==== Sys2Proof/Decode.lean ====
section
/-! DEFINITION. Decoding a command word (30_encoding.md rules R80 to R85), and the encoder of rule R84. -/

namespace Sys2Proof

/-- Why a word is ILLEGAL (rule R85), one name per kind of illegal encoding. -/
inductive DecodeError where
  /-- RSV, bits [15:8], is not 0. -/
  | reservedByte
  /-- OP, bits [7:0], is 0x07 to 0xFF. -/
  | unknownOpcode
  /-- COUNT, bits [31:16], is not 0 on a command other than PROCESS. -/
  | countNotZero
  deriving DecidableEq, Repr

/-- OP, bits [7:0] of a command word (rule R80). -/
def opField (w : Word) : BitVec 8 := w.extractLsb' 0 8

/-- RSV, bits [15:8] (rule R80). -/
def rsvField (w : Word) : BitVec 8 := w.extractLsb' 8 8

/-- COUNT, bits [31:16] (rules R80, R82). -/
def countField (w : Word) : BitVec 16 := w.extractLsb' 16 16

/-- Rule R83: the total decode, its tests in the rule's order. -/
def decode (w : Word) : Except DecodeError Instr :=
  if rsvField w ≠ 0 then .error .reservedByte
  else if 0x06 < opField w then .error .unknownOpcode
  else if opField w ≠ 0x03 ∧ countField w ≠ 0 then .error .countNotZero
  else if opField w = 0x00 then .ok .nop
  else if opField w = 0x01 then .ok .design
  else if opField w = 0x02 then .ok .start
  else if opField w = 0x03 then .ok (.process (countField w).toNat)
  else if opField w = 0x04 then .ok .flush
  else if opField w = 0x05 then .ok .abort
  else .ok .sreset

/-- Rule R84: the word of a command. -/
def encode : Instr → Word
  | .nop => 0x00000000
  | .design => 0x00000001
  | .start => 0x00000002
  | .process n => (BitVec.ofNat 32 n <<< 16) ||| 0x00000003
  | .flush => 0x00000004
  | .abort => 0x00000005
  | .sreset => 0x00000006

/-- The command word whose low `nbits` bits are those of `w`, every bit above them 0. A command is one word (rule R80),
so a row of the opcode table is at most 32 bits. -/
def tableWord (nbits w : Nat) : Word := BitVec.ofNat 32 (w % 2 ^ nbits)

/-- What `decode` reads from an instruction given by the opcode table's numbering of its bits. -/
def decodeTableWord (nbits w : Nat) : Option Instr :=
  match decode (tableWord nbits w) with
  | .ok i => some i
  | .error _ => none

end Sys2Proof
end

