-- ==== Sys2Proof/Config.lean ====
section
/-! DEFINITION. What one FIRTG instance fixes (00_scope.md rule R6), and the free values: constants with no body, for what
the spec leaves unspecified (70_reset_and_hazards.md rule R241; 93_implementation_defined.md U1 to U4, P1). -/

namespace Sys2Proof.Config

/-- N_MIN: the smallest order (rule R6). -/
def nMin : Nat := 2

/-- N_MAX: the largest order (rules R6, R22). -/
def nMax : Nat := 1000

/-- L_MAX = N_MAX + 1: the depth of the tap RAM and of the history ring (rule R6). -/
def lMax : Nat := 1001

/-- BUF_WORDS: the depth of IN_BUF and of OUT_BUF (rules R6, R22). -/
def bufWords : Nat := 1024

/-- FREE VALUE. The byte at a byte offset of IN_BUF, OUT_BUF or TAPS that nothing has written since the given power-on
(counted by `State.powerOns`): "an arbitrary 32-bit word, fixed until written" (rule R241). Log entry 3. -/
opaque powerOnByte : Nat → Nat → Byte

/-- FREE VALUE. The same for a byte of the hidden history ring, slot i at 4·i (rules R35, R241). Log entry 3. -/
opaque powerOnRingByte : Nat → Nat → Byte

/-- PARAMETER. FIRTG_BASE, the block's base address, left to the platform (20_memory.md rule R60, 92 D36, 93 P1). -/
opaque firtgBase : Nat

end Sys2Proof.Config
end

