-- ==== Sys2Proof/Machine/Binary32.lean ====
section
/-! DEFINITION. IEEE 754 binary32 as 00_scope.md rule R10 uses it: one rounding to nearest, ties to even, per operation;
subnormals kept; one canonical NaN; no flags. Every finite binary32 value is a whole number of units of 2^-149, so each
operation computes its exact result in those units (a quotient as a fraction of them) and rounds it once. -/

namespace Sys2Proof.Machine

/-- What a binary32 word stands for (20_memory.md rule R64). -/
inductive Num where
  | nan
  | inf (neg : Bool)
  /-- the value ±units·2^-149; both zeros have 0 units -/
  | fin (neg : Bool) (units : Nat)
  deriving DecidableEq, Repr

/-- Sign bit 31, biased exponent [30:23], fraction [22:0] (rule R64). -/
def unpack (w : Word) : Num :=
  let neg := decide (2 ^ 31 ≤ w.toNat)
  let mag := w.toNat % 2 ^ 31
  let expo := mag / 2 ^ 23
  let frac := mag % 2 ^ 23
  if expo = 255 then (if frac = 0 then .inf neg else .nan)
  else if expo = 0 then .fin neg frac
  else .fin neg ((2 ^ 23 + frac) * 2 ^ (expo - 1))

/-- The word of a sign and a magnitude pattern (bits [30:0]). -/
def pack (neg : Bool) (mag : Nat) : Word := BitVec.ofNat 32 (if neg then 2 ^ 31 + mag else mag)

/-- The canonical quiet NaN: every NaN result is this word (rule R10). -/
def canonicalNaN : Word := 0x7FC00000

/-- The magnitude pattern of an infinity. -/
def infPattern : Nat := 0x7F800000

/-- ±infinity. -/
def infWord (neg : Bool) : Word := pack neg infPattern

/-- num/den rounded to a whole number, ties to even. -/
def roundHalfEven (num den : Nat) : Nat :=
  let q := num / den
  let r := num % den
  if den < 2 * r ∨ (2 * r = den ∧ q % 2 = 1) then q + 1 else q

/-- How many bits the unit in the last place lies above 2^-149, for a magnitude of q whole units: 0 for the subnormals
and the first normal binade. -/
def ulpShift (q : Nat) : Nat := if q < 2 ^ 24 then 0 else q.log2 - 23

/-- The magnitude pattern nearest to num/den units of 2^-149, ties to even; the infinity pattern past the largest finite
value. The patterns of one binade are consecutive and each binade's follow the one before, so the rounded significand is
added to the binade's first pattern and a carry out of it lands on the next binade. -/
def roundPattern (num den : Nat) : Nat :=
  let e := ulpShift (num / den)
  min (e * 2 ^ 23 + roundHalfEven num (den * 2 ^ e)) infPattern

/-- The word nearest to ±num/den units of 2^-149 (rule R10: one rounding, to nearest, ties to even). -/
def roundTo (neg : Bool) (num den : Nat) : Word := pack neg (roundPattern num den)

/-- A signed number of units. -/
def signedUnits (neg : Bool) (units : Nat) : Int := if neg then -(units : Int) else units

/-- The exact sum x of two finite values, rounded. An exact zero sum is +0, but the sum of two negative zeros is −0. -/
def roundSum (x : Int) (bothNeg : Bool) : Word :=
  if x = 0 then pack bothNeg 0 else roundTo (decide (x < 0)) x.natAbs 1

/-- `add32` (rule R10). -/
def add32 (a b : Word) : Word :=
  match unpack a, unpack b with
  | .nan, _ => canonicalNaN
  | _, .nan => canonicalNaN
  | .inf s, .inf t => if s = t then infWord s else canonicalNaN
  | .inf s, .fin _ _ => infWord s
  | .fin _ _, .inf t => infWord t
  | .fin s k, .fin t l => roundSum (signedUnits s k + signedUnits t l) (s && t)

/-- `neg32` flips the sign bit (rule R10). -/
def neg32 (a : Word) : Word := a ^^^ 0x80000000

/-- `sub32` (rule R10): IEEE subtraction is the addition of the second operand with its sign flipped. -/
def sub32 (a b : Word) : Word := add32 a (neg32 b)

/-- `mul32` (rule R10): the product of k and l units is k·l units of 2^-298. -/
def mul32 (a b : Word) : Word :=
  match unpack a, unpack b with
  | .nan, _ => canonicalNaN
  | _, .nan => canonicalNaN
  | .inf s, .inf t => infWord (s != t)
  | .inf s, .fin t l => if l = 0 then canonicalNaN else infWord (s != t)
  | .fin s k, .inf t => if k = 0 then canonicalNaN else infWord (s != t)
  | .fin s k, .fin t l => roundTo (s != t) (k * l) (2 ^ 149)

/-- `div32` (rule R10). No rule divides by zero (40_host_access.md rule R115); the quotient by a zero is IEEE's. -/
def div32 (a b : Word) : Word :=
  match unpack a, unpack b with
  | .nan, _ => canonicalNaN
  | _, .nan => canonicalNaN
  | .inf _, .inf _ => canonicalNaN
  | .inf s, .fin t _ => infWord (s != t)
  | .fin s _, .inf t => pack (s != t) 0
  | .fin s k, .fin t l =>
    if l = 0 then (if k = 0 then canonicalNaN else infWord (s != t))
    else roundTo (s != t) (k * 2 ^ 149) l

/-- `toF32`: an integer as binary32, exact up to 2^24 (rule R10). -/
def toF32 (i : Int) : Word := roundTo (decide (i < 0)) (i.natAbs * 2 ^ 149) 1

/-- `isFinite`: false for ±infinity and NaN (rule R10). -/
def isFinite (a : Word) : Bool :=
  match unpack a with
  | .nan => false
  | .inf _ => false
  | .fin _ _ => true

/-- `<` on exact values; false with a NaN (rule R10). -/
def Num.lt : Num → Num → Bool
  | .nan, _ => false
  | _, .nan => false
  | .inf s, .inf t => s && !t
  | .inf s, .fin _ _ => s
  | .fin _ _, .inf t => !t
  | .fin s k, .fin t l => decide (signedUnits s k < signedUnits t l)

/-- The exact double of a value: the `2*f1` of 41_designer.md rule R131, which is not a rounded product. -/
def Num.twice : Num → Num
  | .nan => .nan
  | .inf s => .inf s
  | .fin s k => .fin s (2 * k)

/-- The value 0. -/
def Num.zero : Num := .fin false 0

/-- `a == 0`: true of +0 and −0 (rule R10). -/
def isZero (a : Word) : Bool :=
  match unpack a with
  | .nan => false
  | .inf _ => false
  | .fin _ k => decide (k = 0)

/-- PI32, the binary32 value nearest π (rule R10). -/
def pi32 : Word := 0x40490FDB

/-- TWO_PI32 = mul32(2, PI32), exact (rule R10). -/
def twoPi32 : Word := 0x40C90FDB

/-- FOUR_PI32 = mul32(4, PI32), exact (rule R10). -/
def fourPi32 : Word := 0x41490FDB

/-- C054, the binary32 value nearest 0.54 (rule R10). -/
def c054 : Word := 0x3F0A3D71

/-- C046, the binary32 value nearest 0.46 (rule R10). -/
def c046 : Word := 0x3EEB851F

/-- C05 = 0.5 (rule R10). -/
def c05 : Word := 0x3F000000

/-- C042, the binary32 value nearest 0.42 (rule R10). -/
def c042 : Word := 0x3ED70A3D

/-- C008, the binary32 value nearest 0.08 (rule R10). -/
def c008 : Word := 0x3DA3D70A

/-- ONE = 1.0 (rule R10). -/
def one32 : Word := 0x3F800000

/-- TWO = 2.0 (rule R10). -/
def two32 : Word := 0x40000000

/-- OUT_SCALE32, the binary32 value nearest 0.7 (rules R6, R10). -/
def outScale32 : Word := 0x3F333333

/-- +0.0. -/
def zero32 : Word := 0x00000000

end Sys2Proof.Machine
end

