-- ==== Sys2Proof/Machine/State.lean ====
section
/-! DEFINITION. The state of one FIRTG instance (10_state.md rule R20), its value after the external reset
(70_reset_and_hazards.md rule R240), and the reasons a step can stop. -/

namespace Sys2Proof.Machine

/-- A RAM: the bytes written since power-on, as (byte address, byte) pairs. Canonical form: addresses strictly rising,
so no address twice. An address that is not listed holds no written byte; what it then reads as is
`State.ramByte` / `State.ringByte`, a free value (70_reset_and_hazards.md rule R241, log entry 3). -/
abbrev Memory := List Host.Cell

/-- The canonical form: addresses strictly rising. -/
def Memory.wf : Memory → Bool
  | [] => true
  | [_] => true
  | c :: d :: rest => decide (c.1 < d.1) && Memory.wf (d :: rest)

/-- STATUS.PHASE (10_state.md rule R27). The codes 5 to 7 are never produced, so they have no constructor. -/
inductive Phase where
  /-- no valid taps -/
  | idle
  /-- valid taps, no run started since they were designed -/
  | ready
  /-- a run is in progress -/
  | stream
  /-- the run was flushed -/
  | done
  /-- the run was stopped by an I/O error (ABORT) -/
  | halted
  deriving DecidableEq, Repr

/-- STATUS.RESULT (60_exceptions.md rule R210). The codes 7 to 15 are never produced, so they have no constructor. -/
inductive Result where
  /-- 0: the command completed as specified -/
  | ok
  /-- 1: the FilterSpec failed validation (rule R212) -/
  | configError
  /-- 2: reserved for the source's AllocationError; FIRTG never produces it (rule R213) -/
  | allocError
  /-- 3: the host reported an I/O failure (rule R211) -/
  | ioError
  /-- 4: the command word does not decode (rule R214) -/
  | cmdIllegal
  /-- 5: the command is not permitted in the phase (rule R215) -/
  | cmdState
  /-- 6: PROCESS with COUNT > 1024 (rule R216) -/
  | cmdCount
  deriving DecidableEq, Repr

/-- One thing the world outside the block does, or the block's own turn (40_host_access.md rule R100; 70 rule R240).
A finite list of these is a host's program together with one interleaving of the two agents (log entry 1). -/
inductive Input where
  /-- the host reads the word at a byte offset: `MemRead(a, 4)` -/
  | read (a : Offset)
  /-- the host writes a word at a byte offset: `MemWrite(a, 4, v)` -/
  | write (a : Offset) (v : Word)
  /-- the external reset is asserted (power-on or the reset input) -/
  | reset
  /-- the block takes its turn: it completes the pending command, if there is one -/
  | block
  deriving DecidableEq, Repr

/-- The state of one instance. ID, VERSION and CAPS are hardwired and CMD holds no state (rules R21, R22, R26): they are
answered by `readRegister`. STATUS.BUSY is `pending ≠ none` (rule R37). The last three fields are the model's own. -/
structure State where
  /-- FILTER.FAMILY, bits [1:0] (rule R23) -/
  family : BitVec 2
  /-- FILTER.WINDOW, bits [6:4] (rule R23) -/
  window : BitVec 3
  /-- FILTER.ORDER, bits [31:16] (rule R23) -/
  order : BitVec 16
  /-- F1, the cutoff f₁, a binary32 word in Hz (rule R24) -/
  f1 : Word
  /-- F2, the upper cutoff f₂ (rule R24) -/
  f2 : Word
  /-- FS, the sample rate (rule R24) -/
  fs : Word
  /-- VOLUME, the user volume multiplier (rule R25) -/
  volume : Word
  /-- STATUS.OVR, sticky: a host write was dropped (rule R27) -/
  ovr : Bool
  /-- STATUS.PHASE (rule R27) -/
  phase : Phase
  /-- STATUS.RESULT (rule R27) -/
  result : Result
  /-- STATUS.LAST_OP (rule R27) -/
  lastOp : BitVec 8
  /-- CFG_ERR, bits [6:0] (rule R28) -/
  cfgErr : BitVec 7
  /-- TAP_COUNT, bits [10:0] (rule R29) -/
  tapCount : BitVec 11
  /-- OUT_COUNT, bits [10:0] (rule R30) -/
  outCount : BitVec 11
  /-- SAMPLES_IN (rule R31) -/
  samplesIn : Word
  /-- SAMPLES_OUT (rule R31) -/
  samplesOut : Word
  /-- IN_BUF, OUT_BUF and TAPS, by byte offset (rules R32 to R34, R60, R64) -/
  mem : Memory
  /-- the hidden history ring, slot i at 4·i (rule R35) -/
  ring : Memory
  /-- the hidden write cursor `cur` (rule R35) -/
  cur : Nat
  /-- the hidden post-gain latch GAIN (rule R36) -/
  gain : Word
  /-- the hidden pending-command slot (rule R37) -/
  pending : Option Word
  /-- MODEL'S OWN: how many external resets came before, so that each gives fresh unspecified RAM contents (log entry 3) -/
  powerOns : Nat
  /-- MODEL'S OWN: what the host does next and where the block's turns fall among it, soonest first (log entry 1) -/
  inputs : List Input
  /-- MODEL'S OWN: the word the host's last read returned on the port (log entry 2) -/
  readData : Word
  deriving DecidableEq, Repr

/-- The state after the external reset (70_reset_and_hazards.md rule R240), no power-on before it, no host access to
come. `cur` and `gain` have no reset value in the spec: 0 is the model's (log entry 4). -/
def State.reset : State where
  family := 0
  window := 0
  order := 0
  f1 := 0x00000000
  f2 := 0x00000000
  fs := 0x00000000
  volume := 0x3F800000
  ovr := false
  phase := .idle
  result := .ok
  lastOp := 0x00
  cfgErr := 0
  tapCount := 0
  outCount := 0
  samplesIn := 0
  samplesOut := 0
  mem := []
  ring := []
  cur := 0
  gain := 0
  pending := none
  powerOns := 0
  inputs := []
  readData := 0

/-- Why a step faults: never. "The block itself has no fault outcome and no stuck state" (40_host_access.md rule R114),
so no constructor exists and nobody raises one. Safe: a step that faults cannot be written down. -/
inductive Fault
  deriving DecidableEq, Repr

/-- Why a step is refused. -/
inductive Refusal where
  /-- An instruction whose arm in `exec` has no meaning yet; raised by such an arm alone, and no arm of this model is one.
  Safe: nothing is claimed of it. -/
  | notModelled (mnemonic : String)
  deriving DecidableEq, Repr

end Sys2Proof.Machine
end

