-- ==== Sys2Proof/Machine/Ops.lean ====
section
/-! DEFINITION. The named operations over the RAMs, the history ring and the result register, and the loop and modulo
every command shares. -/

namespace Sys2Proof.Machine

/-- The byte written at an address since power-on, if any. -/
def Memory.readByte : Memory → Nat → Option Byte
  | [], _ => none
  | c :: rest, a => if c.1 = a then some c.2 else Memory.readByte rest a

/-- Write one byte, keeping the addresses strictly rising. -/
def Memory.writeByte : Memory → Nat → Byte → Memory
  | [], a, b => [(a, b)]
  | c :: rest, a, b =>
    if a < c.1 then (a, b) :: c :: rest
    else if a = c.1 then (a, b) :: rest
    else c :: Memory.writeByte rest a b

/-- Byte lane k of a word: bits [8k+7:8k] (20_memory.md rule R64). -/
def byteLane (v : Word) (k : Nat) : Byte := v.extractLsb' (8 * k) 8

/-- The word of four byte lanes, lane 0 at the lowest address (rule R64). -/
def wordOfLanes (b0 b1 b2 b3 : Byte) : Word := b3 ++ b2 ++ b1 ++ b0

/-- The word at a byte address; `unwritten` gives each byte that nothing has written. -/
def Memory.readWord (m : Memory) (unwritten : Nat → Byte) (a : Nat) : Word :=
  wordOfLanes ((m.readByte a).getD (unwritten a)) ((m.readByte (a + 1)).getD (unwritten (a + 1)))
    ((m.readByte (a + 2)).getD (unwritten (a + 2))) ((m.readByte (a + 3)).getD (unwritten (a + 3)))

/-- Write the word at a byte address (rule R64). -/
def Memory.writeWord (m : Memory) (a : Nat) (v : Word) : Memory :=
  (((m.writeByte a (byteLane v 0)).writeByte (a + 1) (byteLane v 1)).writeByte (a + 2) (byteLane v 2)).writeByte
    (a + 3) (byteLane v 3)

/-- All four bytes of the word at a byte address have been written since power-on. -/
def Memory.holdsWord (m : Memory) (a : Nat) : Bool :=
  (m.readByte a).isSome && (m.readByte (a + 1)).isSome && (m.readByte (a + 2)).isSome && (m.readByte (a + 3)).isSome

/-- The first byte offset of IN_BUF (rule R60). -/
def inBufBase : Nat := 0x1000

/-- The first byte offset of OUT_BUF (rule R60). -/
def outBufBase : Nat := 0x2000

/-- The first byte offset of TAPS (rule R60). -/
def tapsBase : Nat := 0x3000

/-- The byte offset of IN_BUF[i]. -/
def inBufAddr (i : Nat) : Nat := inBufBase + 4 * i

/-- The byte offset of OUT_BUF[i]. -/
def outBufAddr (i : Nat) : Nat := outBufBase + 4 * i

/-- The byte offset of TAPS[i]. -/
def tapAddr (i : Nat) : Nat := tapsBase + 4 * i

/-- One byte of the address space's RAMs: the byte written, or the free value of a byte nothing has written since
power-on (70_reset_and_hazards.md rule R241, log entry 3). -/
def State.ramByte (s : State) (a : Nat) : Byte := (s.mem.readByte a).getD (Config.powerOnByte s.powerOns a)

/-- One byte of the hidden ring, likewise. -/
def State.ringByte (s : State) (a : Nat) : Byte := (s.ring.readByte a).getD (Config.powerOnRingByte s.powerOns a)

/-- The RAM word at a byte offset. -/
def State.ramWord (s : State) (a : Nat) : Word := s.mem.readWord (Config.powerOnByte s.powerOns) a

/-- IN_BUF[i] (rule R33). -/
def State.inWord (s : State) (i : Nat) : Word := s.ramWord (inBufAddr i)

/-- OUT_BUF[i] (rule R34). -/
def State.outWord (s : State) (i : Nat) : Word := s.ramWord (outBufAddr i)

/-- TAPS[i] (rule R32). -/
def State.tapWord (s : State) (i : Nat) : Word := s.ramWord (tapAddr i)

/-- IN_BUF[i] <- v. -/
def State.setIn (s : State) (i : Nat) (v : Word) : State := { s with mem := s.mem.writeWord (inBufAddr i) v }

/-- OUT_BUF[i] <- v. -/
def State.setOut (s : State) (i : Nat) (v : Word) : State := { s with mem := s.mem.writeWord (outBufAddr i) v }

/-- ring[i] (rule R35). -/
def State.ringWord (s : State) (i : Nat) : Word := s.ring.readWord (Config.powerOnRingByte s.powerOns) (4 * i)

/-- ring[i] <- v. -/
def State.setRing (s : State) (i : Nat) (v : Word) : State := { s with ring := s.ring.writeWord (4 * i) v }

/-- `raise <Result>` (00_scope.md rule R9): the command ends with STATUS.RESULT set. It is no trap: no handler, vector or
saved program counter exists, and so no return from one (60_exceptions.md rules R219, R220). A command that ends OK sets
RESULT in the same way (rule R111). -/
def State.raise (s : State) (r : Result) : State := { s with result := r }

/-- STATUS.BUSY = 1 exactly when a command is pending (rule R37). -/
def State.busy (s : State) : Bool := s.pending.isSome

/-- L, the tap count that START, PROCESS and FLUSH use (rule R29). -/
def State.len (s : State) : Nat := s.tapCount.toNat

/-- The loop `for i in 0 .. n-1 (ascending)`. -/
def loopUp {α : Type} (n : Nat) (body : Nat → α → α) (init : α) : α :=
  match n with
  | 0 => init
  | k + 1 => body k (loopUp k body init)

/-- The true modulo ((v % m) + m) % m, `%` truncating toward zero (00_scope.md rule R11). -/
def trueMod (v m : Int) : Int := (v.tmod m + m).tmod m

end Sys2Proof.Machine
end

