-- ==== Sys2Proof/Machine/Operands.lean ====
section
/-! DEFINITION. The operands of the commands: the FilterSpec in FILTER, F1, F2 and FS (30_encoding.md rules R87 to R89),
and the register names and offsets of the host's accesses (10_state.md section 2). -/

namespace Sys2Proof.Machine

/-- FILTER.FAMILY (30_encoding.md rule R87). -/
inductive Family where
  | lowpass
  | highpass
  | bandpass
  | bandstop
  deriving DecidableEq, Repr

/-- FILTER.WINDOW, the five recognised codes (rule R88). -/
inductive Window where
  | hamming
  | hanning
  | bartlett
  | blackman
  | rectangular
  deriving DecidableEq, Repr

/-- Rule R87: every 2-bit code is a family. -/
def familyOf (c : BitVec 2) : Family :=
  if c = 0 then .lowpass else if c = 1 then .highpass else if c = 2 then .bandpass else .bandstop

/-- Rule R88: the codes 5, 6 and 7 are unrecognised. -/
def windowOf (c : BitVec 3) : Option Window :=
  if c = 0 then some .hamming
  else if c = 1 then some .hanning
  else if c = 2 then some .bartlett
  else if c = 3 then some .blackman
  else if c = 4 then some .rectangular
  else none

/-- The code of a family (rule R87). -/
def Family.code : Family → BitVec 2
  | .lowpass => 0
  | .highpass => 1
  | .bandpass => 2
  | .bandstop => 3

/-- The code of a window (rule R88). -/
def Window.code : Window → BitVec 3
  | .hamming => 0
  | .hanning => 1
  | .bartlett => 2
  | .blackman => 3
  | .rectangular => 4

/-- The band families, for which F2 is read and checked (rule R87). -/
def Family.isBand : Family → Bool
  | .lowpass => false
  | .highpass => false
  | .bandpass => true
  | .bandstop => true

/-- The tuple (family, window, N, f1, f2, fs) of 00_scope.md rule R13; `window` is `none` for an unrecognised code. -/
structure FilterSpec where
  family : Family
  window : Option Window
  order : Nat
  f1 : Word
  f2 : Word
  fs : Word
  deriving DecidableEq, Repr

/-- The FilterSpec registers as they stand (41_designer.md rule R145). -/
def State.filterSpec (s : State) : FilterSpec :=
  { family := familyOf s.family, window := windowOf s.window, order := s.order.toNat, f1 := s.f1, f2 := s.f2, fs := s.fs }

/-- The host-visible registers (10_state.md rule R20). -/
inductive Register where
  | id
  | version
  | caps
  | filter
  | f1
  | f2
  | fs
  | volume
  | cmd
  | status
  | cfgErr
  | tapCount
  | outCount
  | samplesIn
  | samplesOut
  deriving DecidableEq, Repr

/-- The register of a word index, offset/4 (10_state.md section 2). -/
def registerAt : Nat → Option Register
  | 0 => some .id
  | 1 => some .version
  | 2 => some .caps
  | 3 => some .filter
  | 4 => some .f1
  | 5 => some .f2
  | 6 => some .fs
  | 7 => some .volume
  | 8 => some .cmd
  | 9 => some .status
  | 10 => some .cfgErr
  | 11 => some .tapCount
  | 12 => some .outCount
  | 13 => some .samplesIn
  | 14 => some .samplesOut
  | _ => none

/-- The byte offset of a register (10_state.md section 2). -/
def Register.offset : Register → Offset
  | .id => 0x000
  | .version => 0x004
  | .caps => 0x008
  | .filter => 0x00C
  | .f1 => 0x010
  | .f2 => 0x014
  | .fs => 0x018
  | .volume => 0x01C
  | .cmd => 0x020
  | .status => 0x024
  | .cfgErr => 0x028
  | .tapCount => 0x02C
  | .outCount => 0x030
  | .samplesIn => 0x034
  | .samplesOut => 0x038

/-- What a byte offset of the host port names (20_memory.md rules R60, R61, R63). -/
inductive Location where
  /-- address bits [1:0] are not 0 (rule R63) -/
  | misaligned
  | register (r : Register)
  /-- IN_BUF[i], i < 1024 -/
  | inBuf (i : Nat)
  /-- OUT_BUF[i], i < 1024 -/
  | outBuf (i : Nat)
  /-- TAPS[i], i ≤ 1000 -/
  | tap (i : Nat)
  /-- 0x003C to 0x0FFF and 0x3FA4 to 0x3FFF (rule R61) -/
  | reserved
  deriving DecidableEq, Repr

/-- The map of rule R60. -/
def locate (a : Offset) : Location :=
  let n := a.toNat
  if n % 4 ≠ 0 then .misaligned
  else if n < inBufBase then
    match registerAt (n / 4) with
    | some r => .register r
    | none => .reserved
  else if n < outBufBase then .inBuf ((n - inBufBase) / 4)
  else if n < tapsBase then .outBuf ((n - outBufBase) / 4)
  else if n < tapsBase + 4 * Config.lMax then .tap ((n - tapsBase) / 4)
  else .reserved

/-- The offset of IN_BUF[i]. -/
def inBufOffset (i : Nat) : Offset := BitVec.ofNat 14 (inBufAddr i)

/-- The offset of OUT_BUF[i]. -/
def outBufOffset (i : Nat) : Offset := BitVec.ofNat 14 (outBufAddr i)

/-- The offset of TAPS[i]. -/
def tapOffset (i : Nat) : Offset := BitVec.ofNat 14 (tapAddr i)

/-- The byte address at which a platform sees byte lane k of the word at an offset (rule R64; FIRTG_BASE, rule R60). -/
def busAddress (a : Offset) (k : Nat) : Nat := Config.firtgBase + a.toNat + k

end Sys2Proof.Machine
end

