-- ==== Sys2Proof/Machine/Flags.lean ====
section
/-! DEFINITION. The flags: the STATUS word (10_state.md rule R27), the CFG_ERR mask (41_designer.md rule R131) and the
phases in which each command is permitted (40_host_access.md rule R110). No arithmetic sets a flag (rule R39). -/

namespace Sys2Proof.Machine

/-- STATUS.PHASE, bits [6:4] (rule R27). -/
def Phase.code : Phase → BitVec 3
  | .idle => 0
  | .ready => 1
  | .stream => 2
  | .done => 3
  | .halted => 4

/-- STATUS.RESULT, bits [11:8] (60_exceptions.md rule R210). -/
def Result.code : Result → BitVec 4
  | .ok => 0
  | .configError => 1
  | .allocError => 2
  | .ioError => 3
  | .cmdIllegal => 4
  | .cmdState => 5
  | .cmdCount => 6

/-- The STATUS word: {8'b0, LAST_OP, 4'b0, RESULT, 1'b0, PHASE, 2'b0, OVR, BUSY} (40_host_access.md rule R101). -/
def State.statusWord (s : State) : Word :=
  0#8 ++ s.lastOp ++ 0#4 ++ s.result.code ++ 0#1 ++ s.phase.code ++ 0#2 ++ BitVec.ofBool s.ovr ++ BitVec.ofBool s.busy

/-- The FILTER word: ORDER [31:16], WINDOW [6:4], FAMILY [1:0], reserved bits 0 (10_state.md rule R23). -/
def State.filterWord (s : State) : Word := s.order ++ 0#9 ++ s.window ++ 0#2 ++ s.family

/-- WINDOW_BAD: an unrecognised window code (rule R131). -/
def FilterSpec.windowBad (f : FilterSpec) : Bool := f.window.isNone

/-- ORDER_ODD (rule R131). -/
def FilterSpec.orderOdd (f : FilterSpec) : Bool := decide (f.order % 2 = 1)

/-- ORDER_RANGE (rule R131). -/
def FilterSpec.orderRange (f : FilterSpec) : Bool := decide (f.order < Config.nMin ∨ Config.nMax < f.order)

/-- FS_BAD: FS not finite or not > 0 (rule R131). -/
def FilterSpec.fsBad (f : FilterSpec) : Bool := !(isFinite f.fs && Num.zero.lt (unpack f.fs))

/-- A cutoff outside (0, fs/2), by exact comparison; true with a NaN (rule R131). -/
def cutoffBad (cutoff fs : Word) : Bool :=
  !(Num.zero.lt (unpack cutoff) && (unpack cutoff).twice.lt (unpack fs))

/-- F1_RANGE (rule R131). -/
def FilterSpec.f1Range (f : FilterSpec) : Bool := cutoffBad f.f1 f.fs

/-- F2_RANGE, for the band families only (rule R131). -/
def FilterSpec.f2Range (f : FilterSpec) : Bool := f.family.isBand && cutoffBad f.f2 f.fs

/-- F_ORDER, for the band families only (rule R131). -/
def FilterSpec.fOrder (f : FilterSpec) : Bool := f.family.isBand && !(unpack f.f1).lt (unpack f.f2)

/-- `validate()`: the mask of every failing check, bit 0 WINDOW_BAD to bit 6 F_ORDER (rule R131). -/
def FilterSpec.validate (f : FilterSpec) : BitVec 7 :=
  BitVec.ofBool f.fOrder ++ BitVec.ofBool f.f2Range ++ BitVec.ofBool f.f1Range ++ BitVec.ofBool f.fsBad ++
    BitVec.ofBool f.orderRange ++ BitVec.ofBool f.orderOdd ++ BitVec.ofBool f.windowBad

/-- The phases in which a command is permitted (40_host_access.md rule R110). -/
def permitted : Instr → Phase → Bool
  | .nop, _ => true
  | .design, p => decide (p = .idle ∨ p = .ready ∨ p = .done ∨ p = .halted)
  | .start, p => decide (p = .ready ∨ p = .done ∨ p = .halted)
  | .process _, p => decide (p = .stream)
  | .flush, p => decide (p = .stream)
  | .abort, p => decide (p = .stream ∨ p = .done)
  | .sreset, _ => true

/-- The phase check of rule R109, shared by every command: outside its phases a command ends with CMD_STATE and no other
change (60_exceptions.md rule R215). -/
def ifPermitted (i : Instr) (s : State) (effect : State) : Host.Outcome State Fault Refusal :=
  if permitted i s.phase then .next effect else .next (s.raise .cmdState)

end Sys2Proof.Machine
end

