-- ==== Sys2Proof/Machine/Control.lean ====
section
/-! DEFINITION. The control commands NOP, ABORT and SRESET (43_control.md). -/

namespace Sys2Proof.Machine

/-- NOP (rule R200): RESULT alone. -/
def execNop (s : State) : Host.Outcome State Fault Refusal := ifPermitted .nop s (s.raise .ok)

/-- ABORT (rule R201): the run halts, everything produced so far stays. -/
def execAbort (s : State) : Host.Outcome State Fault Refusal :=
  ifPermitted .abort s ({ s with phase := .halted }.raise .ioError)

/-- SRESET in any phase (rule R202): every register takes its reset value, LAST_OP is 0x06, and the RAMs, `ring`, `cur`
and `GAIN` keep theirs (70_reset_and_hazards.md rule R242). BUSY falls with the command's own completion. -/
def sresetEffect (s : State) : State :=
  { State.reset with
      lastOp := 0x06
      mem := s.mem
      ring := s.ring
      cur := s.cur
      gain := s.gain
      pending := s.pending
      powerOns := s.powerOns
      inputs := s.inputs
      readData := s.readData }.raise .ok

/-- SRESET (rule R202). -/
def execSreset (s : State) : Host.Outcome State Fault Refusal := ifPermitted .sreset s (sresetEffect s)

end Sys2Proof.Machine
end

