-- ==== Sys2Proof/Machine/Convolver.lean ====
section
/-! DEFINITION. The streaming convolver (42_convolver.md): START, the per-sample operation, PROCESS and FLUSH. -/

namespace Sys2Proof.Machine

/-- The ring slot mod(cur − k, L) (rule R172). -/
def ringSlot (cur k len : Nat) : Nat := (trueMod ((cur : Int) - k) len).toNat

/-- y = Σ TAPS[k]·ring[(cur − k) mod L], k ascending from 0 to N, from an accumulator of +0.0 (rule R173). -/
def State.convolve (s : State) : Word :=
  loopUp s.len (fun k acc => add32 acc (mul32 (s.tapWord k) (s.ringWord (ringSlot s.cur k s.len)))) zero32

/-- The post-gain: 0.7 first, then the volume latched at START (rule R174). -/
def postGain (acc gain : Word) : Word := mul32 (mul32 acc outScale32) gain

/-- The state after `process_sample(x)`: x in the ring, the cursor advanced (rule R176, steps 1 and 4). -/
def sampleState (s : State) (x : Word) : State :=
  { s.setRing s.cur x with cur := (trueMod ((s.cur : Int) + 1) s.len).toNat }

/-- What `process_sample(x)` returns (rule R176, steps 2, 3 and 5). -/
def sampleOut (s : State) (x : Word) : Word := postGain (s.setRing s.cur x).convolve s.gain

/-- OUT_BUF[i] <- process_sample(x). -/
def sampleInto (s : State) (i : Nat) (x : Word) : State := (sampleState s x).setOut i (sampleOut s x)

/-- ring[0..L-1] <- +0.0 (rule R170). -/
def clearRing (len : Nat) (r : Memory) : Memory := loopUp len (fun i r => r.writeWord (4 * i) zero32) r

/-- START in a phase that permits it (rule R170). -/
def startEffect (s : State) : State :=
  { s with
      ring := clearRing s.len s.ring
      cur := 0
      gain := s.volume
      outCount := 0
      samplesIn := 0
      samplesOut := 0
      phase := .stream }.raise .ok

/-- The samples of PROCESS n: OUT_BUF[i] <- process_sample(IN_BUF[i]), i ascending (rule R180). -/
def processSamples (n : Nat) (s : State) : State := loopUp n (fun i t => sampleInto t i (t.inWord i)) s

/-- PROCESS n in STREAM (rules R180 to R182). -/
def processEffect (n : Nat) (s : State) : State :=
  if Config.bufWords < n then s.raise .cmdCount
  else
    { processSamples n s with
        outCount := BitVec.ofNat 11 n
        samplesIn := s.samplesIn + BitVec.ofNat 32 n
        samplesOut := s.samplesOut + BitVec.ofNat 32 n }.raise .ok

/-- The L zero samples of FLUSH: OUT_BUF[i] <- process_sample(+0.0), i ascending (rules R183, R184). -/
def flushSamples (n : Nat) (s : State) : State := loopUp n (fun i t => sampleInto t i zero32) s

/-- FLUSH in STREAM (rule R183). -/
def flushEffect (s : State) : State :=
  { flushSamples s.len s with
      outCount := BitVec.ofNat 11 s.len
      samplesOut := s.samplesOut + BitVec.ofNat 32 s.len
      phase := .done }.raise .ok

/-- START (rule R170). -/
def execStart (s : State) : Host.Outcome State Fault Refusal := ifPermitted .start s (startEffect s)

/-- PROCESS (rule R180). -/
def execProcess (n : Nat) (s : State) : Host.Outcome State Fault Refusal := ifPermitted (.process n) s (processEffect n s)

/-- FLUSH (rule R183). -/
def execFlush (s : State) : Host.Outcome State Fault Refusal := ifPermitted .flush s (flushEffect s)

end Sys2Proof.Machine
end

