-- ==== Sys2Proof/Machine/Irrational.lean ====
section
/-! DEFINITION. The sine and the cosine of a nonzero rational are irrational. It is why the comparisons of
Sys2Proof/Machine/TrigSeries.lean end: the exact sine and cosine of a nonzero binary32 value are never a rounding boundary
(00_scope.md rule R10). -/

open Polynomial Complex

namespace Sys2Proof.Machine

/-- An integer polynomial's values at ±i·p/q add up to a fraction with a power of q below. -/
theorem even_values_integral (g : ℤ[X]) (p q : ℤ) (hq : q ≠ 0) (d : ℕ) (hd : g.natDegree ≤ d) :
    ∃ m : ℤ, (q : ℂ) ^ d * (aeval ((p : ℂ) / q * I) g + aeval (-((p : ℂ) / q * I)) g) = m := by
  have hq' : (q : ℂ) ≠ 0 := by exact_mod_cast hq
  have hI : ∀ k : ℕ, ∃ j : ℤ, (I ^ k + (-I) ^ k : ℂ) = j := by
    intro k
    have h2 : ∀ z : ℂ, z ^ 2 = -1 → z ^ k = (-1) ^ (k / 2) * z ^ (k % 2) := fun z hz => by
      rw [← hz, ← pow_mul, ← pow_add, Nat.div_add_mod]
    rw [h2 I I_sq, h2 (-I) (by rw [neg_sq, I_sq])]
    rcases Nat.mod_two_eq_zero_or_one k with h | h <;> rw [h]
    · exact ⟨(-1) ^ (k / 2) * 2, by push_cast; ring⟩
    · exact ⟨0, by push_cast; ring⟩
  choose j hj using hI
  refine ⟨∑ k ∈ Finset.range (d + 1), g.coeff k * q ^ (d - k) * p ^ k * j k, ?_⟩
  rw [aeval_eq_sum_range' (Nat.lt_succ_of_le hd), aeval_eq_sum_range' (Nat.lt_succ_of_le hd), ← Finset.sum_add_distrib,
    Finset.mul_sum]
  push_cast
  refine Finset.sum_congr rfl fun k hk => ?_
  have hk' : d = (d - k) + k := by have := Finset.mem_range.1 hk; omega
  rw [← hj k]
  nth_rw 1 [hk']
  rw [pow_add, neg_mul_eq_mul_neg, mul_pow, mul_pow, div_pow]
  simp only [zsmul_eq_mul]
  field_simp

/-- The cosine of a nonzero rational is no nonzero rational: the approximations of e^(±i·p/q) by integers of the analytic
part of Lindemann's theorem, added up, give nonzero integers that tend to 0. -/
theorem cos_ne_ratio {r c : ℚ} (hr : r ≠ 0) (hc : c ≠ 0) : Real.cos r ≠ c := by
  intro h
  set p := r.num
  set q : ℤ := (r.den : ℤ)
  have hp : p ≠ 0 := Rat.num_ne_zero.2 hr
  have hq : q ≠ 0 := Int.natCast_ne_zero.2 r.den_nz
  have hq' : (q : ℂ) ≠ 0 := by exact_mod_cast hq
  have hrq : (r : ℂ) = (p : ℂ) / q := by exact_mod_cast congrArg (Rat.cast : ℚ → ℂ) (Rat.num_div_den r).symm
  set a := c.num
  set b : ℤ := (c.den : ℤ)
  have ha : a ≠ 0 := Rat.num_ne_zero.2 hc
  have hb : b ≠ 0 := Int.natCast_ne_zero.2 c.den_nz
  have hcb : (b : ℂ) * c = a := by exact_mod_cast congrArg (Rat.cast : ℚ → ℂ) (Rat.den_mul_eq_num c)
  set z : ℂ := (p : ℂ) / q * I
  let f : ℤ[X] := C (q ^ 2) * X ^ 2 + C (p ^ 2)
  have hf0 : f.eval 0 = p ^ 2 := by simp [f]
  have hf : f ≠ 0 := fun h0 => by rw [h0] at hf0; rw [eval_zero] at hf0; exact pow_ne_zero 2 hp hf0.symm
  have hroot : ∀ w : ℂ, w ^ 2 = -((p : ℂ) / q) ^ 2 → w ∈ f.aroots ℂ := fun w hw => by
    rw [mem_aroots]
    refine ⟨hf, ?_⟩
    simp only [f, map_add, map_mul, map_pow, aeval_C, aeval_X, hw]
    simp
    field_simp
    ring
  have hz : z ^ 2 = -((p : ℂ) / q) ^ 2 := by simp only [z]; rw [mul_pow, I_sq]; ring
  obtain ⟨M, hM⟩ := LindemannWeierstrass.exp_polynomial_approx f (by rw [hf0]; positivity)
  have hdeg : f.natDegree ≤ 2 := by
    simp only [f]; compute_degree
  set K : ℝ := |(q : ℝ) ^ 2 * M| with hK
  have hlim := (FloorSemiring.tendsto_pow_div_factorial_atTop K).const_mul (2 * |(b : ℝ)| * K)
  rw [mul_zero] at hlim
  obtain ⟨n₀, hn₀⟩ := Filter.eventually_atTop.1 (hlim.eventually (gt_mem_nhds one_pos))
  obtain ⟨P, hPbig, hP⟩ := Nat.exists_infinite_primes
    (n₀ + (eval 0 f).natAbs + q.natAbs + a.natAbs + 4)
  obtain ⟨n, hPn, g, hg, happ⟩ := hM P (by omega) hP
  have h1 := happ (hroot z hz)
  have h2 := happ (hroot (-z) (by rw [neg_sq, hz]))
  have hgd : g.natDegree ≤ 2 * P := hg.trans (by
    calc P * f.natDegree - 1 ≤ P * f.natDegree := Nat.sub_le _ _
      _ ≤ P * 2 := Nat.mul_le_mul_left _ hdeg
      _ = 2 * P := by ring)
  obtain ⟨G, hG⟩ := even_values_integral g p q hq (2 * P) hgd
  have hcos : cexp z + cexp (-z) = 2 * c := by
    have : (Real.cos r : ℂ) = c := by rw [h]; simp
    rw [← this, ofReal_cos, Complex.cos]
    have hz' : z = (r : ℝ) * I := by simp only [z]; rw [← hrq]; simp
    rw [hz', neg_mul]; ring
  let N : ℤ := q ^ (2 * P) * 2 * n * a - P * b * G
  have hN : (N : ℂ) = b * q ^ (2 * P) * ((n • cexp z - P • aeval z g) + (n • cexp (-z) - P • aeval (-z) g)) := by
    have e : (n • cexp z - P • aeval z g) + (n • cexp (-z) - P • aeval (-z) g) =
        n * (cexp z + cexp (-z)) - P * (aeval z g + aeval (-z) g) := by
      simp only [zsmul_eq_mul, nsmul_eq_mul]; ring
    rw [e, hcos]
    simp only [N]
    push_cast
    rw [← hG, ← hcb]
    ring
  have hN0 : N ≠ 0 := by
    intro h0
    have hdvd : (P : ℤ) ∣ q ^ (2 * P) * 2 * n * a := by
      have : q ^ (2 * P) * 2 * n * a = P * (b * G) := by simp only [N] at h0; linarith
      exact ⟨_, this⟩
    have hp' := Nat.prime_iff_prime_int.1 hP
    have small : ∀ x : ℤ, x ≠ 0 → x.natAbs < P → ¬(P : ℤ) ∣ x := fun x hx hlt hd =>
      absurd (Nat.le_of_dvd (Int.natAbs_pos.2 hx) (Int.natCast_dvd.1 hd)) (by omega)
    rcases hp'.dvd_or_dvd hdvd with h' | h'
    · rcases hp'.dvd_or_dvd h' with h' | h'
      · rcases hp'.dvd_or_dvd h' with h' | h'
        · exact small q hq (by omega) (hp'.dvd_of_dvd_pow h')
        · exact small 2 (by norm_num) (by simp; omega) h'
      · exact hPn h'
    · exact small a ha (by omega) h'
  have hbound : |(N : ℝ)| ≤ 2 * |(b : ℝ)| * K * (K ^ (P - 1) / ((P - 1).factorial : ℝ)) := by
    have e1 : |(N : ℝ)| = ‖(N : ℂ)‖ := by simp
    rw [e1, hN, norm_mul, norm_mul, norm_pow]
    have hMpos : (0 : ℝ) ≤ M ^ P / ((P - 1).factorial : ℝ) := (norm_nonneg _).trans h1
    have hs := (norm_add_le (n • cexp z - P • aeval z g) (n • cexp (-z) - P • aeval (-z) g)).trans (add_le_add h1 h2)
    have hMP : M ^ P ≤ |M| ^ P := by rw [← abs_pow]; exact le_abs_self _
    set F : ℝ := ((P - 1).factorial : ℝ)
    calc ‖(b : ℂ)‖ * ‖(q : ℂ)‖ ^ (2 * P) * _ ≤ ‖(b : ℂ)‖ * ‖(q : ℂ)‖ ^ (2 * P) * (M ^ P / F + M ^ P / F) := by gcongr
      _ ≤ ‖(b : ℂ)‖ * ‖(q : ℂ)‖ ^ (2 * P) * (|M| ^ P / F + |M| ^ P / F) := by gcongr
      _ = 2 * |(b : ℝ)| * K * (K ^ (P - 1) / F) := by
        have hKP : K * K ^ (P - 1) = |(q : ℝ)| ^ (2 * P) * |M| ^ P := by
          rw [← pow_succ', Nat.sub_add_cancel hP.one_le, hK, abs_mul, mul_pow, abs_pow, ← pow_mul]
        have e2 : ‖(q : ℂ)‖ = |(q : ℝ)| := by simp
        have e3 : ‖(b : ℂ)‖ = |(b : ℝ)| := by simp
        rw [e2, e3, mul_assoc (2 * _) K, ← mul_div_assoc, hKP]; ring
  have hlt := hn₀ (P - 1) (by omega)
  have hge : (1 : ℝ) ≤ |(N : ℝ)| := by exact_mod_cast Int.one_le_abs hN0
  linarith

/-- The cosine of a nonzero rational is irrational. -/
theorem irrational_cos {r : ℚ} (hr : r ≠ 0) : Irrational (Real.cos r) := by
  rintro ⟨c, hc⟩
  by_cases h0 : c = 0
  · refine cos_ne_ratio (r := 2 * r) (c := -1) (by simpa using hr) (by norm_num) ?_
    push_cast
    rw [Real.cos_two_mul, ← hc, h0]
    norm_num
  · exact cos_ne_ratio hr h0 hc.symm

/-- The sine of a nonzero rational is irrational. -/
theorem irrational_sin {r : ℚ} (hr : r ≠ 0) : Irrational (Real.sin r) := by
  rintro ⟨c, hc⟩
  refine irrational_cos (r := 2 * r) (by simpa using hr) ⟨1 - 2 * c ^ 2, ?_⟩
  push_cast
  rw [Real.cos_two_mul, Real.cos_sq', hc]
  ring
end Sys2Proof.Machine
end

