-- ==== Sys2Proof/Machine/TrigSeries.lean ====
section
/-! DEFINITION. The exact comparison of the sine and the cosine of a binary32 argument with a rational number, by as many
terms of the power series as it takes (00_scope.md rule R10: the correctly rounded value of the exact sine or cosine).
`sinAbove_iff` and `cosAbove_iff` say that the comparison is exact. -/

namespace Sys2Proof.Machine

/-- The numerator of term m of the sine's series: 0, 1, 0, −1 and so on. -/
def sinCoeff (m : Nat) : Int := if m % 4 = 1 then 1 else if m % 4 = 3 then -1 else 0

/-- The numerator of term m of the cosine's series: 1, 0, −1, 0 and so on. -/
def cosCoeff (m : Nat) : Int := if m % 4 = 0 then 1 else if m % 4 = 2 then -1 else 0

/-- The first n terms of a series at x. -/
def seriesSum (c : Nat → Int) (x : Rat) (n : Nat) : Rat := ∑ m ∈ Finset.range n, c m * x ^ m / m.factorial

/-- What the terms from n on can add at most, where n + 1 ≥ 2·x. -/
def seriesError (x : Rat) (n : Nat) : Rat := x ^ n / n.factorial * 2

/-- n terms tell on which side of b the value of the series lies. -/
def separates (c : Nat → Int) (x b : Rat) (n : Nat) : Bool :=
  decide (2 * x ≤ n + 1) && decide (seriesError x n < |seriesSum c x n - b|)

/-- Both numerators are parts of a power of i. -/
theorem I_pow_parts (m : ℕ) : (Complex.I ^ m).re = (cosCoeff m : ℝ) ∧ (Complex.I ^ m).im = (sinCoeff m : ℝ) := by
  have h : Complex.I ^ m = Complex.I ^ (m % 4) := by
    conv_lhs => rw [← Nat.div_add_mod m 4]
    rw [pow_add, pow_mul, Complex.I_pow_four, one_pow, one_mul]
  rw [h]
  unfold cosCoeff sinCoeff
  have hm : m % 4 < 4 := Nat.mod_lt _ (by decide)
  generalize m % 4 = k at hm ⊢
  interval_cases k <;> simp [pow_succ]

/-- Both series differ from their functions by no more than `seriesError`. -/
theorem series_error {x : ℚ} {n : ℕ} (hx : 0 ≤ x) (hn : 2 * x ≤ n + 1) :
    |Real.sin x - seriesSum sinCoeff x n| ≤ seriesError x n ∧
        |Real.cos x - seriesSum cosCoeff x n| ≤ seriesError x n := by
  have hx' : (0 : ℝ) ≤ x := by exact_mod_cast hx
  have hn' : 2 * (x : ℝ) ≤ n + 1 := by exact_mod_cast hn
  have hnorm : ‖((x : ℝ) : ℂ) * Complex.I‖ = x := by simp [abs_of_nonneg hx']
  have h := Complex.exp_bound' (x := ((x : ℝ) : ℂ) * Complex.I) (n := n) (by
    rw [hnorm, div_le_iff₀ (by positivity)]; push_cast; linarith)
  rw [hnorm] at h
  have herr : ((seriesError x n : ℚ) : ℝ) = (x : ℝ) ^ n / n.factorial * 2 := by simp [seriesError]
  have hterm : ∀ m : ℕ, (((x : ℝ) : ℂ) * Complex.I) ^ m / m.factorial =
      (((x : ℝ) ^ m / m.factorial : ℝ) : ℂ) * Complex.I ^ m := fun m => by
    rw [mul_pow]; push_cast; ring
  have hre := (Complex.abs_re_le_norm _).trans h
  have him := (Complex.abs_im_le_norm _).trans h
  rw [Complex.sub_re, Complex.exp_ofReal_mul_I_re, Complex.re_sum] at hre
  rw [Complex.sub_im, Complex.exp_ofReal_mul_I_im, Complex.im_sum] at him
  simp only [hterm, Complex.re_ofReal_mul, Complex.im_ofReal_mul, (I_pow_parts _).1, (I_pow_parts _).2] at hre him
  have hsum : ∀ c : ℕ → ℤ, ((seriesSum c x n : ℚ) : ℝ) = ∑ m ∈ Finset.range n, (x : ℝ) ^ m / m.factorial * c m := fun c => by
    unfold seriesSum
    push_cast
    exact Finset.sum_congr rfl fun m _ => by ring
  rw [herr, hsum, hsum]
  exact ⟨him, hre⟩

/-- Enough terms tell a value from any other. -/
theorem exists_separates {c : ℕ → ℤ} {x : ℚ} {v : ℝ}
    (h : ∀ n : ℕ, 2 * x ≤ n + 1 → |v - seriesSum c x n| ≤ seriesError x n) (b : ℚ) (hb : v ≠ b) :
    ∃ n, separates c x b n = true := by
  have hlim := (FloorSemiring.tendsto_pow_div_factorial_atTop (x : ℝ)).mul_const 2
  rw [zero_mul] at hlim
  have hpos : 0 < |v - b| / 2 := by have := abs_pos.2 (sub_ne_zero.2 hb); positivity
  obtain ⟨n₀, hn₀⟩ := Filter.eventually_atTop.1 (hlim.eventually (gt_mem_nhds hpos))
  obtain ⟨n₁, hn₁⟩ := exists_nat_ge (2 * x)
  refine ⟨max n₀ n₁, ?_⟩
  have h1 : 2 * x ≤ (max n₀ n₁ : ℕ) + 1 := by
    have : (n₁ : ℚ) ≤ (max n₀ n₁ : ℕ) := by exact_mod_cast le_max_right _ _
    linarith
  have h2 := h _ h1
  have h3 : ((seriesError x (max n₀ n₁) : ℚ) : ℝ) < |v - b| / 2 := by
    have := hn₀ (max n₀ n₁) (le_max_left _ _)
    simpa [seriesError] using this
  rw [separates, Bool.and_eq_true, decide_eq_true_iff, decide_eq_true_iff]
  refine ⟨h1, ?_⟩
  have h4 : (seriesError x (max n₀ n₁) : ℝ) < |(seriesSum c x (max n₀ n₁) : ℝ) - b| := by
    have := abs_sub_abs_le_abs_sub (v - b) (v - seriesSum c x (max n₀ n₁))
    have e : v - b - (v - (seriesSum c x (max n₀ n₁) : ℝ)) = seriesSum c x (max n₀ n₁) - b := by ring
    rw [e] at this
    linarith
  exact_mod_cast h4

/-- The value of a series lies above b exactly where a separating partial sum does. -/
theorem above_iff {c : ℕ → ℤ} {x b : ℚ} {v : ℝ} {n : ℕ}
    (h : ∀ n : ℕ, 2 * x ≤ n + 1 → |v - seriesSum c x n| ≤ seriesError x n) (hs : separates c x b n = true) :
    b < seriesSum c x n ↔ (b : ℝ) < v := by
  rw [separates, Bool.and_eq_true, decide_eq_true_iff, decide_eq_true_iff] at hs
  have h1 := abs_le.1 (h n hs.1)
  have h2 : (seriesError x n : ℝ) < |(seriesSum c x n : ℝ) - b| := by exact_mod_cast hs.2
  have hc : (b < seriesSum c x n) ↔ ((b : ℝ) < seriesSum c x n) := by norm_cast
  rw [hc]
  rcases lt_abs.1 h2 with h3 | h3 <;> constructor <;> intro h4 <;> linarith

/-- The angle of an argument of `units` units of 2^-149. -/
def angleRat (units : Nat) : Rat := units / 2 ^ 149

/-- Only the argument 0 has the angle 0. -/
theorem angleRat_pos {units : ℕ} (h : units ≠ 0) : 0 < angleRat units := by unfold angleRat; positivity

/-- The search of `sinAbove` ends. -/
theorem sin_separated {units : ℕ} (h : units ≠ 0) (b : ℚ) : ∃ n, separates sinCoeff (angleRat units) b n = true :=
  exists_separates (fun _ hn => (series_error (angleRat_pos h).le hn).1) b
    ((irrational_sin (angleRat_pos h).ne').ne_rat b)

/-- The search of `cosAbove` ends. -/
theorem cos_separated {units : ℕ} (h : units ≠ 0) (b : ℚ) : ∃ n, separates cosCoeff (angleRat units) b n = true :=
  exists_separates (fun _ hn => (series_error (angleRat_pos h).le hn).2) b
    ((irrational_cos (angleRat_pos h).ne').ne_rat b)

/-- The sine of `units`·2^-149 is above b. -/
def sinAbove (units : Nat) (b : Rat) : Bool :=
  if h : units = 0 then decide (b < 0)
  else decide (b < seriesSum sinCoeff (angleRat units) (Nat.find (sin_separated h b)))

/-- The cosine of `units`·2^-149 is above b. -/
def cosAbove (units : Nat) (b : Rat) : Bool :=
  if h : units = 0 then decide (b < 1)
  else decide (b < seriesSum cosCoeff (angleRat units) (Nat.find (cos_separated h b)))

/-- `sinAbove` compares with the exact sine. -/
theorem sinAbove_iff (units : ℕ) (b : ℚ) : sinAbove units b = true ↔ (b : ℝ) < Real.sin (units / 2 ^ 149) := by
  unfold sinAbove
  split
  · rename_i h; subst h; simp
  · rename_i h
    rw [decide_eq_true_iff, above_iff (fun _ hn => (series_error (angleRat_pos h).le hn).1)
        (Nat.find_spec (sin_separated h b))]
    simp [angleRat]

/-- `cosAbove` compares with the exact cosine. -/
theorem cosAbove_iff (units : ℕ) (b : ℚ) : cosAbove units b = true ↔ (b : ℝ) < Real.cos (units / 2 ^ 149) := by
  unfold cosAbove
  split
  · rename_i h; subst h; simp; norm_cast
  · rename_i h
    rw [decide_eq_true_iff, above_iff (fun _ hn => (series_error (angleRat_pos h).le hn).2)
        (Nat.find_spec (cos_separated h b))]
    simp [angleRat]
end Sys2Proof.Machine
end

