-- ==== Sys2Proof/Machine/Trig.lean ====
section
/-! DEFINITION. `sin32` and `cos32` (00_scope.md rule R10): the correctly rounded sine and cosine of a binary32 argument.
For an argument of K units of 2^-149 the point e^(i·x) of the unit circle is computed in fixed point: e^(i·x/2^k) to the
third order, then k squarings. Sys2Proof/Laws/Trig.lean proves that the exact sine and cosine lie within `trigRadius` of
the point found. Where both bounds round to one word, that word is the answer; where they do not, they round to neighbours,
and the exact value is compared with the boundary between the two (`sinAbove`, `cosAbove`). -/

namespace Sys2Proof.Machine

/-- k: how often the angle is halved before the series, and doubled after it. -/
def trigDoublings (units : Nat) : Nat := (4 * units.log2 - 414) / 3

/-- p: fixed-point numbers count units of 2^-p. -/
def trigScale (units : Nat) : Nat := trigDoublings units + 190

/-- The third-order values of cos t and sin t, for t·2^p given (0 ≤ t < 1/2). -/
def smallAngle (p t : Nat) : Int × Int :=
  (((2 ^ p : Nat) : Int) - ((t * t / 2 ^ (p + 1) : Nat) : Int), (t : Int) - ((t * t * t / (6 * 2 ^ (2 * p)) : Nat) : Int))

/-- One angle doubling: the square of the complex number C + i·S. -/
def doubleAngle (p : Nat) (z : Int × Int) : Int × Int :=
  ((z.1 * z.1 - z.2 * z.2) >>> p, (2 * z.1 * z.2) >>> p)

/-- n angle doublings. -/
def doubleAngles (p : Nat) : Nat → Int × Int → Int × Int
  | 0, z => z
  | n + 1, z => doubleAngles p n (doubleAngle p z)

/-- (cos x, sin x)·2^p for x = units·2^-149, within `trigRadius` of each. The shift by 41 is t·2^p for t = x/2^k, exactly:
p − k − 149 = 41. -/
def circlePoint (units : Nat) : Int × Int :=
  doubleAngles (trigScale units) (trigDoublings units) (smallAngle (trigScale units) (units <<< 41))

/-- The proven bound on the error of `circlePoint`: 2^-179, in units of 2^-p. -/
def trigRadius (units : Nat) : Int := ((2 ^ (trigDoublings units + 11) : Nat) : Int)

/-- The binary32 word nearest to n·2^-p. -/
def roundScaled (p : Nat) (n : Int) : Word := roundTo (decide (n < 0)) (n.natAbs * 2 ^ 149) (2 ^ p)

/-- The rational value of a finite word; 0 for the words that have none. -/
def wordRat (w : Word) : Rat :=
  match unpack w with
  | .nan => 0
  | .inf _ => 0
  | .fin neg k => signedUnits neg k / 2 ^ 149

/-- The rounding boundary between two neighbouring words. -/
def boundary (lo hi : Word) : Rat := (wordRat lo + wordRat hi) / 2

/-- The word nearest to a value within `r` of `c`, both in units of 2^-p: where the two bounds round to different words,
`above` tells on which side of the boundary between them the value lies. -/
def roundBetween (above : Rat → Bool) (p : Nat) (c r : Int) : Word :=
  let lo := roundScaled p (c - r)
  let hi := roundScaled p (c + r)
  if lo = hi then lo else if above (boundary lo hi) then hi else lo

/-- The correctly rounded sine of `units`·2^-149, for units ≠ 0. -/
def sinUnits (units : Nat) : Word :=
  roundBetween (sinAbove units) (trigScale units) (circlePoint units).2 (trigRadius units)

/-- The correctly rounded cosine of `units`·2^-149. -/
def cosUnits (units : Nat) : Word :=
  roundBetween (cosAbove units) (trigScale units) (circlePoint units).1 (trigRadius units)

/-- `sin32` (rule R10). The sine is odd, and sin32(±0) = ±0 (DEDUCED from 41_designer.md rule R138, "sin32 and rounding
to nearest are odd-symmetric"; log entry 7). The sine of an infinity or a NaN is NaN (PRESUMED, log entry 6). -/
def sin32 (a : Word) : Word :=
  match unpack a with
  | .nan => canonicalNaN
  | .inf _ => canonicalNaN
  | .fin neg k => if k = 0 then pack neg 0 else if neg then neg32 (sinUnits k) else sinUnits k

/-- `cos32` (rule R10). The cosine is even. The cosine of an infinity or a NaN is NaN (PRESUMED, log
entry 6). -/
def cos32 (a : Word) : Word :=
  match unpack a with
  | .nan => canonicalNaN
  | .inf _ => canonicalNaN
  | .fin _ k => cosUnits k

end Sys2Proof.Machine
end

