-- ==== Sys2Proof/Machine/Designer.lean ====
section
/-! DEFINITION. The tap generator (41_designer.md): windows, ideal responses, the synthesis of the taps, and DESIGN. -/

namespace Sys2Proof.Machine

/-- A1 = 2πx/N (rule R132). -/
def windowArg1 (n x : Nat) : Word := div32 (mul32 twoPi32 (toF32 x)) (toF32 n)

/-- A2 = 4πx/N (rule R132). -/
def windowArg2 (n x : Nat) : Word := div32 (mul32 fourPi32 (toF32 x)) (toF32 n)

/-- Rule R133. -/
def hammingAt (n x : Nat) : Word := sub32 c054 (mul32 c046 (cos32 (windowArg1 n x)))

/-- Rule R134. -/
def hanningAt (n x : Nat) : Word := sub32 c05 (mul32 c05 (cos32 (windowArg1 n x)))

/-- Rule R135, the standard form 1 − |2x − N|/N (90_conflicts.md C1). -/
def bartlettAt (n x : Nat) : Word := sub32 one32 (div32 (toF32 (2 * (x : Int) - n).natAbs) (toF32 n))

/-- Rule R136. -/
def blackmanAt (n x : Nat) : Word :=
  add32 (sub32 c042 (mul32 c05 (cos32 (windowArg1 n x)))) (mul32 c008 (cos32 (windowArg2 n x)))

/-- `window(x)` for order n (rules R132 to R137, R145). -/
def windowAt (w : Window) (n x : Nat) : Word :=
  match w with
  | .hamming => hammingAt n x
  | .hanning => hanningAt n x
  | .bartlett => bartlettAt n x
  | .blackman => blackmanAt n x
  | .rectangular => one32

/-- The normalised sinc (rule R138). -/
def sinc32 (t : Word) : Word :=
  if isZero t then one32 else div32 (sin32 (mul32 pi32 t)) (mul32 pi32 t)

/-- ft1 = f1/fs (rule R139). -/
def FilterSpec.ft1 (f : FilterSpec) : Word := div32 f.f1 f.fs

/-- ft2 = f2/fs (rule R139). -/
def FilterSpec.ft2 (f : FilterSpec) : Word := div32 f.f2 f.fs

/-- d = x − N/2 (rule R139); N is even. -/
def tapDistance (n x : Nat) : Int := (x : Int) - ((n / 2 : Nat) : Int)

/-- t = (2x − N)·f1/fs (rule R139). -/
def FilterSpec.sincArg (f : FilterSpec) (x : Nat) : Word := mul32 (toF32 (2 * (x : Int) - f.order)) f.ft1

/-- Rule R140. -/
def lowpassAt (f : FilterSpec) (x : Nat) : Word := mul32 (mul32 two32 f.ft1) (sinc32 (f.sincArg x))

/-- Rule R141; the centre is x = N/2 (90_conflicts.md C2). -/
def highpassAt (f : FilterSpec) (x : Nat) : Word :=
  if x = f.order / 2 then sub32 one32 (mul32 two32 f.ft1)
  else mul32 (neg32 (mul32 two32 f.ft1)) (sinc32 (f.sincArg x))

/-- sin(2π·ft·d)/(π·d), a term of rules R142 and R143. -/
def bandTerm (ft : Word) (d : Int) : Word :=
  div32 (sin32 (mul32 (mul32 twoPi32 ft) (toF32 d))) (mul32 pi32 (toF32 d))

/-- Rule R142. -/
def bandpassAt (f : FilterSpec) (x : Nat) : Word :=
  let d := tapDistance f.order x
  if d = 0 then mul32 two32 (sub32 f.ft2 f.ft1) else sub32 (bandTerm f.ft2 d) (bandTerm f.ft1 d)

/-- Rule R143. -/
def bandstopAt (f : FilterSpec) (x : Nat) : Word :=
  let d := tapDistance f.order x
  if d = 0 then sub32 one32 (mul32 two32 (sub32 f.ft2 f.ft1)) else sub32 (bandTerm f.ft1 d) (bandTerm f.ft2 d)

/-- `h(x)` (rules R140 to R143, R145). -/
def idealAt (f : FilterSpec) (x : Nat) : Word :=
  match f.family with
  | .lowpass => lowpassAt f x
  | .highpass => highpassAt f x
  | .bandpass => bandpassAt f x
  | .bandstop => bandstopAt f x

/-- The tap window(x)·h(x) for 0 ≤ x ≤ N/2 (rule R150). -/
def designTap (f : FilterSpec) (w : Window) (x : Nat) : Word := mul32 (windowAt w f.order x) (idealAt f x)

/-- `synthesize(N)`: x ascending over the lower half and the centre, each tap mirrored (rule R150). -/
def synthesize (f : FilterSpec) (w : Window) (m : Memory) : Memory :=
  loopUp (f.order / 2 + 1)
    (fun x m => (m.writeWord (tapAddr x) (designTap f w x)).writeWord (tapAddr (f.order - x)) (designTap f w x)) m

/-- A DESIGN whose validation succeeds (rule R130). -/
def designPass (s : State) (w : Window) : State :=
  { s with
      mem := synthesize s.filterSpec w s.mem
      cfgErr := 0
      tapCount := BitVec.ofNat 11 (s.filterSpec.order + 1)
      phase := .ready }.raise .ok

/-- A DESIGN whose validation fails: no tap is written and any earlier design becomes invalid (rules R130, R212). -/
def designFail (s : State) (mask : BitVec 7) : State :=
  { s with cfgErr := mask, tapCount := 0, phase := .idle }.raise .configError

/-- DESIGN in a phase that permits it (rule R130). An unrecognised window always fails validation (rule R145). -/
def designEffect (s : State) : State :=
  match s.filterSpec.window with
  | some w => if s.filterSpec.validate = 0 then designPass s w else designFail s s.filterSpec.validate
  | none => designFail s s.filterSpec.validate

/-- DESIGN (rule R130). -/
def execDesign (s : State) : Host.Outcome State Fault Refusal := ifPermitted .design s (designEffect s)

end Sys2Proof.Machine
end

