-- ==== Sys2Proof/Machine/Dispatch.lean ====
section
/-! DEFINITION. One arm per command (30_encoding.md rule R81). Each meaning makes the phase check of 40_host_access.md
rule R109 itself. -/

namespace Sys2Proof.Machine

def exec (i : Instr) (s : State) : Host.Outcome State Fault Refusal :=
  match i with
  | .nop => Sys2Proof.Machine.execNop s
  | .design => Sys2Proof.Machine.execDesign s
  | .start => Sys2Proof.Machine.execStart s
  | .process n => Sys2Proof.Machine.execProcess n s
  | .flush => Sys2Proof.Machine.execFlush s
  | .abort => Sys2Proof.Machine.execAbort s
  | .sreset => Sys2Proof.Machine.execSreset s

end Sys2Proof.Machine
end

