-- ==== Sys2Proof/Machine/HostAccess.lean ====
section
/-! DEFINITION. The host's register-port accesses (40_host_access.md rules R101 to R107, R112, R113) and the external
reset (70_reset_and_hazards.md rule R240). -/

namespace Sys2Proof.Machine

/-- The current word of a register (rule R101; 10_state.md rules R21 to R31). ID, VERSION and CAPS are hardwired; CMD
reads 0 (rule R26). -/
def State.readRegister (s : State) : Register → Word
  | .id => 0x46495254
  | .version => 0x00000007
  | .caps => 0x040003E8
  | .filter => s.filterWord
  | .f1 => s.f1
  | .f2 => s.f2
  | .fs => s.fs
  | .volume => s.volume
  | .cmd => 0x00000000
  | .status => s.statusWord
  | .cfgErr => s.cfgErr.setWidth 32
  | .tapCount => s.tapCount.setWidth 32
  | .outCount => s.outCount.setWidth 32
  | .samplesIn => s.samplesIn
  | .samplesOut => s.samplesOut

/-- The registers that can be read while BUSY = 1 (rule R105). -/
def Register.readableWhileBusy : Register → Bool
  | .id => true
  | .version => true
  | .caps => true
  | .filter => false
  | .f1 => false
  | .f2 => false
  | .fs => false
  | .volume => false
  | .cmd => false
  | .status => true
  | .cfgErr => false
  | .tapCount => false
  | .outCount => false
  | .samplesIn => false
  | .samplesOut => false

/-- The phases in which the host may read the taps (rule R112). -/
def Phase.tapsReadable : Phase → Bool
  | .idle => false
  | .ready => true
  | .stream => false
  | .done => true
  | .halted => true

/-- A read while BUSY = 0 (rules R101, R103, R104, R112, R113). -/
def State.readLocation (s : State) : Location → Word
  | .misaligned => 0
  | .register r => s.readRegister r
  | .inBuf i => s.inWord i
  | .outBuf i => s.outWord i
  | .tap i => if s.phase.tapsReadable ∧ i < s.len then s.tapWord i else 0
  | .reserved => 0

/-- A read while BUSY = 1: ID, VERSION, CAPS and STATUS as ever, every other location 0 (rule R105). -/
def State.readBusy (s : State) : Location → Word
  | .misaligned => 0
  | .register r => if r.readableWhileBusy then s.readRegister r else 0
  | .inBuf _ => 0
  | .outBuf _ => 0
  | .tap _ => 0
  | .reserved => 0

/-- The word `MemRead(a, 4)` returns. -/
def State.hostRead (s : State) (a : Offset) : Word :=
  if s.busy then s.readBusy (locate a) else s.readLocation (locate a)

/-- Command acceptance (rule R106). -/
def State.accept (s : State) (w : Word) : State := { s with pending := some w, lastOp := w.extractLsb' 0 8 }

/-- A write to a register while BUSY = 0 (rules R102, R106): reserved bits and read-only registers ignore it
(10_state.md rule R41). -/
def State.writeRegister (s : State) (v : Word) : Register → State
  | .id => s
  | .version => s
  | .caps => s
  | .filter => { s with family := v.extractLsb' 0 2, window := v.extractLsb' 4 3, order := v.extractLsb' 16 16 }
  | .f1 => { s with f1 := v }
  | .f2 => { s with f2 := v }
  | .fs => { s with fs := v }
  | .volume => { s with volume := v }
  | .cmd => s.accept v
  | .status => s
  | .cfgErr => s
  | .tapCount => s
  | .outCount => s
  | .samplesIn => s
  | .samplesOut => s

/-- A write while BUSY = 0 (rules R102 to R104, R106, R112, R113). -/
def State.writeLocation (s : State) (v : Word) : Location → State
  | .misaligned => s
  | .register r => s.writeRegister v r
  | .inBuf i => s.setIn i v
  | .outBuf _ => s
  | .tap _ => s
  | .reserved => s

/-- A write dropped while BUSY = 1 sets OVR and nothing else (rule R107); a misaligned one does not (20_memory.md rule
R63). -/
def State.dropWrite (s : State) : Location → State
  | .misaligned => s
  | .register _ => { s with ovr := true }
  | .inBuf _ => { s with ovr := true }
  | .outBuf _ => { s with ovr := true }
  | .tap _ => { s with ovr := true }
  | .reserved => { s with ovr := true }

/-- `MemWrite(a, 4, v)`. -/
def State.hostWrite (s : State) (a : Offset) (v : Word) : State :=
  if s.busy then s.dropWrite (locate a) else s.writeLocation v (locate a)

/-- The external reset (70_reset_and_hazards.md rule R240): every element takes its reset value, the pending command is
discarded, and the RAMs are unspecified afresh. What the outside world does next is no state of the block, so it stays. -/
def State.externalReset (s : State) : State :=
  { State.reset with powerOns := s.powerOns + 1, inputs := s.inputs, readData := s.readData }

end Sys2Proof.Machine
end

