-- ==== Sys2Proof/Machine/Agents.lean ====
section
/-! DEFINITION. The two agents (40_host_access.md rule R100): the host's accesses and the block's completion step, in the
order `State.inputs` gives (log entry 1). -/

namespace Sys2Proof.Machine

/-- `dispatch(w)` (rule R109): ILLEGAL first; the phase check and the command's own rule are `exec`'s. -/
def dispatch (w : Word) (s : State) : Host.Outcome State Fault Refusal :=
  match decode w with
  | .error _ => .next (s.raise .cmdIllegal)
  | .ok i => exec i s

/-- The soonest input has been taken. -/
def State.dropInput (s : State) : State := { s with inputs := s.inputs.tail }

/-- `pending <- none`, so BUSY = 0 (rule R108). -/
def State.finish (s : State) : State := { s with pending := none }

/-- Carry a change of the next state through an outcome. -/
def mapNext (f : State → State) : Host.Outcome State Fault Refusal → Host.Outcome State Fault Refusal
  | .next s => .next (f s)
  | .fault r => .fault r
  | .refused r => .refused r

/-- The completion step of a pending command (rule R108). -/
def complete (w : Word) (s : State) : Host.Outcome State Fault Refusal :=
  mapNext (fun t => t.finish.dropInput) (dispatch w s)

/-- The block's turn: it can step only when a command is pending (rule R100); otherwise the turn passes. -/
def blockTurn (s : State) : Host.Outcome State Fault Refusal :=
  match s.pending with
  | none => .next s.dropInput
  | some w => complete w s

/-- One step of the system: the soonest input, or the block's turn where no input is left (fairness, 70 rule R252). -/
def systemStep (s : State) : Host.Outcome State Fault Refusal :=
  match s.inputs with
  | [] => blockTurn s
  | .block :: _ => blockTurn s
  | .read a :: _ => .next { s with readData := s.hostRead a }.dropInput
  | .write a v :: _ => .next (s.hostWrite a v).dropInput
  | .reset :: _ => .next s.externalReset.dropInput

end Sys2Proof.Machine
end

