-- ==== Sys2Proof/Machine/Step.lean ====
section
/-! DEFINITION. The step of the machine, and the placing of a command where the next step takes it. -/

namespace Sys2Proof.Machine

/-- One step of the host or of the block. -/
def step (s : State) : Host.Outcome State Fault Refusal := systemStep s

/-- The command word whose bits are `w` accepted (40_host_access.md rule R106) and the block's turn come, so that the very
next step completes it. FIRTG fetches nothing: a command is a word written to CMD (log entry 5). -/
def State.withFetchWord (s : State) (nbits w : Nat) : State :=
  { s.accept (tableWord nbits w) with inputs := .block :: s.inputs }

end Sys2Proof.Machine
end

