-- ==== Sys2Proof/Machine/HostProgram.lean ====
section
/-! DEFINITION. The host program syntax of 30_encoding.md rules R90 and R91, as the inputs the statements stand for. -/

namespace Sys2Proof.Machine

/-- `wr <loc>, <hex32>` (rule R90). -/
def wr (loc : Offset) (v : Word) : List Input := [.write loc v]

/-- `rd <loc>` (rule R90). -/
def rd (loc : Offset) : List Input := [.read loc]

/-- The binary32 word nearest to the decimal ±num/den, ties to even: the operand of `wrf` (rule R91). -/
def nearest32 (neg : Bool) (num den : Nat) : Word := roundTo neg (num * 2 ^ 149) den

/-- `wrf <loc>, <decimal>` (rule R91). -/
def wrf (loc : Offset) (neg : Bool) (num den : Nat) : List Input := wr loc (nearest32 neg num den)

/-- The FILTER word (N << 16) OR (window << 4) OR family (30_encoding.md rule R89). -/
def filterSpecWord (f : Family) (w : Window) (n : Nat) : Word :=
  (BitVec.ofNat 32 n <<< 16) ||| (w.code.setWidth 32 <<< 4) ||| f.code.setWidth 32

/-- `filter <family>, <window>, <N>` (rule R91). -/
def filterInputs (f : Family) (w : Window) (n : Nat) : List Input := wr Register.filter.offset (filterSpecWord f w n)

/-- `in <i>, <decimal>` (rule R91). -/
def inInputs (i : Nat) (neg : Bool) (num den : Nat) : List Input := wrf (inBufOffset i) neg num den

/-- `cmd <MNEMONIC> [<n>]` (rule R91). -/
def cmdInputs (i : Instr) : List Input := wr Register.cmd.offset (encode i)

/-- `poll` (rule R91), in a run in which the block completes after `k` reads of STATUS. Which `k` it is is open (70 rule
R252); every `k` is a run of the model. -/
def pollInputs (k : Nat) : List Input :=
  List.replicate k (.read Register.status.offset) ++ [.block] ++ rd Register.status.offset

/-- `exec <MNEMONIC> [<n>]`: `cmd` and then `poll` (rule R91). -/
def execInputs (i : Instr) (k : Nat) : List Input := cmdInputs i ++ pollInputs k

end Sys2Proof.Machine
end

