-- ==== Sys2Proof/Machine/RealReading.lean ====
section
/-! DEFINITION. The exact real-valued reading of 00_scope.md rule R12, and what rule R10 means by rounding an exact value
once. The machine computes none of this: it is what claims about the machine's arithmetic are stated against. -/

namespace Sys2Proof.Machine

/-- The real value of a finite binary32 value; 0 for the values that have none. -/
noncomputable def Num.toReal : Num → ℝ
  | .nan => 0
  | .inf _ => 0
  | .fin neg k => (signedUnits neg k : ℝ) / 2 ^ 149

/-- The real value of a finite binary32 word. -/
noncomputable def wordReal (w : Word) : ℝ := (unpack w).toReal

/-- The exact value of a word, infinities included; none for a NaN. -/
noncomputable def exactValue (w : Word) : Option EReal :=
  match unpack w with
  | .nan => none
  | .inf neg => some (if neg then ⊥ else ⊤)
  | .fin neg k => some (((Num.fin neg k).toReal : ℝ) : EReal)

/-- `<` on exact values, false where one is a NaN's (rule R10). -/
def exactLt (a b : Option EReal) : Prop := ∃ x y, a = some x ∧ b = some y ∧ x < y

/-- The exact double (41_designer.md rule R131). -/
noncomputable def exactTwice (a : Option EReal) : Option EReal := a.map fun x => 2 * x

/-- A cutoff inside (0, fs/2): `0 < cutoff and 2*cutoff < fs`, on exact values (rule R131). -/
def cutoffInRange (cutoff fs : Word) : Prop :=
  exactLt (some 0) (exactValue cutoff) ∧ exactLt (exactTwice (exactValue cutoff)) (exactValue fs)

/-- The sign bit. -/
def signBit (w : Word) : Bool := w.getLsbD 31

/-- The magnitude at and above which rounding to nearest gives an infinity: halfway between the largest finite value and
2^128. -/
noncomputable def overflowBound : ℝ := 2 ^ 128 - 2 ^ 103

/-- `w` is the nonzero real `x` rounded once to binary32, to nearest, ties to even, with the sign of `x` (rule R10). -/
structure RoundsTo (x : ℝ) (w : Word) : Prop where
  /-- the sign of the result is that of the exact value, also where it rounds to a zero -/
  sign : signBit w = true ↔ x < 0
  /-- past the overflow bound the result is an infinity -/
  overflow : overflowBound ≤ |x| → w = infWord (signBit w)
  /-- otherwise it is finite -/
  finite : |x| < overflowBound → isFinite w = true
  /-- and no finite word is nearer -/
  nearest : |x| < overflowBound → ∀ v, isFinite v = true → |wordReal w - x| ≤ |wordReal v - x|
  /-- of two words equally near, it is the one with an even significand -/
  even : |x| < overflowBound → ∀ v, isFinite v = true → |wordReal v - x| = |wordReal w - x| →
    wordReal v ≠ wordReal w → w.getLsbD 0 = false

/-- sinc(t) = sin(πt)/(πt), sinc(0) = 1 (41_designer.md rule R138). -/
noncomputable def realSinc (t : ℝ) : ℝ := if t = 0 then 1 else Real.sin (Real.pi * t) / (Real.pi * t)

/-- The source's window table (41_designer.md section 2). -/
noncomputable def realWindow (w : Window) (n : ℕ) (x : ℝ) : ℝ :=
  match w with
  | .hamming => 0.54 - 0.46 * Real.cos (2 * Real.pi * x / n)
  | .hanning => 0.5 - 0.5 * Real.cos (2 * Real.pi * x / n)
  | .bartlett => 1 - 2 * |x - n / 2| / n
  | .blackman => 0.42 - 0.5 * Real.cos (2 * Real.pi * x / n) + 0.08 * Real.cos (4 * Real.pi * x / n)
  | .rectangular => 1

/-- sin(2π·ft·d)/(π·d) (rule R142). -/
noncomputable def realBandTerm (ft d : ℝ) : ℝ := Real.sin (2 * Real.pi * ft * d) / (Real.pi * d)

/-- h(x) away from the centre tap: the closed forms of rules R140 to R143, with ft1 = f1/fs and ft2 = f2/fs. -/
noncomputable def realClosedForm (f : Family) (n : ℕ) (ft1 ft2 x : ℝ) : ℝ :=
  match f with
  | .lowpass => 2 * ft1 * realSinc ((2 * x - n) * ft1)
  | .highpass => -(2 * ft1) * realSinc ((2 * x - n) * ft1)
  | .bandpass => realBandTerm ft2 (x - n / 2) - realBandTerm ft1 (x - n / 2)
  | .bandstop => realBandTerm ft1 (x - n / 2) - realBandTerm ft2 (x - n / 2)

/-- The centre tap, x = N/2 (rules R140 to R143). -/
noncomputable def realCentre (f : Family) (ft1 ft2 : ℝ) : ℝ :=
  match f with
  | .lowpass => 2 * ft1
  | .highpass => 1 - 2 * ft1
  | .bandpass => 2 * (ft2 - ft1)
  | .bandstop => 1 - 2 * (ft2 - ft1)

/-- h(x) in the real reading. -/
noncomputable def realIdeal (f : Family) (n : ℕ) (ft1 ft2 x : ℝ) : ℝ :=
  if x = n / 2 then realCentre f ft1 ft2 else realClosedForm f n ft1 ft2 x

/-- coefficients[x] = window(x)·ideal_response(x) in the real reading (rule R150). -/
noncomputable def realTap (f : Family) (w : Window) (n : ℕ) (ft1 ft2 x : ℝ) : ℝ :=
  realWindow w n x * realIdeal f n ft1 ft2 x

/-- Output j of a run in the real reading: 0.7·volume·Σ taps[k]·x_(j−k), a sample before the first being 0
(42_convolver.md rules R174, R185). -/
noncomputable def realOutput (len : ℕ) (taps : ℕ → ℝ) (volume : ℝ) (x : ℕ → ℝ) (j : ℕ) : ℝ :=
  (∑ k ∈ Finset.range len, taps k * (if k ≤ j then x (j - k) else 0)) * 0.7 * volume

end Sys2Proof.Machine
end

