-- ==== Sys2Proof/Safety.lean ====
section
/-! DEFINITION. What counts as a legal state, a dutiful host, and the streams of a run, in the terms claims use. -/

namespace Sys2Proof.Machine

/-- A legal tap count: 0, or N + 1 for an even N with 2 ≤ N ≤ 1000 (10_state.md rule R38, item 2). -/
def legalLen (len : Nat) : Prop :=
  len = 0 ∨ ∃ n, len = n + 1 ∧ n % 2 = 0 ∧ Config.nMin ≤ n ∧ n ≤ Config.nMax

/-- The byte offsets of IN_BUF, OUT_BUF and TAPS, where alone `mem` may list a byte (20_memory.md rule R60). -/
def ramOffset (a : Nat) : Prop := inBufBase ≤ a ∧ a < tapsBase + 4 * Config.lMax

/-- The invariants of every reachable state: 10_state.md rule R38, items 1 to 4, and what the model's own representation
and 70_reset_and_hazards.md rule R241 add to them. -/
structure State.Inv (s : State) : Prop where
  /-- R38.1 -/
  idle_iff : s.phase = .idle ↔ s.len = 0
  /-- R38.2 -/
  len_legal : legalLen s.len
  /-- R38.3 -/
  cur_lt : s.phase = .stream → s.cur < s.len
  /-- R38.4 -/
  out_le : s.outCount.toNat ≤ Config.bufWords
  /-- the RAM and the ring are in canonical form -/
  mem_wf : s.mem.wf = true
  ring_wf : s.ring.wf = true
  /-- and list bytes only where the spec has storage -/
  mem_range : ∀ c ∈ s.mem, ramOffset c.1
  ring_range : ∀ c ∈ s.ring, c.1 < 4 * Config.lMax
  /-- every valid tap was written by DESIGN since power-on (R241) -/
  taps_written : ∀ i < s.len, s.mem.holdsWord (tapAddr i) = true
  /-- every ring slot in use was written by START since power-on (R241) -/
  ring_written : s.phase = .stream → ∀ i < s.len, s.ring.holdsWord (4 * i) = true
  /-- ALLOC_ERROR is never produced (60_exceptions.md rule R213) -/
  result_ne : s.result ≠ .allocError

/-- The next step is the completion of the pending word w: it is the block's turn (40_host_access.md rules R100, R108). That
it is so where no input is left is the model's own choice (log entry 1). -/
def State.completes (s : State) (w : Word) : Prop :=
  s.pending = some w ∧ (s.inputs = [] ∨ ∃ rest, s.inputs = .block :: rest)

/-- The input is an access of the host, a read or a write (rule R100). -/
def Input.isAccess : Input → Bool
  | .read _ => true
  | .write _ _ => true
  | .block => false
  | .reset => false

/-- The next host access breaks the command hazard: BUSY = 1 and it is no aligned read of ID, VERSION, CAPS or STATUS
(70_reset_and_hazards.md rule R247). -/
def State.hazard (s : State) : Bool :=
  s.busy &&
    match s.inputs with
    | [] => false
    | .block :: _ => false
    | .reset :: _ => false
    | .write _ _ :: _ => true
    | .read a :: _ =>
      match locate a with
      | .register r => !r.readableWhileBusy
      | _ => true

/-- OUT_BUF[0..OUT_COUNT-1], as the host reads it after a PROCESS or a FLUSH (40_host_access.md rule R118). -/
def State.outputs (s : State) : List Word := (List.range s.outCount.toNat).map s.outWord

/-- The run has ended (40_host_access.md rule R119). -/
def State.runEnded (s : State) : Prop := s.busy = false ∧ (s.phase = .done ∨ s.phase = .halted)

/-- The host writes a block into IN_BUF[0..] (70_reset_and_hazards.md rule R244, step 5). -/
def loadInputFrom (i : Nat) : List Word → State → State
  | [], s => s
  | x :: xs, s => loadInputFrom (i + 1) xs (s.setIn i x)

/-- Blocks fed through IN_BUF and PROCESS one after another, with the outputs read after each (rules R117, R118). -/
def feedBlocks : List (List Word) → State → Option (State × List Word)
  | [], s => some (s, [])
  | xs :: rest, s =>
    match exec (.process xs.length) (loadInputFrom 0 xs s) with
    | .next t => (feedBlocks rest t).map fun r => (r.1, t.outputs ++ r.2)
    | .fault _ => none
    | .refused _ => none

/-- A whole run: START, the blocks, FLUSH; its last state and its output stream (rules R118, R185). -/
def runStream (blocks : List (List Word)) (s : State) : Option (State × List Word) :=
  match exec .start s with
  | .next t =>
    match feedBlocks blocks t with
    | some (u, ys) =>
      match exec .flush u with
      | .next v => some (v, ys ++ v.outputs)
      | .fault _ => none
      | .refused _ => none
    | none => none
  | .fault _ => none
  | .refused _ => none

/-- The accumulator of output j in the closed form: the fold over k ascending of TAPS[k]·x_(j−k), a sample before the
first being +0 (42_convolver.md rule R185). -/
def closedAcc (len : Nat) (taps x : Nat → Word) (j : Nat) : Word :=
  loopUp len (fun k acc => add32 acc (mul32 (taps k) (if k ≤ j then x (j - k) else zero32))) zero32

/-- Output j in the closed form (rule R185). -/
def closedOut (len : Nat) (taps : Nat → Word) (gain : Word) (x : Nat → Word) (j : Nat) : Word :=
  postGain (closedAcc len taps x j) gain

/-- The samples of a list, then zeros: the inputs of a run followed by its flush (rule R185). -/
def sampleAt (xs : List Word) (j : Nat) : Word := xs.getD j zero32

/-- The illegal encodings of 30_encoding.md rule R85, by the numbers in the word: RSV ≠ 0, OP above 0x06, or COUNT ≠ 0
with an OP other than 0x03. -/
def illegalWord (w : Word) : Prop :=
  w.toNat / 2 ^ 8 % 2 ^ 8 ≠ 0 ∨ 0x06 < w.toNat % 2 ^ 8 ∨ (w.toNat % 2 ^ 8 ≠ 0x03 ∧ w.toNat / 2 ^ 16 ≠ 0)

/-- Every valid tap is finite (41_designer.md rule R154). -/
def State.tapsFinite (s : State) : Prop := ∀ i < s.len, isFinite (s.tapWord i) = true

/-- The k-th newest sample as sample i of a block x_0, x_1, … is filtered: one of the block, or one the ring held before
it (42_convolver.md rules R171, R172). -/
def State.history (s : State) (x : Nat → Word) (i k : Nat) : Word :=
  if k ≤ i then x (i - k) else s.ringWord ((s.cur + i + s.len - k) % s.len)

/-- Output i of a block x_0, x_1, … from a state in a run (rules R173, R174, R176). -/
def State.blockOut (s : State) (x : Nat → Word) (i : Nat) : Word :=
  postGain (loopUp s.len (fun k acc => add32 acc (mul32 (s.tapWord k) (s.history x i k))) zero32) s.gain

/-- What the host reads and the pending slot holds after a reset (70_reset_and_hazards.md rule R240); `op` is LAST_OP. -/
structure State.ShowsReset (s : State) (op : BitVec 8) : Prop where
  pending : s.pending = none
  id : s.hostRead 0x000 = 0x46495254
  version : s.hostRead 0x004 = 0x00000007
  caps : s.hostRead 0x008 = 0x040003E8
  filter : s.hostRead 0x00C = 0x00000000
  f1 : s.hostRead 0x010 = 0x00000000
  f2 : s.hostRead 0x014 = 0x00000000
  fs : s.hostRead 0x018 = 0x00000000
  volume : s.hostRead 0x01C = 0x3F800000
  cmd : s.hostRead 0x020 = 0x00000000
  /-- BUSY 0, OVR 0, PHASE IDLE, RESULT OK -/
  status : s.hostRead 0x024 = op.setWidth 32 <<< 16
  cfgErr : s.hostRead 0x028 = 0x00000000
  tapCount : s.hostRead 0x02C = 0x00000000
  outCount : s.hostRead 0x030 = 0x00000000
  samplesIn : s.hostRead 0x034 = 0x00000000
  samplesOut : s.hostRead 0x038 = 0x00000000
  /-- TAPS cannot be read -/
  taps : ∀ i ≤ 1000, s.hostRead (tapOffset i) = 0x00000000

end Sys2Proof.Machine
end

