-- ==== Sys2Proof/Certificates/Slice0/Obligations.lean ====
section
/-! DEFINITION. The statements for the provers, each from the numbered rules its docstring names. A statement that calls an
instruction complete answers an equation `exec … = .next t`. -/

section Statements

open Sys2Proof Sys2Proof.Machine

/-! ### Encoding -/

/-- 95_test_vectors.md X-V1 to X-V16 (30_encoding.md rules R83 to R85): sample words and what they decode to. -/
def Obligations.SampleWordsDecode : Prop :=
  decode 0x00000000 = .ok .nop ∧ decode 0x00000001 = .ok .design ∧ decode 0x00000002 = .ok .start ∧
  decode 0x00000003 = .ok (.process 0) ∧ decode 0x00050003 = .ok (.process 5) ∧
  decode 0x04000003 = .ok (.process 1024) ∧ decode 0x04010003 = .ok (.process 1025) ∧
  decode 0xFFFF0003 = .ok (.process 65535) ∧ decode 0x00000004 = .ok .flush ∧ decode 0x00000005 = .ok .abort ∧
  decode 0x00000006 = .ok .sreset ∧ decode 0x00000007 = .error .unknownOpcode ∧
  decode 0x000000FF = .error .unknownOpcode ∧ decode 0x00000103 = .error .reservedByte ∧
  decode 0x00010001 = .error .countNotZero ∧ decode 0x80000006 = .error .countNotZero

/-- R84: the encoded words; PROCESS n is (n << 16) OR 3, as a number n·2^16 + 3. -/
def Obligations.EncodedWords : Prop :=
  encode .nop = 0x00000000 ∧ encode .design = 0x00000001 ∧ encode .start = 0x00000002 ∧
  (∀ n ≤ 65535, encode (.process n) = (BitVec.ofNat 32 n <<< 16) ||| 0x00000003 ∧
    (encode (.process n)).toNat = n * 2 ^ 16 + 3) ∧
  encode .flush = 0x00000004 ∧ encode .abort = 0x00000005 ∧ encode .sreset = 0x00000006 ∧
  encode (.process 5) = 0x00050003 ∧ encode (.process 1024) = 0x04000003

/-- R83: decode, as the rule writes it, over OP = w[7:0], RSV = w[15:8] and COUNT = w[31:16] as numbers. -/
def Obligations.DecodeRule : Prop :=
  ∀ (w : Word) (op rsv cnt : ℕ), op = w.toNat % 2 ^ 8 → rsv = w.toNat / 2 ^ 8 % 2 ^ 8 → cnt = w.toNat / 2 ^ 16 →
    ((rsv ≠ 0 ∨ 0x06 < op ∨ (op ≠ 0x03 ∧ cnt ≠ 0)) → ∃ e, decode w = .error e) ∧
    (rsv = 0 → op = 0x03 → decode w = .ok (.process cnt)) ∧
    (rsv = 0 → cnt = 0 →
      (op = 0x00 → decode w = .ok .nop) ∧ (op = 0x01 → decode w = .ok .design) ∧
      (op = 0x02 → decode w = .ok .start) ∧ (op = 0x04 → decode w = .ok .flush) ∧
      (op = 0x05 → decode w = .ok .abort) ∧ (op = 0x06 → decode w = .ok .sreset))

/-- R83 and R84 together: every well-formed command is what its word decodes to. -/
def Obligations.DecodeEncode : Prop := ∀ i : Instr, i.WellFormed → decode (encode i) = .ok i

/-- R83 and R84: a word that decodes is the word of its command, so no bit of a legal word is dropped. -/
def Obligations.EncodeDecode : Prop := ∀ (w : Word) (i : Instr), decode w = .ok i → i.WellFormed ∧ encode i = w

/-! ### The steps of the two agents -/

/-- R108, R109: when the block's turn comes with a pending word w, the step is the completion of w: `exec i` where w decodes
to i, RESULT alone where it is illegal; after it BUSY = 0 and the turn is taken. That the turn is the block's where no input
is left (`s.inputs = []` in `State.completes`) is the model's choice, log entry 1. -/
def Obligations.CommandStep : Prop :=
  ∀ (s : State) (w : Word), s.completes w →
    step s = complete w s ∧
    (∀ i, decode w = .ok i →
      step s = mapNext (fun t => { t with pending := none, inputs := t.inputs.tail }) (exec i s)) ∧
    ∀ e, decode w = .error e →
      step s = .next { s with result := .cmdIllegal, pending := none, inputs := s.inputs.tail }

/-- R100, R66, R240: one step per host access; a read changes nothing but the word it returns; the reset is one step. The
model's own choices in it: a block's turn with nothing pending is a step that changes nothing, and the turn is the block's
where no input is left (log entry 1); the word read is kept in `readData` (log entry 2); the reset keeps the inputs and
`readData` (log entry 16). -/
def Obligations.HostAccessSteps : Prop :=
  ∀ (s : State) (rest : List Input) (a : Offset) (v : Word),
    (s.inputs = .read a :: rest → step s = .next { s with readData := s.hostRead a, inputs := rest }) ∧
    (s.inputs = .write a v :: rest → step s = .next { s.hostWrite a v with inputs := rest }) ∧
    (s.inputs = .reset :: rest → step s = .next { s.externalReset with inputs := rest }) ∧
    ((s.inputs = [] ∨ s.inputs = .block :: rest) → s.pending = none →
      step s = .next { s with inputs := s.inputs.tail })

/-- R114: every step answers a next state, and so does every command; nothing faults, hangs or is refused. -/
def Obligations.StepAnswers : Prop :=
  (∀ s : State, ∃ t, step s = .next t) ∧ ∀ (i : Instr) (s : State), ∃ t, exec i s = .next t

/-- R108, R252: BUSY falls after finitely many steps, at most one more than the inputs that are left; and where only host
accesses come before the block's turn, no reset, the step that ends BUSY is the completion of the pending word, from a state
in which only OVR, the word read and the inputs have changed. That the turn comes when no input is left is the model's form
of the rule's fairness (log entry 1), and so is the word read (log entry 2). -/
def Obligations.PendingCommandCompletes : Prop :=
  (∀ s : State, ∃ k ≤ s.inputs.length + 1, ∃ t, Host.Core.run Sys2Proof.core k s = .next t ∧ t.pending = none) ∧
  ∀ (s : State) (w : Word) (accesses later : List Input),
    s.pending = some w → s.inputs = accesses ++ later → (∀ x ∈ accesses, x.isAccess = true) →
    (later = [] ∨ ∃ rest, later = .block :: rest) →
    ∃ u t, Host.Core.run Sys2Proof.core accesses.length s = .next u ∧
      u = { s with ovr := u.ovr, readData := u.readData, inputs := later } ∧
      step u = complete w u ∧ step u = .next t ∧ t.pending = none

/-- R91, R106, R108: `exec <command>` from BUSY = 0, the block completing after k polls: the command's own effect on the
accepted state, and a last read of STATUS with BUSY = 0. That the inputs run out and that the word read is kept are the
model's own (log entries 1 and 2). -/
def Obligations.ExecExpansion : Prop :=
  ∀ (s t : State) (i : Instr) (k : ℕ), i.WellFormed → s.pending = none → s.inputs = execInputs i k →
    exec i (s.accept (encode i)) = .next t →
    ∃ u, Host.Core.run Sys2Proof.core (k + 3) s = .next u ∧
      u = { t with pending := none, inputs := [], readData := { t with pending := none }.statusWord } ∧
      u.readData.toNat % 2 = 0 ∧ u.lastOp.toNat = (encode i).toNat % 2 ^ 8

/-! ### Control commands -/

/-- R200: RESULT alone, in every phase; LAST_OP = 0x00 at acceptance. -/
def Obligations.NopRule : Prop :=
  ∀ s : State, exec .nop s = .next { s with result := .ok } ∧
    (s.pending = none → ∃ t, complete 0x00000000 (s.hostWrite 0x020 0x00000000) = .next t ∧
      t = { s with result := .ok, lastOp := 0x00, inputs := s.inputs.tail })

/-- R201, with its example: STATUS = 0x00050340 if OVR = 0; a new run may START from HALTED, and its history is zeroed. -/
def Obligations.AbortRule : Prop :=
  ∀ s : State,
    ((s.phase = .stream ∨ s.phase = .done) →
      exec .abort s = .next { s with phase := .halted, result := .ioError } ∧
      (∃ u, exec .start { s with phase := .halted, result := .ioError } = .next u ∧ u.phase = .stream ∧ u.cur = 0 ∧
        ∀ i < s.len, u.ringWord i = 0x00000000) ∧
      (s.pending = none → s.ovr = false →
        ∃ t, complete 0x00000005 (s.hostWrite 0x020 0x00000005) = .next t ∧ t.statusWord = 0x00050340)) ∧
    ((s.phase = .idle ∨ s.phase = .ready ∨ s.phase = .halted) →
      exec .abort s = .next { s with result := .cmdState })

/-- R202: SRESET in any phase; the RAMs, ring, cur and GAIN stay; STATUS reads 0x00060000 after; the taps are unreadable;
and an SRESET written while BUSY is dropped. -/
def Obligations.SresetRule : Prop :=
  ∀ s : State, ∃ t, exec .sreset s = .next t ∧
    t = { s with
            family := 0, window := 0, order := 0, f1 := 0x00000000, f2 := 0x00000000, fs := 0x00000000,
            volume := 0x3F800000, ovr := false, phase := .idle, result := .ok, lastOp := 0x06, cfgErr := 0,
            tapCount := 0, outCount := 0, samplesIn := 0, samplesOut := 0 } ∧
    { t with pending := none }.statusWord = 0x00060000 ∧
    (∀ i ≤ 1000, { t with pending := none }.hostRead (tapOffset i) = 0) ∧
    (s.busy = true → s.hostWrite 0x020 0x00000006 = { s with ovr := true })

/-! ### DESIGN -/

/-- R150, with R130: a DESIGN whose validation succeeds, in a phase that permits it. TAPS[0..N] are the products
window(x)·h(x) of the lower half, mirrored; nothing else of the memory changes; the rest is R130's. -/
def Obligations.DesignPasses : Prop :=
  ∀ s : State, s.phase ≠ .stream → s.filterSpec.validate = 0 →
    ∃ t w, exec .design s = .next t ∧ s.filterSpec.window = some w ∧
      t = { s with mem := t.mem, cfgErr := 0, tapCount := t.tapCount, phase := .ready, result := .ok } ∧
      t.tapCount.toNat = s.order.toNat + 1 ∧
      (∀ x ≤ s.order.toNat / 2,
        t.tapWord x = mul32 (windowAt w s.order.toNat x) (idealAt s.filterSpec x) ∧
        t.tapWord (s.order.toNat - x) = mul32 (windowAt w s.order.toNat x) (idealAt s.filterSpec x)) ∧
      ∀ a, (a < 0x3000 ∨ 0x3000 + 4 * (s.order.toNat + 1) ≤ a) → t.ramByte a = s.ramByte a

/-- R212, with R130: a DESIGN whose validation fails writes no tap and leaves no valid design. -/
def Obligations.DesignFails : Prop :=
  ∀ s : State, s.phase ≠ .stream → s.filterSpec.validate ≠ 0 →
    exec .design s =
      .next { s with cfgErr := s.filterSpec.validate, tapCount := 0, phase := .idle, result := .configError }

/-- R131: the mask, one bit per failing check; every comparison is of exact values and false with a NaN. -/
def Obligations.ValidateMask : Prop :=
  ∀ s : State,
    (s.filterSpec.validate.getLsbD 0 = true ↔ 4 < s.window.toNat) ∧
    (s.filterSpec.validate.getLsbD 1 = true ↔ s.order.toNat % 2 = 1) ∧
    (s.filterSpec.validate.getLsbD 2 = true ↔ s.order.toNat < 2 ∨ 1000 < s.order.toNat) ∧
    (s.filterSpec.validate.getLsbD 3 = true ↔ ¬(isFinite s.fs = true ∧ exactLt (some 0) (exactValue s.fs))) ∧
    (s.filterSpec.validate.getLsbD 4 = true ↔ ¬cutoffInRange s.f1 s.fs) ∧
    (s.filterSpec.validate.getLsbD 5 = true ↔
      (s.family = 2 ∨ s.family = 3) ∧ ¬cutoffInRange s.f2 s.fs) ∧
    (s.filterSpec.validate.getLsbD 6 = true ↔
      (s.family = 2 ∨ s.family = 3) ∧ ¬exactLt (exactValue s.f1) (exactValue s.f2))

/-- R155: the source's ConfigError cases, each against a FilterSpec that is otherwise valid. -/
def Obligations.ConfigErrorCases : Prop :=
  ∀ s : State, s.phase ≠ .stream → s.filterSpec.validate = 0 →
    exec .design { s with order := 127 } =
      .next { s with order := 127, cfgErr := 0x02, tapCount := 0, phase := .idle, result := .configError } ∧
    exec .design { s with order := 1 } =
      .next { s with order := 1, cfgErr := 0x06, tapCount := 0, phase := .idle, result := .configError } ∧
    exec .design { s with f1 := 0x00000000 } =
      .next { s with f1 := 0x00000000, cfgErr := 0x10, tapCount := 0, phase := .idle, result := .configError } ∧
    ∀ v : Word, s.family = 2 → cutoffInRange v s.fs → ¬exactLt (exactValue s.f1) (exactValue v) →
      exec .design { s with f2 := v } =
        .next { s with f2 := v, cfgErr := 0x40, tapCount := 0, phase := .idle, result := .configError }

/-- R24, R130: DESIGN reads the FilterSpec registers alone, and F2 only for the band families. -/
def Obligations.DesignReadsFilterSpecOnly : Prop :=
  (∀ s s' : State, s.phase ≠ .stream → s'.phase ≠ .stream → s.filterSpec = s'.filterSpec →
    s.filterSpec.validate = 0 →
    ∃ t t', exec .design s = .next t ∧ exec .design s' = .next t' ∧ ∀ x ≤ s.order.toNat, t.tapWord x = t'.tapWord x) ∧
  ∀ (s : State) (v : Word), (s.family = 0 ∨ s.family = 1) →
    exec .design { s with f2 := v } = mapNext (fun t => { t with f2 := v }) (exec .design s)

/-- R151, R152: after a successful DESIGN the taps are symmetric, bit for bit, and N + 1 of them are valid and written;
the exact real taps are symmetric too. -/
def Obligations.TapSymmetry : Prop :=
  (∀ s : State, s.phase ≠ .stream → s.filterSpec.validate = 0 →
    ∃ t, exec .design s = .next t ∧ t.tapCount.toNat = s.order.toNat + 1 ∧
      ∀ x ≤ s.order.toNat,
        t.tapWord x = t.tapWord (s.order.toNat - x) ∧ t.mem.holdsWord (tapAddr x) = true) ∧
  ∀ (f : Family) (w : Window) (n : ℕ) (ft1 ft2 x : ℝ), 0 < n →
    realTap f w n ft1 ft2 (n - x) = realTap f w n ft1 ft2 x

/-- R133 to R137: the windows, in binary32 and in the real reading, with the end values the rules give. -/
def Obligations.WindowRules : Prop :=
  (∀ n x : ℕ,
    windowAt .hamming n x = sub32 c054 (mul32 c046 (cos32 (div32 (mul32 twoPi32 (toF32 x)) (toF32 n)))) ∧
    windowAt .hanning n x = sub32 c05 (mul32 c05 (cos32 (div32 (mul32 twoPi32 (toF32 x)) (toF32 n)))) ∧
    windowAt .bartlett n x = sub32 one32 (div32 (toF32 |2 * (x : ℤ) - n|) (toF32 n)) ∧
    windowAt .blackman n x =
      add32 (sub32 c042 (mul32 c05 (cos32 (div32 (mul32 twoPi32 (toF32 x)) (toF32 n)))))
        (mul32 c008 (cos32 (div32 (mul32 fourPi32 (toF32 x)) (toF32 n)))) ∧
    windowAt .rectangular n x = one32) ∧
  (∀ n : ℕ, n % 2 = 0 → 2 ≤ n → n ≤ 1000 →
    windowAt .hamming n 0 = 0x3DA3D70C ∧ windowAt .hanning n 0 = 0x00000000 ∧
    windowAt .bartlett n 0 = 0x00000000 ∧ windowAt .bartlett n (n / 2) = one32 ∧
    windowAt .blackman n 0 = 0xB2800000) ∧
  (∀ (n : ℕ) (x : ℝ),
    realWindow .hamming n x = 0.54 - 0.46 * Real.cos (2 * Real.pi * x / n) ∧
    realWindow .hanning n x = 0.5 - 0.5 * Real.cos (2 * Real.pi * x / n) ∧
    realWindow .bartlett n x = 1 - 2 * |x - n / 2| / n ∧
    realWindow .blackman n x =
      0.42 - 0.5 * Real.cos (2 * Real.pi * x / n) + 0.08 * Real.cos (4 * Real.pi * x / n) ∧
    realWindow .rectangular n x = 1) ∧
  ∀ n : ℕ, 0 < n →
    realWindow .hamming n 0 = 0.08 ∧ realWindow .hamming n (n / 2) = 1 ∧
    realWindow .hanning n 0 = 0 ∧ realWindow .hanning n (n / 2) = 1 ∧
    realWindow .bartlett n 0 = 0 ∧ realWindow .bartlett n (n / 2) = 1 ∧
    realWindow .blackman n 0 = 0 ∧ realWindow .blackman n (n / 2) = 1

/-- R138: the normalised sinc; its divisor is never zero and its result is even. -/
def Obligations.SincRule : Prop :=
  (∀ t : Word, isZero t = true → sinc32 t = one32) ∧
  (∀ t : Word, isZero t = false →
    sinc32 t = div32 (sin32 (mul32 pi32 t)) (mul32 pi32 t) ∧ isZero (mul32 pi32 t) = false) ∧
  (∀ t : Word, sinc32 (neg32 t) = sinc32 t) ∧
  realSinc 0 = 1 ∧ ∀ t : ℝ, t ≠ 0 → realSinc t = Real.sin (Real.pi * t) / (Real.pi * t)

/-- R140 to R143 with R139's quantities, and R153: the ideal response of each family, in binary32 and in the real reading;
the lowpass centre tap is 2·ft1 exactly; a rectangular lowpass has its ideal response for taps. -/
def Obligations.IdealResponseRules : Prop :=
  (∀ (f : FilterSpec) (x : ℕ),
    (f.family = .lowpass → idealAt f x =
      mul32 (mul32 two32 (div32 f.f1 f.fs)) (sinc32 (mul32 (toF32 (2 * x - f.order)) (div32 f.f1 f.fs)))) ∧
    (f.family = .highpass → x ≠ f.order / 2 → idealAt f x =
      mul32 (neg32 (mul32 two32 (div32 f.f1 f.fs)))
        (sinc32 (mul32 (toF32 (2 * x - f.order)) (div32 f.f1 f.fs)))) ∧
    (f.family = .highpass → x = f.order / 2 → idealAt f x = sub32 one32 (mul32 two32 (div32 f.f1 f.fs))) ∧
    (f.family = .bandpass → x ≠ f.order / 2 → idealAt f x =
      sub32
        (div32 (sin32 (mul32 (mul32 twoPi32 (div32 f.f2 f.fs)) (toF32 (x - (f.order / 2 : ℕ)))))
          (mul32 pi32 (toF32 (x - (f.order / 2 : ℕ)))))
        (div32 (sin32 (mul32 (mul32 twoPi32 (div32 f.f1 f.fs)) (toF32 (x - (f.order / 2 : ℕ)))))
          (mul32 pi32 (toF32 (x - (f.order / 2 : ℕ)))))) ∧
    (f.family = .bandpass → x = f.order / 2 → idealAt f x =
      mul32 two32 (sub32 (div32 f.f2 f.fs) (div32 f.f1 f.fs))) ∧
    (f.family = .bandstop → x ≠ f.order / 2 → idealAt f x =
      sub32
        (div32 (sin32 (mul32 (mul32 twoPi32 (div32 f.f1 f.fs)) (toF32 (x - (f.order / 2 : ℕ)))))
          (mul32 pi32 (toF32 (x - (f.order / 2 : ℕ)))))
        (div32 (sin32 (mul32 (mul32 twoPi32 (div32 f.f2 f.fs)) (toF32 (x - (f.order / 2 : ℕ)))))
          (mul32 pi32 (toF32 (x - (f.order / 2 : ℕ)))))) ∧
    (f.family = .bandstop → x = f.order / 2 → idealAt f x =
      sub32 one32 (mul32 two32 (sub32 (div32 f.f2 f.fs) (div32 f.f1 f.fs))))) ∧
  (∀ f : FilterSpec, f.validate = 0 → f.family = .lowpass →
    idealAt f (f.order / 2) = mul32 two32 (div32 f.f1 f.fs)) ∧
  (∀ (n : ℕ) (ft1 ft2 x : ℝ),
    realIdeal .lowpass n ft1 ft2 x = 2 * ft1 * realSinc ((2 * x - n) * ft1) ∧
    realIdeal .highpass n ft1 ft2 (n / 2) = 1 - 2 * ft1 ∧ realIdeal .bandpass n ft1 ft2 (n / 2) = 2 * (ft2 - ft1) ∧
    realIdeal .bandstop n ft1 ft2 (n / 2) = 1 - 2 * (ft2 - ft1) ∧
    (x ≠ n / 2 →
      realIdeal .highpass n ft1 ft2 x = -(2 * ft1) * realSinc ((2 * x - n) * ft1) ∧
      realIdeal .bandpass n ft1 ft2 x =
        Real.sin (2 * Real.pi * ft2 * (x - n / 2)) / (Real.pi * (x - n / 2)) -
          Real.sin (2 * Real.pi * ft1 * (x - n / 2)) / (Real.pi * (x - n / 2)) ∧
      realIdeal .bandstop n ft1 ft2 x =
        Real.sin (2 * Real.pi * ft1 * (x - n / 2)) / (Real.pi * (x - n / 2)) -
          Real.sin (2 * Real.pi * ft2 * (x - n / 2)) / (Real.pi * (x - n / 2)))) ∧
  ∀ s : State, s.phase ≠ .stream → s.filterSpec.validate = 0 → s.family = 0 → s.window = 4 →
    ∃ t, exec .design s = .next t ∧ ∀ x ≤ s.order.toNat / 2, t.tapWord x = lowpassAt s.filterSpec x

/-- R154: every tap is finite after a successful DESIGN; and no step of the machine makes a valid tap anything else. -/
def Obligations.EveryTapFinite : Prop :=
  (∀ s : State, s.phase ≠ .stream → s.filterSpec.validate = 0 →
    ∃ t, exec .design s = .next t ∧ t.tapsFinite) ∧
  ∀ s t : State, s.Inv → s.tapsFinite → step s = .next t → t.tapsFinite

/-! ### START, PROCESS, FLUSH -/

/-- R170; a gain that is a NaN or an infinity makes every output one. -/
def Obligations.StartRule : Prop :=
  (∀ (s : State) (x : Word), isFinite s.gain = false → isFinite (sampleOut s x) = false) ∧
  ∀ s : State,
    ((s.phase = .ready ∨ s.phase = .done ∨ s.phase = .halted) →
      ∃ t, exec .start s = .next t ∧
        t = { s with
                ring := t.ring, cur := 0, gain := s.volume, outCount := 0, samplesIn := 0, samplesOut := 0,
                phase := .stream, result := .ok } ∧
        (∀ i < s.len, t.ringWord i = 0x00000000) ∧ ∀ a, 4 * s.len ≤ a → t.ringByte a = s.ringByte a) ∧
    ((s.phase = .idle ∨ s.phase = .stream) → exec .start s = .next { s with result := .cmdState })

/-- R172 to R175: one sample. The ring index is the true modulo, which is the Euclidean remainder; the sum runs over
ascending k from +0, unfused; the post-gain is two multiplications; the ring stores the word unchanged. -/
def Obligations.SampleRule : Prop :=
  trueMod (-1) 5 = 4 ∧ trueMod 0 5 = 0 ∧ trueMod 5 5 = 0 ∧
  (∀ v m : ℤ, 0 < m → trueMod v m = ((v.tmod m) + m).tmod m ∧ trueMod v m = v % m ∧ 0 ≤ trueMod v m ∧ trueMod v m < m) ∧
  ∀ (s : State) (x : Word), s.cur < s.len →
    (∀ k < s.len, trueMod ((s.cur : ℤ) - k) s.len = ((s.cur + s.len - k) % s.len : ℕ)) ∧
    sampleState s x = { s with ring := (sampleState s x).ring, cur := (s.cur + 1) % s.len } ∧
    (sampleState s x).ringWord s.cur = x ∧
    (∀ a, (a < 4 * s.cur ∨ 4 * s.cur + 4 ≤ a) → (sampleState s x).ringByte a = s.ringByte a) ∧
    sampleOut s x =
      mul32 (mul32
        (loopUp s.len
          (fun k acc =>
            add32 acc (mul32 (s.tapWord k) (if k = 0 then x else s.ringWord ((s.cur + s.len - k) % s.len))))
          0x00000000)
        0x3F333333) s.gain

/-- R180 to R182: PROCESS n, its samples taken one after another, i ascending, and everything it leaves alone. -/
def Obligations.ProcessRule : Prop :=
  ∀ (s : State) (n : ℕ),
    (s.phase ≠ .stream → exec (.process n) s = .next { s with result := .cmdState }) ∧
    (s.phase = .stream → 1024 < n → exec (.process n) s = .next { s with result := .cmdCount }) ∧
    (s.phase = .stream → n = 0 → exec (.process n) s = .next { s with outCount := 0, result := .ok }) ∧
    (s.phase = .stream → n ≤ 1024 →
      ∃ (u : ℕ → State) (t : State), exec (.process n) s = .next t ∧ u 0 = s ∧
        (∀ i < n, u (i + 1) =
          (sampleState (u i) ((u i).inWord i)).setOut i (sampleOut (u i) ((u i).inWord i))) ∧
        t = { s with
                mem := (u n).mem, ring := (u n).ring, cur := (u n).cur, outCount := t.outCount,
                samplesIn := t.samplesIn, samplesOut := t.samplesOut, result := .ok } ∧
        t.outCount.toNat = n ∧
        t.samplesIn.toNat = (s.samplesIn.toNat + n) % 2 ^ 32 ∧
        t.samplesOut.toNat = (s.samplesOut.toNat + n) % 2 ^ 32 ∧
        ∀ a, (a < 0x2000 ∨ 0x2000 + 4 * n ≤ a) → t.ramByte a = s.ramByte a)

/-- R183, R184: FLUSH feeds exactly L zero samples, i ascending, and ends the run; straight after START it emits zeros for a
finite volume. -/
def Obligations.FlushRule : Prop :=
  (∀ s t : State, s.Inv → s.tapsFinite → isFinite s.volume = true → s.phase ≠ .stream → exec .start s = .next t →
    t.phase = .stream →
    ∃ u, exec .flush t = .next u ∧ ∀ i < s.len, isZero (u.outWord i) = true) ∧
  ∀ s : State,
    (s.phase ≠ .stream → exec .flush s = .next { s with result := .cmdState }) ∧
    (s.phase = .stream →
      ∃ (u : ℕ → State) (t : State), exec .flush s = .next t ∧ u 0 = s ∧
        (∀ i < s.len, u (i + 1) = (sampleState (u i) 0x00000000).setOut i (sampleOut (u i) 0x00000000)) ∧
        t = { s with
                mem := (u s.len).mem, ring := (u s.len).ring, cur := (u s.len).cur, outCount := t.outCount,
                samplesOut := t.samplesOut, phase := .done, result := .ok } ∧
        t.outCount.toNat = s.len ∧
        t.samplesOut.toNat = (s.samplesOut.toNat + s.len) % 2 ^ 32 ∧
        ∀ a, (a < 0x2000 ∨ 0x2000 + 4 * s.len ≤ a) → t.ramByte a = s.ramByte a)

/-- R173, R174, R176, R180, R183: what the words of OUT_BUF hold after a PROCESS or a FLUSH in a run, from the taps, the
block and the history alone. -/
def Obligations.BlockOutputs : Prop :=
  ∀ s : State, s.Inv → s.phase = .stream →
    (∀ n ≤ 1024, ∃ t, exec (.process n) s = .next t ∧ ∀ i < n, t.outWord i = s.blockOut s.inWord i) ∧
    ∃ t, exec .flush s = .next t ∧ ∀ i < s.len, t.outWord i = s.blockOut (fun _ => 0x00000000) i

/-- R171: between two samples of a run the L most recent inputs are resident, the newest at cur − 1 and the oldest at cur;
slots no sample has reached hold +0 from START. -/
def Obligations.RingHoldsHistory : Prop :=
  ∀ (s : State) (blocks : List (List Word)), s.Inv → (s.phase = .ready ∨ s.phase = .done ∨ s.phase = .halted) →
    (∀ b ∈ blocks, b.length ≤ 1024) →
    ∃ t u ys, exec .start s = .next t ∧ feedBlocks blocks t = some (u, ys) ∧ u.len = s.len ∧
      ∀ k, 1 ≤ k → k ≤ s.len →
        u.ringWord ((u.cur + s.len - k) % s.len) =
          if k ≤ blocks.flatten.length then sampleAt blocks.flatten (blocks.flatten.length - k) else 0x00000000

/-- R185: the closed form of a run, START, blocks, FLUSH: output j for every 0 ≤ j ≤ M + N. -/
def Obligations.RunClosedForm : Prop :=
  ∀ (s : State) (blocks : List (List Word)), s.Inv → (s.phase = .ready ∨ s.phase = .done ∨ s.phase = .halted) →
    (∀ b ∈ blocks, b.length ≤ 1024) →
    ∃ t ys, runStream blocks s = some (t, ys) ∧ ys.length = blocks.flatten.length + s.len ∧
      ∀ j < blocks.flatten.length + s.len,
        ys[j]? = some (mul32 (mul32
          (loopUp s.len
            (fun k a =>
              add32 a (mul32 (s.tapWord k) (if k ≤ j then sampleAt blocks.flatten (j - k) else 0x00000000)))
            0x00000000)
          0x3F333333) s.volume)

/-- R186: the output stream of a run does not depend on how its inputs are cut into blocks. -/
def Obligations.ChunkingInvariance : Prop :=
  ∀ (s : State) (blocks blocks' : List (List Word)), s.Inv →
    (s.phase = .ready ∨ s.phase = .done ∨ s.phase = .halted) →
    (∀ b ∈ blocks, b.length ≤ 1024) → (∀ b ∈ blocks', b.length ≤ 1024) → blocks.flatten = blocks'.flatten →
    ∃ t t' ys, runStream blocks s = some (t, ys) ∧ runStream blocks' s = some (t', ys)

/-- R187, with R254: one output per input and L more; the counters say so, modulo 2^32. -/
def Obligations.OutputLength : Prop :=
  ∀ (s : State) (blocks : List (List Word)), s.Inv → (s.phase = .ready ∨ s.phase = .done ∨ s.phase = .halted) →
    (∀ b ∈ blocks, b.length ≤ 1024) →
    ∃ t ys, runStream blocks s = some (t, ys) ∧ t.phase = .done ∧ ys.length = blocks.flatten.length + s.len ∧
      t.samplesIn.toNat = blocks.flatten.length % 2 ^ 32 ∧ t.samplesOut.toNat = ys.length % 2 ^ 32 ∧
      t.samplesOut.toNat = (t.samplesIn.toNat + s.len) % 2 ^ 32 ∧
      (blocks.flatten.length + s.len < 2 ^ 32 → t.samplesOut.toNat = t.samplesIn.toNat + s.len)

/-- R188: zero is a fixed point. That the taps are finite is R154 (EveryTapFinite). -/
def Obligations.ZeroFixedPoint : Prop :=
  ∀ (s : State) (blocks : List (List Word)), s.Inv → s.tapsFinite →
    (s.phase = .ready ∨ s.phase = .done ∨ s.phase = .halted) → (∀ b ∈ blocks, b.length ≤ 1024) →
    (∀ x ∈ blocks.flatten, x = 0x00000000 ∨ x = 0x80000000) →
    ∃ t ys, runStream blocks s = some (t, ys) ∧
      ∀ y ∈ ys,
        y = if isFinite s.volume = true then (if signBit s.volume = true then 0x80000000 else 0x00000000)
          else 0x7FC00000

/-- R189: the impulse response, tap by tap; a tap of −0 gives an accumulator of +0. -/
def Obligations.ImpulseResponse : Prop :=
  ∀ (s : State) (blocks : List (List Word)) (zeros : List Word), s.Inv → s.tapsFinite →
    (s.phase = .ready ∨ s.phase = .done ∨ s.phase = .halted) → (∀ b ∈ blocks, b.length ≤ 1024) →
    blocks.flatten = 0x3F800000 :: zeros → (∀ x ∈ zeros, x = 0x00000000 ∨ x = 0x80000000) →
    ∃ t ys, runStream blocks s = some (t, ys) ∧
      (∀ j < s.len, ys[j]? = some (mul32 (mul32
        (if s.tapWord j = 0x80000000 then 0x00000000 else s.tapWord j) 0x3F333333) s.volume)) ∧
      ∀ j y, s.len ≤ j → ys[j]? = some y → isFinite s.volume = true → isZero y = true

/-- R190: the last flush output is a zero, whatever the run's inputs were. -/
def Obligations.FlushDrainsTail : Prop :=
  ∀ s : State, s.Inv → s.tapsFinite → s.phase = .stream → isFinite s.gain = true →
    ∃ t, exec .flush s = .next t ∧ isZero (t.outWord (s.len - 1)) = true

/-- R170, R241: neither the history of an earlier run nor any unspecified RAM or ring word reaches a run's output, whose
inputs the host all writes: two states with the same valid taps and the same volume give the same outputs. -/
def Obligations.RunForgetsHistory : Prop :=
  ∀ (s s' : State) (blocks : List (List Word)), s.Inv → s'.Inv →
    (s.phase = .ready ∨ s.phase = .done ∨ s.phase = .halted) →
    (s'.phase = .ready ∨ s'.phase = .done ∨ s'.phase = .halted) →
    (∀ b ∈ blocks, b.length ≤ 1024) → s.tapCount = s'.tapCount → s.volume = s'.volume →
    (∀ i < s.len, ∀ k < 4, s.mem.readByte (tapAddr i + k) = s'.mem.readByte (tapAddr i + k)) →
    ∃ t t' ys, runStream blocks s = some (t, ys) ∧ runStream blocks s' = some (t', ys)

/-! ### Phases and results -/

/-- R110, R111, R215: in which phases a command is executed; outside them it ends with CMD_STATE and no other change. -/
def Obligations.PhaseTable : Prop :=
  ∀ (i : Instr) (s : State) (n : ℕ),
    (i = .nop ∨ i = .sreset ∨
      (i = .design ∧ s.phase ≠ .stream) ∨
      (i = .start ∧ (s.phase = .ready ∨ s.phase = .done ∨ s.phase = .halted)) ∨
      (i = .process n ∧ s.phase = .stream) ∨ (i = .flush ∧ s.phase = .stream) ∨
      (i = .abort ∧ (s.phase = .stream ∨ s.phase = .done)) →
      ∃ t, exec i s = .next t ∧
        t.result =
          match i with
          | .nop => .ok
          | .design => if s.filterSpec.validate = 0 then .ok else .configError
          | .start => .ok
          | .process m => if m ≤ 1024 then .ok else .cmdCount
          | .flush => .ok
          | .abort => .ioError
          | .sreset => .ok) ∧
    ((i = .design ∧ s.phase = .stream) ∨ (i = .start ∧ (s.phase = .idle ∨ s.phase = .stream)) ∨
      (i = .process n ∧ s.phase ≠ .stream) ∨ (i = .flush ∧ s.phase ≠ .stream) ∨
      (i = .abort ∧ (s.phase = .idle ∨ s.phase = .ready ∨ s.phase = .halted)) →
      exec i s = .next { s with result := .cmdState })

/-- R214: an illegal word changes RESULT alone, and LAST_OP, at its acceptance, to its bits [7:0]. -/
def Obligations.IllegalWordRule : Prop :=
  ∀ (s : State) (w : Word), illegalWord w → s.pending = none →
    ∃ t, complete w (s.hostWrite 0x020 w) = .next t ∧
      t = { s with lastOp := t.lastOp, result := .cmdIllegal, inputs := s.inputs.tail } ∧
      t.lastOp.toNat = w.toNat % 2 ^ 8 ∧ t.statusWord.toNat / 2 ^ 8 % 2 ^ 4 = 4

/-- R218, R219: a command reports the first result that applies, and one that ends with an error of the command itself or
of the FilterSpec has no effect but those its rule names. -/
def Obligations.PreciseErrors : Prop :=
  ∀ (s t : State) (w : Word), dispatch w s = .next t →
    (t.result = .cmdIllegal → t = { s with result := .cmdIllegal }) ∧
    (t.result = .cmdState → t = { s with result := .cmdState }) ∧
    (t.result = .cmdCount → t = { s with result := .cmdCount }) ∧
    (t.result = .configError →
      t = { s with cfgErr := t.cfgErr, tapCount := 0, phase := .idle, result := .configError }) ∧
    (illegalWord w → t.result = .cmdIllegal) ∧
    (w.toNat % 2 ^ 16 = 0x0003 → s.phase ≠ .stream → t.result = .cmdState) ∧
    (w.toNat % 2 ^ 16 = 0x0003 → s.phase = .stream → 1024 < w.toNat / 2 ^ 16 → t.result = .cmdCount)

/-- R213: no step produces ALLOC_ERROR (code 2). -/
def Obligations.NeverAllocError : Prop :=
  (∀ (i : Instr) (s t : State), exec i s = .next t → t.result ≠ .allocError) ∧
  ∀ s t : State, s.result ≠ .allocError → step s = .next t →
    t.result ≠ .allocError ∧ t.statusWord.toNat / 2 ^ 8 % 2 ^ 4 ≠ 2

/-- R13, R110: a run begins only by the completion of a START, and ends only by the completion of a FLUSH, an ABORT or an
SRESET, or by the external reset. (`State.completes`: that no input left is the block's turn is log entry 1's choice.) -/
def Obligations.RunLifecycle : Prop :=
  ∀ s t : State, step s = .next t →
    (s.phase ≠ .stream → t.phase = .stream → s.completes 0x00000002) ∧
    (s.phase = .stream → t.phase ≠ .stream →
      (∃ rest, s.inputs = .reset :: rest) ∨ (s.completes 0x00000004 ∧ t.phase = .done) ∨
      (s.completes 0x00000005 ∧ t.phase = .halted) ∨ (s.completes 0x00000006 ∧ t.phase = .idle))

/-- R217, with R107: OVR is cleared only by the completion of an SRESET and by the external reset, and set only by an
aligned write while BUSY, which changes nothing else of the block; every such write sets it. (`State.completes`: that no input
left is the block's turn is log entry 1's choice.) -/
def Obligations.OvrSticky : Prop :=
  ∀ s t : State, step s = .next t →
    (s.ovr = true → t.ovr = false → (∃ rest, s.inputs = .reset :: rest) ∨ s.completes 0x00000006) ∧
    (s.ovr = false → t.ovr = true →
      ∃ a v rest, s.inputs = .write a v :: rest ∧ s.busy = true ∧ a.toNat % 4 = 0 ∧ s.hazard = true ∧
        t = { s with ovr := true, inputs := rest }) ∧
    ∀ a v rest, s.inputs = .write a v :: rest → s.busy = true → a.toNat % 4 = 0 →
      t = { s with ovr := true, inputs := rest }

/-- R251: the taps of a run cannot change during it: TAPS is written only by the completion of a DESIGN, which cannot run
in STREAM. (`State.completes`: that no input left is the block's turn is log entry 1's choice.) -/
def Obligations.TapsFixedInRun : Prop :=
  ∀ s t : State, s.Inv → step s = .next t →
    (s.phase = .stream → t.phase = .stream → t.tapCount = s.tapCount) ∧
    ((∃ rest, s.inputs = .reset :: rest) ∨ (s.completes 0x00000001 ∧ s.phase ≠ .stream) ∨
      ∀ a, 0x3000 ≤ a → t.ramByte a = s.ramByte a)

/-- R250: what DESIGN and START latched stays latched: a host write changes no tap and no gain, GAIN changes only by
the completion of a START, and the configuration registers reach no output of a run. (`State.completes`: that no
input left is the block's turn is log entry 1's choice.) -/
def Obligations.ConfigurationLatch : Prop :=
  (∀ (s : State) (a : Offset) (v : Word),
    (s.hostWrite a v).tapCount = s.tapCount ∧ (s.hostWrite a v).gain = s.gain ∧
    ∀ i ≤ 1000, (s.hostWrite a v).tapWord i = s.tapWord i) ∧
  (∀ s t : State, step s = .next t → t.gain ≠ s.gain →
    (∃ rest, s.inputs = .reset :: rest) ∨ (s.completes 0x00000002 ∧ t.gain = s.volume)) ∧
  ∀ (s : State) (n : ℕ) (fam : BitVec 2) (win : BitVec 3) (ord : BitVec 16) (a b c d : Word),
    exec (.process n) { s with family := fam, window := win, order := ord, f1 := a, f2 := b, fs := c, volume := d } =
      mapNext (fun t => { t with family := fam, window := win, order := ord, f1 := a, f2 := b, fs := c, volume := d })
        (exec (.process n) s) ∧
    exec .flush { s with family := fam, window := win, order := ord, f1 := a, f2 := b, fs := c, volume := d } =
      mapNext (fun t => { t with family := fam, window := win, order := ord, f1 := a, f2 := b, fs := c, volume := d })
        (exec .flush s)

/-! ### Reset and the invariants -/

/-- R240: what the external reset leaves, asserted in any state, and what SRESET leaves beside it. The RAMs, the ring, cur
and GAIN are unspecified after the external reset, so nothing is said of them. A DESIGN straight after it fails. -/
def Obligations.ResetTable : Prop :=
  State.reset.ShowsReset 0x00 ∧
  ∀ s : State,
    s.externalReset.ShowsReset 0x00 ∧ (∃ u, exec .design s.externalReset = .next u ∧ u.result = .configError) ∧
    ∃ t, exec .sreset s = .next t ∧ { t with pending := none }.ShowsReset 0x06 ∧
      t.mem = s.mem ∧ t.ring = s.ring ∧ t.cur = s.cur ∧ t.gain = s.gain

/-- R242: SRESET against the external reset. -/
def Obligations.SresetVersusReset : Prop :=
  ∀ s : State,
    (s.busy = true → s.hostWrite 0x020 0x00000006 = { s with ovr := true }) ∧
    ∃ t, exec .sreset s = .next t ∧
      t.mem = s.mem ∧ t.ring = s.ring ∧ t.cur = s.cur ∧ t.gain = s.gain ∧ t.lastOp = 0x06 ∧ t.result = .ok ∧
      (∀ a : Offset, a ≠ 0x024 → (a.toNat < 0x1000 ∨ 0x3000 ≤ a.toNat) →
        { t with pending := none }.hostRead a = s.externalReset.hostRead a) ∧
      { t with pending := none }.hostRead 0x024 = s.externalReset.hostRead 0x024 ||| 0x00060000

/-- R243: the invariants hold after either reset. The clauses about the canonical form, the written words and the empty RAMs
are the model's own representation of R241 (log entry 3). -/
def Obligations.ResetInvariant : Prop :=
  State.reset.Inv ∧ State.reset.tapsFinite ∧
  (∀ s : State, s.externalReset.Inv ∧ s.externalReset.mem = [] ∧ s.externalReset.ring = []) ∧
  ∀ s : State, ∃ t, exec .sreset s = .next t ∧
    t.phase = .idle ∧ t.tapCount = 0 ∧ t.outCount = 0 ∧ (s.Inv → t.Inv)

/-- R38: every step keeps the invariants, from every state that has them, and so they hold in every state that a host's
program and resets reach. `State.Inv` adds to the rule's four what the model's own representation needs (log entry 3). -/
def Obligations.InvariantKept : Prop :=
  (∀ s t : State, s.Inv → step s = .next t → t.Inv) ∧
  ∀ (l : List Input) (k : ℕ) (t : State), Host.Core.run Sys2Proof.core k { State.reset with inputs := l } = .next t →
    (t.phase = .idle ↔ t.tapCount.toNat = 0) ∧
    (t.tapCount.toNat ≠ 0 → ∃ n, t.tapCount.toNat = n + 1 ∧ n % 2 = 0 ∧ 2 ≤ n ∧ n ≤ 1000) ∧
    (t.phase = .stream → t.cur < t.tapCount.toNat) ∧ t.outCount.toNat ≤ 1024

/-! ### Host accesses -/

/-- R101: the registers as the host reads them while BUSY = 0. -/
def Obligations.RegisterReads : Prop :=
  ∀ s : State, s.pending = none →
    s.hostRead 0x000 = 0x46495254 ∧ s.hostRead 0x004 = 0x00000007 ∧ s.hostRead 0x008 = 0x040003E8 ∧
    (s.hostRead 0x00C).toNat = s.order.toNat * 2 ^ 16 + s.window.toNat * 2 ^ 4 + s.family.toNat ∧
    s.hostRead 0x010 = s.f1 ∧ s.hostRead 0x014 = s.f2 ∧ s.hostRead 0x018 = s.fs ∧ s.hostRead 0x01C = s.volume ∧
    s.hostRead 0x020 = 0x00000000 ∧
    (s.hostRead 0x024).toNat =
      s.lastOp.toNat * 2 ^ 16 + s.result.code.toNat * 2 ^ 8 + s.phase.code.toNat * 2 ^ 4 + s.ovr.toNat * 2 ∧
    (s.hostRead 0x028).toNat = s.cfgErr.toNat ∧ (s.hostRead 0x02C).toNat = s.tapCount.toNat ∧
    (s.hostRead 0x030).toNat = s.outCount.toNat ∧ s.hostRead 0x034 = s.samplesIn ∧ s.hostRead 0x038 = s.samplesOut ∧
    State.reset.hostRead 0x024 = 0x00000000 ∧ State.reset.hostRead 0x01C = 0x3F800000

/-- R102: a write of a register other than CMD while BUSY = 0. -/
def Obligations.RegisterWrites : Prop :=
  ∀ (s : State) (v : Word), s.pending = none →
    (∃ f w o, s.hostWrite 0x00C v = { s with family := f, window := w, order := o } ∧
      f.toNat = v.toNat % 4 ∧ w.toNat = v.toNat / 2 ^ 4 % 8 ∧ o.toNat = v.toNat / 2 ^ 16) ∧
    s.hostWrite 0x010 v = { s with f1 := v } ∧ s.hostWrite 0x014 v = { s with f2 := v } ∧
    s.hostWrite 0x018 v = { s with fs := v } ∧ s.hostWrite 0x01C v = { s with volume := v } ∧
    (∀ a ∈ [0x000, 0x004, 0x008, 0x024, 0x028, 0x02C, 0x030, 0x034, 0x038], s.hostWrite a v = s) ∧
    (s.hostWrite 0x00C 0x000F7FFE).hostRead 0x00C = 0x000F0072

/-- R103: IN_BUF stores and returns any word; a word nothing has written reads as the free value of its bytes (log
entry 3), the same at every read until it is written. -/
def Obligations.InBufAccess : Prop :=
  ∀ (s : State) (i : ℕ) (v : Word), i < 1024 → s.pending = none →
    (s.hostWrite (inBufOffset i) v).hostRead (inBufOffset i) = v ∧
    s.hostWrite (inBufOffset i) v = { s with mem := (s.hostWrite (inBufOffset i) v).mem } ∧
    (∀ a, (a < 0x1000 + 4 * i ∨ 0x1000 + 4 * i + 4 ≤ a) → (s.hostWrite (inBufOffset i) v).ramByte a = s.ramByte a) ∧
    s.hostRead (inBufOffset i) = s.inWord i ∧
    ((∀ k < 4, s.mem.readByte (0x1000 + 4 * i + k) = none) →
      ∀ k < 4, ((s.hostRead (inBufOffset i)).toNat / 2 ^ (8 * k)) % 2 ^ 8 =
        (Config.powerOnByte s.powerOns (0x1000 + 4 * i + k)).toNat)

/-- R112, with R104: the windows the host can read and not write. -/
def Obligations.ReadOnlyWindows : Prop :=
  ∀ (s : State) (i : ℕ) (v : Word), i < 1024 → s.pending = none →
    (s.hostRead (tapOffset i) =
      if (s.phase = .ready ∨ s.phase = .done ∨ s.phase = .halted) ∧ i < s.tapCount.toNat ∧ i ≤ 1000 then s.tapWord i
      else 0x00000000) ∧
    s.hostWrite (tapOffset i) v = s ∧
    s.hostRead (outBufOffset i) = s.outWord i ∧ s.hostWrite (outBufOffset i) v = s

/-- R61, R63: reserved offsets and misaligned ones. -/
def Obligations.ReservedAndMisaligned : Prop :=
  ∀ (s : State) (a : Offset) (v : Word),
    (a.toNat % 4 ≠ 0 → s.hostRead a = 0x00000000 ∧ s.hostWrite a v = s) ∧
    (a.toNat % 4 = 0 → ((0x003C ≤ a.toNat ∧ a.toNat < 0x1000) ∨ 0x3FA4 ≤ a.toNat) →
      s.hostRead a = 0x00000000 ∧ s.hostWrite a v = if s.busy then { s with ovr := true } else s)

/-- R105: a read while BUSY = 1. -/
def Obligations.BusyReads : Prop :=
  ∀ (s : State) (a : Offset) (w : Word), s.pending = some w → a.toNat % 4 = 0 →
    s.hostRead a =
      if a = 0x000 then 0x46495254
      else if a = 0x004 then 0x00000007
      else if a = 0x008 then 0x040003E8
      else if a = 0x024 then
        BitVec.ofNat 32
          (s.lastOp.toNat * 2 ^ 16 + s.result.code.toNat * 2 ^ 8 + s.phase.code.toNat * 2 ^ 4 + s.ovr.toNat * 2 + 1)
      else 0x00000000

/-- R107: a write while BUSY = 1 is dropped. -/
def Obligations.BusyWrites : Prop :=
  ∀ (s : State) (a : Offset) (v w : Word), s.pending = some w → a.toNat % 4 = 0 →
    s.hostWrite a v = { s with ovr := true }

/-- R106: command acceptance. -/
def Obligations.CommandAcceptance : Prop :=
  ∀ (s : State) (w : Word), s.pending = none →
    s.hostWrite 0x020 w = { s with pending := some w, lastOp := (s.hostWrite 0x020 w).lastOp } ∧
    (s.hostWrite 0x020 w).lastOp.toNat = w.toNat % 2 ^ 8 ∧ (s.hostWrite 0x020 w).busy = true ∧
    (s.ovr = false → (s.hostWrite 0x020 0x00000001).hostRead 0x024 =
      0x00010001 ||| (s.phase.code.setWidth 32 <<< 4) ||| (s.result.code.setWidth 32 <<< 8))

/-! ### Arithmetic -/

/-- R10: add32 and sub32 round the exact sum once; an infinity outweighs a finite operand, and infinities that cancel give
the canonical NaN. That an exact zero is +0 unless both terms are negative zeros is IEEE 754's, log entry 7 (93 G1). -/
def Obligations.AddRoundsOnce : Prop :=
  (∀ a b : Word, isFinite a = true → isFinite b = true →
    (wordReal a + wordReal b ≠ 0 → RoundsTo (wordReal a + wordReal b) (add32 a b)) ∧
    (wordReal a + wordReal b = 0 → add32 a b = if signBit a && signBit b then 0x80000000 else 0x00000000) ∧
    (wordReal a - wordReal b ≠ 0 → RoundsTo (wordReal a - wordReal b) (sub32 a b)) ∧
    (wordReal a - wordReal b = 0 → sub32 a b = if signBit a && !signBit b then 0x80000000 else 0x00000000)) ∧
  infWord false = 0x7F800000 ∧ infWord true = 0xFF800000 ∧
  ∀ p : Bool,
    (∀ b : Word, isFinite b = true →
      add32 (infWord p) b = infWord p ∧ add32 b (infWord p) = infWord p ∧
      sub32 (infWord p) b = infWord p ∧ sub32 b (infWord p) = infWord (!p)) ∧
    add32 (infWord p) (infWord p) = infWord p ∧ add32 (infWord p) (infWord (!p)) = 0x7FC00000 ∧
    sub32 (infWord p) (infWord p) = 0x7FC00000 ∧ sub32 (infWord p) (infWord (!p)) = infWord p

/-- R10: mul32 and div32 round the exact product and quotient once; an infinity times a zero, an infinity over an infinity
and a zero over a zero are the canonical NaN, and the other results with an infinite operand or a zero divisor are
infinities and zeros. That an exact zero, a nonzero result that rounds to a zero (the sign clause of `RoundsTo`), and an
infinity have the exclusive-or of the operands' signs is IEEE 754's, log entry 7; no rule divides by a zero, log
entry 14. -/
def Obligations.MulRoundsOnce : Prop :=
  (∀ a b : Word, isFinite a = true → isFinite b = true →
    (wordReal a * wordReal b ≠ 0 → RoundsTo (wordReal a * wordReal b) (mul32 a b)) ∧
    (wordReal a * wordReal b = 0 →
      mul32 a b = if signBit a != signBit b then 0x80000000 else 0x00000000) ∧
    (wordReal b ≠ 0 → wordReal a ≠ 0 → RoundsTo (wordReal a / wordReal b) (div32 a b)) ∧
    (wordReal b ≠ 0 → wordReal a = 0 →
      div32 a b = if signBit a != signBit b then 0x80000000 else 0x00000000) ∧
    (wordReal b = 0 → wordReal a ≠ 0 → div32 a b = infWord (signBit a != signBit b)) ∧
    (wordReal b = 0 → wordReal a = 0 → div32 a b = 0x7FC00000)) ∧
  (∀ (p : Bool) (b : Word), isFinite b = true →
    (wordReal b ≠ 0 →
      mul32 (infWord p) b = infWord (p != signBit b) ∧ mul32 b (infWord p) = infWord (p != signBit b)) ∧
    (wordReal b = 0 → mul32 (infWord p) b = 0x7FC00000 ∧ mul32 b (infWord p) = 0x7FC00000) ∧
    div32 (infWord p) b = infWord (p != signBit b) ∧
    div32 b (infWord p) = if p != signBit b then 0x80000000 else 0x00000000) ∧
  ∀ p q : Bool,
    mul32 (infWord p) (infWord q) = infWord (p != q) ∧ div32 (infWord p) (infWord q) = 0x7FC00000

/-- R10: for every finite argument sin32 and cos32 are the exact sine and cosine of its real value, rounded once. The exact
sine of ±0 is 0, and which zero sin32 answers there is log entry 7's; the canonical NaN of an argument that has no real value
is log entry 6's. -/
def Obligations.SinCosRoundOnce : Prop :=
  ∀ a : Word,
    (isFinite a = true → isZero a = false → RoundsTo (Real.sin (wordReal a)) (sin32 a)) ∧
    (isFinite a = true → RoundsTo (Real.cos (wordReal a)) (cos32 a)) ∧
    (isZero a = true → sin32 a = a ∧ cos32 a = 0x3F800000) ∧
    (isFinite a = false → sin32 a = 0x7FC00000 ∧ cos32 a = 0x7FC00000)

/-- R10: toF32 is exact up to 2^24; neg32 flips the sign; a NaN result is the canonical NaN; a NaN operand gives it. -/
def Obligations.ConversionsAndNaN : Prop :=
  (∀ i : ℤ, |i| ≤ 2 ^ 24 → isFinite (toF32 i) = true ∧ wordReal (toF32 i) = i) ∧
  (∀ a : Word, isFinite a = true → wordReal (neg32 a) = -wordReal a ∧ signBit (neg32 a) = !signBit a) ∧
  ∀ a b : Word,
    (unpack a = .nan ∨ unpack b = .nan →
      add32 a b = 0x7FC00000 ∧ sub32 a b = 0x7FC00000 ∧ mul32 a b = 0x7FC00000 ∧ div32 a b = 0x7FC00000) ∧
    (unpack (add32 a b) = .nan → add32 a b = 0x7FC00000) ∧ (unpack (sub32 a b) = .nan → sub32 a b = 0x7FC00000) ∧
    (unpack (mul32 a b) = .nan → mul32 a b = 0x7FC00000) ∧ (unpack (div32 a b) = .nan → div32 a b = 0x7FC00000) ∧
    (unpack (sin32 a) = .nan → sin32 a = 0x7FC00000) ∧ (unpack (cos32 a) = .nan → cos32 a = 0x7FC00000)

end Statements
end

