-- ==== Sys2Proof/Laws/Binary32.lean ====
section
/-! SUPPORT. What the packing and the rounding of binary32 do: `roundTo` is one rounding to nearest, ties to even
(00_scope.md rule R10). -/

namespace Sys2Proof.Machine

/-- The units of a magnitude pattern below the infinity. -/
def unitsOf (mag : ℕ) : ℕ :=
  if mag / 2 ^ 23 = 0 then mag % 2 ^ 23 else (2 ^ 23 + mag % 2 ^ 23) * 2 ^ (mag / 2 ^ 23 - 1)

theorem pack_toNat (neg : Bool) {mag : ℕ} (h : mag < 2 ^ 31) :
    (pack neg mag).toNat = if neg then 2 ^ 31 + mag else mag := by
  simp only [pack, BitVec.toNat_ofNat]
  split <;> omega

theorem unpack_pack (neg : Bool) {mag : ℕ} (h : mag < infPattern) : unpack (pack neg mag) = .fin neg (unitsOf mag) := by
  have h31 : mag < 2 ^ 31 := h.trans (by decide)
  have hm : (pack neg mag).toNat % 2 ^ 31 = mag := by rw [pack_toNat neg h31]; split <;> omega
  have hneg : decide (2 ^ 31 ≤ (pack neg mag).toNat) = neg := by
    rw [pack_toNat neg h31]; cases neg <;> simp; omega
  have he : mag / 2 ^ 23 ≠ 255 := by have : mag < 2139095040 := h; omega
  simp only [unpack, hm, hneg, unitsOf]
  rw [if_neg he]
  split <;> rfl

theorem unpack_infWord (neg : Bool) : unpack (infWord neg) = .inf neg := by cases neg <;> decide

@[simp] theorem unpack_canonicalNaN : unpack canonicalNaN = .nan := by decide

/-- The word of a pattern has the sign asked for. -/
theorem signBit_pack (neg : Bool) {mag : ℕ} (h : mag < 2 ^ 31) : signBit (pack neg mag) = neg := by
  have : signBit (pack neg mag) = decide (2 ^ 31 ≤ (pack neg mag).toNat) := by
    rw [signBit, BitVec.getLsbD, Nat.testBit_eq_decide_div_mod_eq]
    have := (pack neg mag).isLt
    congr 1
    apply propext
    omega
  rw [this, pack_toNat neg h]
  cases neg <;> simp; omega

theorem pack_lsb (neg : Bool) {mag : ℕ} (h : mag < 2 ^ 31) : (pack neg mag).getLsbD 0 = decide (mag % 2 = 1) := by
  rw [BitVec.getLsbD, Nat.testBit_eq_decide_div_mod_eq, pack_toNat neg h]
  congr 1
  apply propext
  cases neg
  · simp
  · simp; omega

/-- Every finite word is the pack of its sign and its magnitude pattern. -/
theorem unpack_finite {w : Word} {neg : Bool} {k : ℕ} (h : unpack w = .fin neg k) :
    ∃ mag < infPattern, w = pack neg mag ∧ k = unitsOf mag := by
  have hlt := w.isLt
  refine ⟨w.toNat % 2 ^ 31, ?_, ?_, ?_⟩
  · simp only [unpack] at h
    split at h
    · split at h
      · cases h
      · cases h
    · show w.toNat % 2 ^ 31 < 2139095040
      omega
  · have hn : neg = decide (2 ^ 31 ≤ w.toNat) := by
      simp only [unpack] at h
      split at h
      · split at h <;> cases h
      · split at h
        · cases h; rfl
        · cases h; rfl
    apply BitVec.eq_of_toNat_eq
    rw [pack_toNat _ (Nat.mod_lt _ (by norm_num)), hn]
    by_cases hc : 2 ^ 31 ≤ w.toNat
    · simp only [hc, decide_true, if_true]; omega
    · simp only [hc, decide_false]; simp; omega
  · simp only [unpack] at h
    split at h
    · split at h <;> cases h
    · rename_i h255
      split at h
      · rename_i h0; cases h; simp only [unitsOf]; rw [if_pos h0]
      · rename_i h0; cases h; simp only [unitsOf]; rw [if_neg h0]

theorem isFinite_iff (w : Word) : isFinite w = true ↔ ∃ neg k, unpack w = .fin neg k := by
  unfold isFinite
  cases h : unpack w <;> simp

theorem wordReal_pack (neg : Bool) {mag : ℕ} (h : mag < infPattern) :
    wordReal (pack neg mag) = (if neg then -1 else 1) * (unitsOf mag : ℝ) / 2 ^ 149 := by
  simp only [wordReal, unpack_pack neg h, Num.toReal, signedUnits]
  cases neg <;> simp

/-- A binade's patterns: significand m, unit in the last place 2^e. -/
theorem unitsOf_binade {e m : ℕ} (h : (e = 0 ∧ m ≤ 2 ^ 24) ∨ (2 ^ 23 ≤ m ∧ m ≤ 2 ^ 24)) :
    unitsOf (e * 2 ^ 23 + m) = m * 2 ^ e := by
  simp only [unitsOf]
  by_cases hm : m < 2 ^ 23
  · have he : e = 0 := by omega
    subst he
    rw [if_pos (by omega)]
    simp; omega
  · by_cases hm' : m = 2 ^ 24
    · subst hm'
      have h1 : (e * 2 ^ 23 + 2 ^ 24) / 2 ^ 23 = e + 2 := by omega
      have h2 : (e * 2 ^ 23 + 2 ^ 24) % 2 ^ 23 = 0 := by omega
      rw [h1, h2, if_neg (by omega)]
      rw [show e + 2 - 1 = e + 1 by omega, pow_succ]
      ring
    · have h1 : (e * 2 ^ 23 + m) / 2 ^ 23 = e + 1 := by omega
      have h2 : (e * 2 ^ 23 + m) % 2 ^ 23 = m - 2 ^ 23 := by omega
      rw [h1, h2, if_neg (by omega), show e + 1 - 1 = e by omega, show 2 ^ 23 + (m - 2 ^ 23) = m by omega]

/-- At or above 2^(e+23) units every finite magnitude is a whole number of 2^e units. -/
theorem unitsOf_multiple (mag e : ℕ) (h : e = 0 ∨ 2 ^ (e + 23) ≤ unitsOf mag) : ∃ j, unitsOf mag = j * 2 ^ e := by
  rcases h with rfl | h
  · exact ⟨unitsOf mag, by simp⟩
  · simp only [unitsOf] at h ⊢
    split at h
    · have : 2 ^ 23 ≤ 2 ^ (e + 23) := Nat.pow_le_pow_right (by norm_num) (by omega)
      omega
    · rename_i h0
      rw [if_neg h0]
      set b := mag / 2 ^ 23 - 1
      have hlt : 2 ^ 23 + mag % 2 ^ 23 < 2 ^ 24 := by omega
      have hb : e ≤ b := by
        by_contra hb
        have h1 : (2 ^ 23 + mag % 2 ^ 23) * 2 ^ b < 2 ^ 24 * 2 ^ b := by gcongr
        have h2 : 2 ^ 24 * 2 ^ b ≤ 2 ^ (e + 23) := by
          rw [← pow_add]; exact Nat.pow_le_pow_right (by norm_num) (by omega)
        omega
      exact ⟨(2 ^ 23 + mag % 2 ^ 23) * 2 ^ (b - e), by rw [mul_assoc, ← pow_add]; congr 2; omega⟩

/-- `roundHalfEven` is a nearest whole number. -/
theorem roundHalfEven_near (a b : ℕ) (hb : 0 < b) :
    |(roundHalfEven a b : ℝ) - (a : ℝ) / b| ≤ 1 / 2 ∧
      (|(roundHalfEven a b : ℝ) - (a : ℝ) / b| = 1 / 2 → roundHalfEven a b % 2 = 0) := by
  have hb' : (0 : ℝ) < b := by exact_mod_cast hb
  have hdiv := Nat.div_add_mod a b
  have hmod := Nat.mod_lt a hb
  simp only [roundHalfEven]
  set q := a / b
  set r := a % b
  have ha : (a : ℝ) = b * q + r := by exact_mod_cast hdiv.symm
  have hr0 : (0 : ℝ) ≤ r := by positivity
  split
  · rename_i hc
    have e : ((q + 1 : ℕ) : ℝ) - (a : ℝ) / b = 1 - r / b := by rw [ha]; push_cast; field_simp; ring
    have h1 : (b : ℝ) ≤ 2 * r := by
      rcases hc with h | h
      · exact_mod_cast h.le
      · exact_mod_cast h.1.ge
    have h2 : (r : ℝ) < b := by exact_mod_cast hmod
    have h3 : (r : ℝ) / b < 1 := by rw [div_lt_one hb']; exact h2
    have h4 : 1 / 2 ≤ (r : ℝ) / b := by rw [div_le_div_iff₀ two_pos hb']; linarith
    rw [e, abs_of_nonneg (by linarith)]
    refine ⟨by linarith, fun h => ?_⟩
    have h5 : (r : ℝ) / b = 1 / 2 := by linarith
    rw [div_eq_div_iff hb'.ne' two_ne_zero] at h5
    have h6 : 2 * r = b := by have : (r : ℝ) * 2 = 1 * b := h5; have : r * 2 = 1 * b := by exact_mod_cast this
                              omega
    omega
  · rename_i hc
    have e : ((q : ℕ) : ℝ) - (a : ℝ) / b = -(r / b) := by rw [ha]; field_simp; ring
    have h1 : 2 * (r : ℝ) ≤ b := by
      have : 2 * r ≤ b := by omega
      exact_mod_cast this
    have h4 : (r : ℝ) / b ≤ 1 / 2 := by rw [div_le_div_iff₀ hb' two_pos]; linarith
    rw [e, abs_neg, abs_of_nonneg (by positivity)]
    refine ⟨h4, fun h => ?_⟩
    rw [div_eq_div_iff hb'.ne' two_ne_zero] at h
    have h6 : 2 * r = b := by have : r * 2 = 1 * b := by exact_mod_cast h
                              omega
    omega

/-- Another whole number is no nearer, and as near only on a tie. -/
theorem nearest_int {m j : ℤ} {x : ℝ} (hm : |(m : ℝ) - x| ≤ 1 / 2) :
    |(m : ℝ) - x| ≤ |(j : ℝ) - x| ∧ (|(j : ℝ) - x| = |(m : ℝ) - x| → j ≠ m → |(m : ℝ) - x| = 1 / 2) := by
  by_cases h : j = m
  · subst h; exact ⟨le_rfl, fun _ h => absurd rfl h⟩
  · have h1 : (1 : ℝ) ≤ |(j : ℝ) - m| := by exact_mod_cast Int.one_le_abs (sub_ne_zero.mpr h)
    have h2 : |(j : ℝ) - m| ≤ |(j : ℝ) - x| + |(m : ℝ) - x| := by
      have := abs_sub_le (j : ℝ) x m
      rwa [abs_sub_comm x (m : ℝ)] at this
    exact ⟨by linarith, fun he _ => by linarith⟩

/-- The shift of a magnitude: below 2^24 units none, else the one that leaves 24 significant bits. -/
theorem ulpShift_spec (q : ℕ) :
    (ulpShift q = 0 ∧ q < 2 ^ 24) ∨ (1 ≤ ulpShift q ∧ 2 ^ (ulpShift q + 23) ≤ q ∧ q < 2 ^ (ulpShift q + 24)) := by
  simp only [ulpShift]
  split
  · left; exact ⟨rfl, by assumption⟩
  · rename_i h
    right
    have hq : q ≠ 0 := by omega
    have h24 : 24 ≤ q.log2 := (Nat.le_log2 hq).mpr (by omega)
    refine ⟨by omega, ?_, ?_⟩
    · rw [show q.log2 - 23 + 23 = q.log2 by omega]; exact Nat.log2_self_le hq
    · rw [show q.log2 - 23 + 24 = q.log2 + 1 by omega]; exact Nat.lt_log2_self

/-- The rounded significand lies in its binade (its upper end included). -/
theorem roundHalfEven_range {a b lo hi : ℕ} (hb : 0 < b) (h1 : lo * b ≤ a) (h2 : a < hi * b) :
    lo ≤ roundHalfEven a b ∧ roundHalfEven a b ≤ hi := by
  have h3 : lo ≤ a / b := (Nat.le_div_iff_mul_le hb).mpr h1
  have h4 : a / b < hi := (Nat.div_lt_iff_lt_mul hb).mpr h2
  simp only [roundHalfEven]
  split <;> omega

/-- What the two halves of a pattern are, before the overflow to infinity. -/
theorem pattern_parts (num den : ℕ) (hd : 0 < den) :
    (ulpShift (num / den) = 0 ∧ roundHalfEven num (den * 2 ^ ulpShift (num / den)) ≤ 2 ^ 24) ∨
      (1 ≤ ulpShift (num / den) ∧ 2 ^ 23 ≤ roundHalfEven num (den * 2 ^ ulpShift (num / den)) ∧
        roundHalfEven num (den * 2 ^ ulpShift (num / den)) ≤ 2 ^ 24 ∧ 2 ^ (ulpShift (num / den) + 23) * den ≤ num) := by
  have hb : 0 < den * 2 ^ ulpShift (num / den) := by positivity
  rcases ulpShift_spec (num / den) with ⟨h0, hq⟩ | ⟨h1, hlo, hhi⟩
  · left
    refine ⟨h0, ?_⟩
    rw [h0]
    simp only [pow_zero, mul_one]
    exact (roundHalfEven_range (lo := 0) hd (by simp) ((Nat.div_lt_iff_lt_mul hd).mp hq)).2
  · right
    have hlo' := (Nat.le_div_iff_mul_le hd).mp hlo
    have hhi' := (Nat.div_lt_iff_lt_mul hd).mp hhi
    have h := roundHalfEven_range (lo := 2 ^ 23) (hi := 2 ^ 24) hb (a := num)
      (by rw [pow_add] at hlo'; linarith) (by rw [pow_add] at hhi'; linarith)
    exact ⟨h1, h.1, h.2, hlo'⟩

/-- A whole number m next to a/b = q + r/b, rounded half to even, reaches 2^24 from 2^24 − 1/2 on. -/
theorem top_of_parts {a b q r m : ℕ} (hdiv : b * q + r = a)
    (h1 : 16777216 ≤ q ↔ 16777216 * b ≤ a) (h2 : 16777215 ≤ q ↔ 16777215 * b ≤ a)
    (hm : (m = q + 1 ∧ (b < 2 * r ∨ 2 * r = b ∧ q % 2 = 1)) ∨ (m = q ∧ ¬(b < 2 * r ∨ 2 * r = b ∧ q % 2 = 1))) :
    16777216 ≤ m ↔ 33554431 * b ≤ 2 * a := by
  by_cases hq : q = 16777215
  · have hbq : b * q = b * 16777215 := by rw [hq]
    rw [hbq] at hdiv
    clear h1 h2 hbq
    rcases hm with ⟨hm, hc | ⟨hc, -⟩⟩ | ⟨hm, hc⟩
    · exact ⟨fun _ => by linarith, fun _ => by linarith⟩
    · exact ⟨fun _ => by linarith, fun _ => by linarith⟩
    · have hc' : 2 * r < b := by
        by_contra hlt
        rcases Nat.lt_or_eq_of_le (not_lt.mp hlt) with h | h
        · exact hc (.inl h)
        · exact hc (.inr ⟨h.symm, by rw [hq]⟩)
      exact ⟨fun h => by linarith, fun h => by linarith⟩
  · have hlow : q < 16777215 ∨ 16777216 ≤ q := by clear * - hq; omega
    have hmq : m = q ∨ m = q + 1 := by
      rcases hm with ⟨hm, -⟩ | ⟨hm, -⟩
      · exact .inr hm
      · exact .inl hm
    clear hm
    rcases hlow with h | h
    · have h3 : ¬ 16777215 * b ≤ a := fun hc => not_le.mpr h (h2.mpr hc)
      clear h1 h2 hdiv
      exact ⟨fun _ => by omega, fun _ => by omega⟩
    · have h3 := h1.mp h
      clear h1 h2 hdiv
      exact ⟨fun _ => by omega, fun _ => by omega⟩

/-- When the rounded quotient reaches 2^24. -/
theorem roundHalfEven_top (a b : ℕ) (hb : 0 < b) : 16777216 ≤ roundHalfEven a b ↔ 33554431 * b ≤ 2 * a := by
  refine top_of_parts (Nat.div_add_mod a b) (Nat.le_div_iff_mul_le hb) (Nat.le_div_iff_mul_le hb) ?_
  simp only [roundHalfEven]
  by_cases hc : b < 2 * (a % b) ∨ 2 * (a % b) = b ∧ a / b % 2 = 1
  · exact .inl ⟨if_pos hc, hc⟩
  · exact .inr ⟨if_neg hc, hc⟩

/-- The bound past which a magnitude of num/den units rounds to an infinity. -/
theorem roundPattern_overflow (num den : ℕ) (hd : 0 < den) :
    (2 ^ 25 - 1) * 2 ^ 252 * den ≤ num ↔
      infPattern ≤ ulpShift (num / den) * 2 ^ 23 + roundHalfEven num (den * 2 ^ ulpShift (num / den)) := by
  have hinf : infPattern = 255 * 2 ^ 23 := rfl
  rw [hinf]
  have hparts := pattern_parts num den hd
  have hspec := ulpShift_spec (num / den)
  generalize ulpShift (num / den) = e at hparts hspec
  have htop := roundHalfEven_top num (den * 2 ^ e) (by positivity)
  have hbig : e = 253 → (33554431 * (den * 2 ^ e) ≤ 2 * num ↔ (2 ^ 25 - 1) * 2 ^ 252 * den ≤ num) := by
    rintro rfl
    have e1 : 33554431 * (den * 2 ^ 253) = 2 * ((2 ^ 25 - 1) * 2 ^ 252 * den) := by
      rw [show 253 = 252 + 1 by rfl, pow_succ]; ring
    rw [e1]
    exact Nat.mul_le_mul_left_iff two_pos
  have hlow : e ≤ 252 → num / den < (2 ^ 25 - 1) * 2 ^ 252 := by
    intro he
    have h1 : 2 ^ (e + 24) ≤ 2 ^ (252 + 24) := Nat.pow_le_pow_right two_pos (Nat.add_le_add_right he 24)
    have h2 : 2 ^ (252 + 24) ≤ (2 ^ 25 - 1) * 2 ^ 252 := by
      rw [Nat.add_comm, pow_add]; exact Nat.mul_le_mul_right _ (by norm_num)
    have h3 : num / den < 2 ^ (e + 24) := by
      rcases hspec with ⟨-, hq⟩ | ⟨-, -, hq⟩
      · exact hq.trans_le (Nat.pow_le_pow_right two_pos (Nat.le_add_left _ _))
      · exact hq
    exact h3.trans_le (h1.trans h2)
  have hhigh : 254 ≤ e → (2 ^ 25 - 1) * 2 ^ 252 * den ≤ num := by
    intro he
    rcases hspec with ⟨h0, -⟩ | ⟨-, hq, -⟩
    · exact absurd h0 (by clear * - he; omega)
    · have h1 : 2 ^ (254 + 23) ≤ 2 ^ (e + 23) := Nat.pow_le_pow_right two_pos (Nat.add_le_add_right he 23)
      have h2 : (2 ^ 25 - 1) * 2 ^ 252 ≤ 2 ^ (254 + 23) := by
        rw [show 254 + 23 = 25 + 252 by rfl, pow_add]; exact Nat.mul_le_mul_right _ (by norm_num)
      exact (Nat.mul_le_mul_right _ (h2.trans h1)).trans ((Nat.le_div_iff_mul_le hd).mp hq)
  generalize roundHalfEven num (den * 2 ^ e) = m at hparts htop
  rcases Nat.lt_trichotomy e 253 with he | he | he
  · have h1 : ¬ (2 ^ 25 - 1) * 2 ^ 252 * den ≤ num := fun h =>
      absurd ((Nat.le_div_iff_mul_le hd).mpr h) (not_le.mpr (hlow (Nat.le_of_lt_succ he)))
    have h2 : ¬ 255 * 2 ^ 23 ≤ e * 2 ^ 23 + m := by
      clear * - he hparts
      rcases hparts with ⟨h0, hm⟩ | ⟨h1, hm1, hm2, hlo⟩ <;> omega
    exact ⟨fun h => absurd h h1, fun h => absurd h h2⟩
  · rw [← hbig he, ← htop, he]
    clear * -
    omega
  · have h2 : 255 * 2 ^ 23 ≤ e * 2 ^ 23 + m := by
      clear * - he hparts
      rcases hparts with ⟨h0, hm⟩ | ⟨h1, hm1, hm2, hlo⟩ <;> omega
    exact ⟨fun _ => h2, fun _ => hhigh he⟩

/-- Distances in units are distances of values, scaled. -/
theorem abs_units (neg : Bool) (n q : ℝ) :
    |(if neg then -1 else 1) * n / 2 ^ 149 - (if neg then -1 else 1) * q / 2 ^ 149| = |n - q| / 2 ^ 149 := by
  have : (if neg then (-1 : ℝ) else 1) * n / 2 ^ 149 - (if neg then -1 else 1) * q / 2 ^ 149 =
      (if neg then -1 else 1) * ((n - q) / 2 ^ 149) := by ring
  rw [this, abs_mul, abs_div, abs_of_pos (by positivity : (0 : ℝ) < 2 ^ 149)]
  cases neg <;> simp

/-- `roundTo` rounds the nonzero exact value ±num/den·2^-149 once, to nearest, ties to even (rule R10). -/
theorem roundTo_rounds (neg : Bool) (num den : ℕ) (hn : 0 < num) (hd : 0 < den) :
    RoundsTo ((if neg then -1 else 1) * ((num : ℝ) / den) / 2 ^ 149) (roundTo neg num den) := by
  have hd' : (0 : ℝ) < den := by exact_mod_cast hd
  have hn' : (0 : ℝ) < num := by exact_mod_cast hn
  set q : ℝ := (num : ℝ) / den with hqdef
  have hq : 0 < q := by positivity
  set x : ℝ := (if neg then -1 else 1) * q / 2 ^ 149 with hx
  have hxabs : |x| = q / 2 ^ 149 := by
    rw [hx, abs_div, abs_mul, abs_of_pos hq, abs_of_pos (by positivity : (0 : ℝ) < 2 ^ 149)]
    cases neg <;> simp
  have hover := roundPattern_overflow num den hd
  have hbound : overflowBound ≤ |x| ↔ (2 ^ 25 - 1) * 2 ^ 252 * den ≤ num := by
    rw [hxabs, overflowBound, le_div_iff₀ (by positivity), hqdef, le_div_iff₀ hd']
    rw [show ((2 : ℝ) ^ 128 - 2 ^ 103) * 2 ^ 149 = (2 ^ 25 - 1) * 2 ^ 252 by ring]
    rw [← Nat.cast_le (α := ℝ)]
    push_cast
    norm_num
  have hparts := pattern_parts num den hd
  simp only [roundTo, roundPattern]
  set e := ulpShift (num / den)
  set m := roundHalfEven num (den * 2 ^ e) with hm
  have hb : 0 < den * 2 ^ e := by positivity
  have hp31 : min (e * 2 ^ 23 + m) infPattern < 2 ^ 31 := lt_of_le_of_lt (min_le_right _ _) (by decide)
  have hsign : signBit (pack neg (min (e * 2 ^ 23 + m) infPattern)) = neg := signBit_pack neg hp31
  have hnegx : neg = true ↔ x < 0 := by
    rw [hx]
    cases neg
    · simp; positivity
    · simp only [true_iff, if_true]
      have : 0 < q / 2 ^ 149 := by positivity
      have e' : (-1 : ℝ) * q / 2 ^ 149 = -(q / 2 ^ 149) := by ring
      rw [e']; linarith
  -- the finite case: the word, its units, and every other finite word
  have hfin : |x| < overflowBound →
      e * 2 ^ 23 + m < infPattern ∧ unitsOf (e * 2 ^ 23 + m) = m * 2 ^ e := by
    intro h
    have h1 : ¬ infPattern ≤ e * 2 ^ 23 + m := fun hc => absurd (hbound.mpr (hover.mpr hc)) (not_le.mpr h)
    refine ⟨not_le.mp h1, unitsOf_binade ?_⟩
    rcases hparts with ⟨h0, hm'⟩ | ⟨-, hm1, hm2, -⟩
    · exact .inl ⟨h0, hm'⟩
    · exact .inr ⟨hm1, hm2⟩
  have hnear := roundHalfEven_near num (den * 2 ^ e) hb
  rw [← hm] at hnear
  have hscale : (num : ℝ) / ((den * 2 ^ e : ℕ) : ℝ) = q / 2 ^ e := by
    rw [hqdef, div_div]; push_cast; ring
  rw [hscale] at hnear
  have he0 : (0 : ℝ) < 2 ^ e := by positivity
  -- every finite magnitude n: no nearer than m·2^e, and as near only on a tie, where m is even
  have hmag : ∀ mag, |(m : ℝ) * 2 ^ e - q| ≤ |(unitsOf mag : ℝ) - q| ∧
      (|(unitsOf mag : ℝ) - q| = |(m : ℝ) * 2 ^ e - q| → unitsOf mag ≠ m * 2 ^ e → m % 2 = 0) := by
    intro mag
    have hscaled : ∀ j : ℝ, |j * 2 ^ e - q| = |j - q / 2 ^ e| * 2 ^ e := by
      intro j
      rw [← abs_of_pos he0, ← abs_mul, abs_of_pos he0]; congr 1; field_simp
    by_cases hlow : 1 ≤ e ∧ unitsOf mag < 2 ^ (e + 23)
    · -- below the binade: farther than the binade's first value
      obtain ⟨h1, hlt⟩ := hlow
      obtain ⟨-, -, -, hlo⟩ : 1 ≤ e ∧ 2 ^ 23 ≤ m ∧ m ≤ 2 ^ 24 ∧ 2 ^ (e + 23) * den ≤ num := by
        rcases hparts with ⟨h0, -⟩ | h
        · omega
        · exact h
      have hqlo : (2 : ℝ) ^ (e + 23) ≤ q := by
        rw [hqdef, le_div_iff₀ hd']; exact_mod_cast hlo
      have hn1 : (unitsOf mag : ℝ) < 2 ^ (e + 23) := by exact_mod_cast hlt
      have hfirst : |(m : ℝ) * 2 ^ e - q| ≤ |(2 : ℝ) ^ 23 * 2 ^ e - q| := by
        rw [hscaled, hscaled]
        have := (nearest_int (m := (m : ℤ)) (j := 2 ^ 23) (x := q / 2 ^ e) (by exact_mod_cast hnear.1)).1
        simp only [Int.cast_natCast, Int.cast_pow, Int.cast_ofNat] at this
        exact mul_le_mul_of_nonneg_right this he0.le
      have hfirst' : |(2 : ℝ) ^ 23 * 2 ^ e - q| = q - 2 ^ (e + 23) := by
        rw [← pow_add, show 23 + e = e + 23 by ring, abs_sub_comm, abs_of_nonneg (by linarith)]
      have hother : |(unitsOf mag : ℝ) - q| = q - unitsOf mag := by
        rw [abs_sub_comm, abs_of_nonneg (by linarith)]
      rw [hfirst'] at hfirst
      rw [hother]
      exact ⟨by linarith, fun h => by linarith⟩
    · obtain ⟨j, hj⟩ := unitsOf_multiple mag e (by omega)
      rw [hj]
      push_cast
      rw [hscaled, hscaled]
      have hnj := nearest_int (m := (m : ℤ)) (j := (j : ℤ)) (x := q / 2 ^ e) (by exact_mod_cast hnear.1)
      push_cast at hnj
      refine ⟨mul_le_mul_of_nonneg_right hnj.1 he0.le, fun h hne => hnear.2 (hnj.2 ?_ ?_)⟩
      · exact mul_right_cancel₀ he0.ne' h
      · intro hc
        apply hne
        have : j = m := by exact_mod_cast hc
        rw [this]
  have hword : |x| < overflowBound → min (e * 2 ^ 23 + m) infPattern = e * 2 ^ 23 + m :=
    fun h => min_eq_left (hfin h).1.le
  have hval : |x| < overflowBound →
      wordReal (pack neg (min (e * 2 ^ 23 + m) infPattern)) = (if neg then -1 else 1) * ((m : ℝ) * 2 ^ e) / 2 ^ 149 := by
    intro h
    rw [hword h, wordReal_pack neg (hfin h).1, (hfin h).2]
    push_cast; rfl
  -- a finite word of the other sign is no nearer than the zero of this sign
  have hwords : ∀ v, isFinite v = true →
      ∃ mag, |wordReal v - x| ≥ |(unitsOf mag : ℝ) - q| / 2 ^ 149 ∧
        (|wordReal v - x| = |(unitsOf mag : ℝ) - q| / 2 ^ 149 → wordReal v = (if neg then -1 else 1) * (unitsOf mag : ℝ) / 2 ^ 149) := by
    intro v hv
    obtain ⟨sgn, k, hu⟩ := (isFinite_iff v).mp hv
    obtain ⟨mag, hmlt, rfl, -⟩ := unpack_finite hu
    by_cases hs : sgn = neg
    · subst hs
      refine ⟨mag, ?_, fun _ => wordReal_pack _ hmlt⟩
      rw [wordReal_pack _ hmlt, hx, abs_units]
    · refine ⟨0, ?_, ?_⟩
      all_goals
        have hopp : wordReal (pack sgn mag) - x = (if sgn then -1 else 1) * (((unitsOf mag : ℝ) + q) / 2 ^ 149) := by
          rw [wordReal_pack _ hmlt, hx]
          cases sgn <;> cases neg <;> simp at hs ⊢ <;> ring
        have habs : |wordReal (pack sgn mag) - x| = ((unitsOf mag : ℝ) + q) / 2 ^ 149 := by
          rw [hopp, abs_mul, abs_of_nonneg (by positivity : (0 : ℝ) ≤ ((unitsOf mag : ℝ) + q) / 2 ^ 149)]
          cases sgn <;> simp
        have hz : |((unitsOf 0 : ℕ) : ℝ) - q| = q := by
          simp [unitsOf, abs_of_pos hq]
        rw [habs, hz]
      · have : (0 : ℝ) ≤ unitsOf mag := by positivity
        gcongr; linarith
      · intro h
        rw [div_left_inj' (by positivity)] at h
        have h0 : (unitsOf mag : ℝ) = 0 := by linarith
        rw [wordReal_pack _ hmlt, h0]
        simp [unitsOf]
  refine ⟨by rw [hsign]; exact hnegx, ?_, ?_, ?_, ?_⟩
  · intro h
    have : infPattern ≤ e * 2 ^ 23 + m := hover.mp (hbound.mp h)
    rw [hsign, min_eq_right this]; rfl
  · intro h
    rw [hword h, isFinite_iff]
    exact ⟨_, _, unpack_pack neg (hfin h).1⟩
  · intro h v hv
    obtain ⟨mag, h1, -⟩ := hwords v hv
    rw [hval h, hx, abs_units]
    exact le_trans (div_le_div_of_nonneg_right (hmag mag).1 (by positivity)) h1
  · intro h v hv heq hne
    obtain ⟨mag, h1, h2⟩ := hwords v hv
    rw [hval h] at hne
    rw [hval h, hx, abs_units, ← hx] at heq
    have hle : |(m : ℝ) * 2 ^ e - q| / 2 ^ 149 ≤ |(unitsOf mag : ℝ) - q| / 2 ^ 149 :=
      div_le_div_of_nonneg_right (hmag mag).1 (by positivity)
    have heq' : |(unitsOf mag : ℝ) - q| / 2 ^ 149 = |(m : ℝ) * 2 ^ e - q| / 2 ^ 149 := le_antisymm (heq ▸ h1) hle
    have hv' := h2 (by rw [heq, heq'])
    rw [div_left_inj' (by positivity)] at heq'
    have hmeven := (hmag mag).2 heq' (fun hc => hne (by rw [hv', hc]; push_cast; ring))
    rw [hword h, pack_lsb neg ((hfin h).1.trans (by decide))]
    simp only [decide_eq_false_iff_not]
    omega

/-- An exact zero rounds to the zero of its sign. -/
theorem roundTo_zero (neg : Bool) (den : ℕ) : roundTo neg 0 den = pack neg 0 := by
  have : ulpShift 0 = 0 := by decide
  simp [roundTo, roundPattern, this, roundHalfEven]

end Sys2Proof.Machine
end

