-- ==== Sys2Proof/Laws/Arith.lean ====
section
/-! SUPPORT. Binary32 arithmetic (00_scope.md rule R10) where its result needs no rounding: a word is its own rounding,
and zero and one as operands. -/

namespace Sys2Proof.Machine

theorem roundHalfEven_scale (a b c : ℕ) (hc : 0 < c) : roundHalfEven (a * c) (b * c) = roundHalfEven a b := by
  unfold roundHalfEven
  rw [Nat.mul_div_mul_right _ _ hc, Nat.mul_mod_mul_right]
  have h1 : (b * c < 2 * (a % b * c)) ↔ b < 2 * (a % b) := by
    rw [← Nat.mul_assoc]; exact Nat.mul_lt_mul_right hc
  have h2 : (2 * (a % b * c) = b * c) ↔ 2 * (a % b) = b := by
    rw [← Nat.mul_assoc]; exact Nat.mul_left_inj hc.ne'
  simp only [h1, h2]

theorem roundPattern_scale (a b c : ℕ) (hc : 0 < c) : roundPattern (a * c) (b * c) = roundPattern a b := by
  unfold roundPattern
  dsimp only
  rw [Nat.mul_div_mul_right _ _ hc, show b * c * 2 ^ ulpShift (a / b) = b * 2 ^ ulpShift (a / b) * c by ring,
    roundHalfEven_scale _ _ _ hc]

/-- A finite pattern is its own rounding. -/
theorem roundPattern_unitsOf {mag : ℕ} (h : mag < infPattern) : roundPattern (unitsOf mag) 1 = mag := by
  have hinf : infPattern = 255 * 2 ^ 23 := rfl
  rw [hinf] at h
  unfold roundPattern
  dsimp only
  rw [Nat.div_one, Nat.one_mul, hinf]
  by_cases he : mag < 2 ^ 24
  · have hu : unitsOf mag = mag := by
      have := unitsOf_binade (e := 0) (m := mag) (Or.inl ⟨rfl, he.le⟩)
      simpa using this
    rw [hu]
    have : ulpShift mag = 0 := by rw [ulpShift, if_pos he]
    rw [this]
    simp [roundHalfEven, Nat.mod_one]
    omega
  · have hm : mag = (mag / 2 ^ 23 - 1) * 2 ^ 23 + (2 ^ 23 + mag % 2 ^ 23) := by
      have := Nat.div_add_mod mag (2 ^ 23)
      have h2 : 2 ≤ mag / 2 ^ 23 := by omega
      omega
    set e := mag / 2 ^ 23 - 1
    set m := 2 ^ 23 + mag % 2 ^ 23 with hmm
    have hmlt : m < 2 ^ 24 := by omega
    have hu : unitsOf mag = m * 2 ^ e := by rw [hm]; exact unitsOf_binade (Or.inr ⟨by omega, hmlt.le⟩)
    have he1 : 1 ≤ e := by omega
    have hlog : (m * 2 ^ e).log2 = e + 23 := by
      rw [Nat.log2_eq_iff (by positivity)]
      constructor
      · rw [pow_add, Nat.mul_comm]; exact Nat.mul_le_mul_right _ (by omega)
      · rw [show e + 23 + 1 = 24 + e by ring, pow_add]; exact Nat.mul_lt_mul_of_pos_right hmlt (by positivity)
    have hs : ulpShift (m * 2 ^ e) = e := by
      unfold ulpShift
      rw [if_neg, hlog]; · omega
      have h1 : 2 ^ 23 * 2 ^ 1 ≤ m * 2 ^ e := Nat.mul_le_mul (by omega) (Nat.pow_le_pow_right (by norm_num) he1)
      omega
    rw [hu, hs]
    have hr : roundHalfEven (m * 2 ^ e) (2 ^ e) = m := by
      have := roundHalfEven_scale m 1 (2 ^ e) (by positivity)
      rw [Nat.one_mul] at this
      rw [this]; simp [roundHalfEven, Nat.mod_one]
    rw [hr, ← hm]
    omega

/-- A finite word is its own rounding. -/
theorem roundTo_word {w : Word} {neg : Bool} {k : ℕ} (h : unpack w = .fin neg k) (c : ℕ) (hc : 0 < c) :
    roundTo neg (k * c) c = w := by
  obtain ⟨mag, hm, rfl, rfl⟩ := unpack_finite h
  have := roundPattern_scale (unitsOf mag) 1 c hc
  rw [Nat.one_mul] at this
  rw [roundTo, this, roundPattern_unitsOf hm]

theorem eq_zero_of_units {w : Word} {neg : Bool} (h : unpack w = .fin neg 0) : w = pack neg 0 := by
  have := roundTo_word h 1 one_pos
  rw [Nat.zero_mul, roundTo_zero] at this
  exact this.symm

theorem unpack_zero (neg : Bool) : unpack (pack neg 0) = .fin neg 0 := by cases neg <;> decide

theorem isZero_iff (w : Word) : isZero w = true ↔ ∃ neg, w = pack neg 0 := by
  constructor
  · intro h
    unfold isZero at h
    cases hu : unpack w with
    | nan => rw [hu] at h; simp at h
    | inf s => rw [hu] at h; simp at h
    | fin s k =>
      rw [hu] at h
      simp only [decide_eq_true_eq] at h
      subst h
      exact ⟨s, eq_zero_of_units hu⟩
  · rintro ⟨neg, rfl⟩
    unfold isZero; rw [unpack_zero]; simp

/-- A finite value times a zero is a zero. -/
theorem mul32_zero {a b : Word} (ha : isFinite a = true) (hb : isZero b = true) : isZero (mul32 a b) = true := by
  obtain ⟨s, k, ha⟩ := (isFinite_iff a).1 ha
  obtain ⟨t, rfl⟩ := (isZero_iff b).1 hb
  rw [isZero_iff]
  exact ⟨s != t, by unfold mul32; rw [ha, unpack_zero]; simp only [Nat.mul_zero, roundTo_zero]⟩

theorem mul32_comm (a b : Word) : mul32 a b = mul32 b a := by
  unfold mul32
  cases unpack a <;> cases unpack b <;> simp [Nat.mul_comm, Bool.xor_comm]

/-- A finite value times 1.0 is itself. -/
theorem mul32_one {a : Word} (ha : isFinite a = true) : mul32 a 0x3F800000 = a := by
  obtain ⟨s, k, ha⟩ := (isFinite_iff a).1 ha
  have h1 : unpack 0x3F800000 = .fin false (2 ^ 149) := by decide
  unfold mul32
  rw [ha, h1]
  simp only [Bool.bne_false]
  exact roundTo_word ha _ (by positivity)

/-- Adding a zero changes neither a nonzero value nor +0. -/
theorem add32_zero_right {a b : Word} (ha : isFinite a = true) (hb : isZero b = true)
    (hn : isZero a = false ∨ a = 0x00000000) : add32 a b = a := by
  obtain ⟨s, k, ha⟩ := (isFinite_iff a).1 ha
  obtain ⟨t, rfl⟩ := (isZero_iff b).1 hb
  unfold add32
  rw [ha, unpack_zero]
  simp only
  have hz : signedUnits t 0 = 0 := by simp [signedUnits]
  rw [hz, Int.add_zero]
  unfold roundSum
  rcases hn with hn | rfl
  · have hk : k ≠ 0 := by rintro rfl; unfold isZero at hn; rw [ha] at hn; simp at hn
    have h0 : signedUnits s k ≠ 0 := by unfold signedUnits; split <;> omega
    rw [if_neg h0]
    have e1 : decide (signedUnits s k < 0) = s := by unfold signedUnits; cases s <;> simp; omega
    have e2 : (signedUnits s k).natAbs = k := by unfold signedUnits; cases s <;> simp
    rw [e1, e2]
    have := roundTo_word ha 1 one_pos
    rwa [Nat.mul_one] at this
  · have : unpack (0x00000000 : Word) = .fin false 0 := by decide
    rw [this] at ha
    cases ha
    simp [signedUnits, pack]

/-- Adding to +0 makes a −0 a +0 and changes nothing else. -/
theorem add32_zero_left {a : Word} (ha : isFinite a = true) :
    add32 0x00000000 a = if a = 0x80000000 then 0x00000000 else a := by
  obtain ⟨s, k, ha⟩ := (isFinite_iff a).1 ha
  have : unpack (0x00000000 : Word) = .fin false 0 := by decide
  unfold add32
  rw [ha, this]
  simp only
  have hz : signedUnits false 0 = 0 := by simp [signedUnits]
  rw [hz, Int.zero_add]
  unfold roundSum
  by_cases hk : k = 0
  · subst hk
    have := eq_zero_of_units ha
    subst this
    cases s <;> decide
  · have h0 : signedUnits s k ≠ 0 := by unfold signedUnits; split <;> omega
    rw [if_neg h0]
    have e1 : decide (signedUnits s k < 0) = s := by unfold signedUnits; cases s <;> simp; omega
    have e2 : (signedUnits s k).natAbs = k := by unfold signedUnits; cases s <;> simp
    rw [e1, e2, if_neg]
    · have := roundTo_word ha 1 one_pos
      rwa [Nat.mul_one] at this
    · rintro rfl
      have : unpack (0x80000000 : Word) = .fin true 0 := by decide
      rw [this] at ha; cases ha; exact hk rfl

/-- A positive integer up to 2 ^ 24 is converted exactly. -/
theorem unpack_toF32 (n : ℕ) (h0 : 0 < n) (h : n ≤ 2 ^ 24) : unpack (toF32 n) = .fin false (n * 2 ^ 149) := by
  have : ∃ mag < infPattern, unitsOf mag = n * 2 ^ 149 := by
    have hl := Nat.log2_self_le h0.ne'
    have hl2 : n < 2 ^ (n.log2 + 1) := Nat.lt_log2_self
    set q := n.log2
    have hq : q ≤ 24 := by
      by_contra hc
      have : 2 ^ 25 ≤ 2 ^ q := Nat.pow_le_pow_right (by norm_num) (by omega)
      omega
    by_cases hq24 : q = 24
    · refine ⟨(149 + 1) * 2 ^ 23 + 2 ^ 23, by decide, ?_⟩
      rw [unitsOf_binade (Or.inr ⟨le_rfl, by norm_num⟩)]
      rw [hq24] at hl
      have : n = 2 ^ 24 := by omega
      rw [this]; norm_num
    · refine ⟨(126 + q) * 2 ^ 23 + n * 2 ^ (23 - q), ?_, ?_⟩
      · have : infPattern = 255 * 2 ^ 23 := rfl
        have h3 : n * 2 ^ (23 - q) < 2 ^ (q + 1) * 2 ^ (23 - q) := Nat.mul_lt_mul_of_pos_right hl2 (by positivity)
        rw [← pow_add, show q + 1 + (23 - q) = 24 by omega] at h3
        omega
      · rw [unitsOf_binade (Or.inr ⟨?_, ?_⟩)]
        · rw [mul_assoc, ← pow_add]; congr 2; omega
        · have h3 := Nat.mul_le_mul_right (2 ^ (23 - q)) hl
          rw [← pow_add, show q + (23 - q) = 23 by omega] at h3
          exact h3
        · have h3 : n * 2 ^ (23 - q) < 2 ^ (q + 1) * 2 ^ (23 - q) := Nat.mul_lt_mul_of_pos_right hl2 (by positivity)
          rw [← pow_add, show q + 1 + (23 - q) = 24 by omega] at h3
          exact h3.le
  obtain ⟨mag, hm, hu⟩ := this
  have h1 : toF32 n = pack false mag := by
    unfold toF32 roundTo
    rw [Int.natAbs_natCast, ← hu, roundPattern_unitsOf hm, decide_eq_false (by omega)]
  rw [h1, unpack_pack _ hm, hu]

theorem pos_units : 0 < 2 ^ 149 := by decide

/-- A zero over a nonzero finite value. -/
theorem div32_zero_left {n : ℕ} {a b : Word} {s t : Bool} (ha : unpack a = .fin s 0) (hb : unpack b = .fin t n)
    (h : n ≠ 0) : div32 a b = pack (s != t) 0 := by
  unfold div32
  rw [ha, hb]
  dsimp only
  rw [if_neg h, Nat.zero_mul, roundTo_zero]

/-- Equal units round to one. -/
theorem roundTo_one {m c : ℕ} (hm : 0 < m) (hc : c = 2 ^ 149) : roundTo false (m * c) m = one32 := by
  have h1 : unpack one32 = .fin false c := by rw [hc]; decide
  have := roundTo_word h1 m hm
  rwa [Nat.mul_comm] at this

theorem div32_self {n : ℕ} {a : Word} (ha : unpack a = .fin false n) (h : n ≠ 0) : div32 a a = one32 := by
  unfold div32
  rw [ha]
  dsimp only
  rw [if_neg h]
  exact roundTo_one (Nat.pos_of_ne_zero h) rfl

end Sys2Proof.Machine
end

