-- ==== Sys2Proof/Laws/Decode.lean ====
section
/-! SUPPORT. The decoder and the encoder over the numbers in a word (30_encoding.md rules R80 to R85). -/

namespace Sys2Proof

@[simp] theorem opField_toNat (w : Word) : (opField w).toNat = w.toNat % 2 ^ 8 := by
  simp [opField, BitVec.extractLsb'_toNat]

@[simp] theorem rsvField_toNat (w : Word) : (rsvField w).toNat = w.toNat / 2 ^ 8 % 2 ^ 8 := by
  simp [rsvField, BitVec.extractLsb'_toNat, Nat.shiftRight_eq_div_pow]

@[simp] theorem countField_toNat (w : Word) : (countField w).toNat = w.toNat / 2 ^ 16 := by
  have := w.isLt
  simp only [countField, BitVec.extractLsb'_toNat, Nat.shiftRight_eq_div_pow]
  omega

theorem opField_eq_iff (w : Word) (n : Nat) (h : n < 2 ^ 8) : opField w = BitVec.ofNat 8 n ↔ w.toNat % 2 ^ 8 = n := by
  rw [← BitVec.toNat_inj, opField_toNat, BitVec.toNat_ofNat, Nat.mod_eq_of_lt h]

theorem rsvField_eq_zero_iff (w : Word) : rsvField w = 0 ↔ w.toNat / 2 ^ 8 % 2 ^ 8 = 0 := by
  rw [← BitVec.toNat_inj, rsvField_toNat]; rfl

theorem countField_eq_zero_iff (w : Word) : countField w = 0 ↔ w.toNat / 2 ^ 16 = 0 := by
  rw [← BitVec.toNat_inj, countField_toNat]; rfl

theorem opField_gt_iff (w : Word) : 0x06 < opField w ↔ 0x06 < w.toNat % 2 ^ 8 := by
  rw [BitVec.lt_def, opField_toNat]; rfl

/-- The decode of rule R83, over the numbers in the word. -/
theorem decode_eq (w : Word) :
    decode w =
      if w.toNat / 2 ^ 8 % 2 ^ 8 ≠ 0 then .error .reservedByte
      else if 0x06 < w.toNat % 2 ^ 8 then .error .unknownOpcode
      else if w.toNat % 2 ^ 8 ≠ 0x03 ∧ w.toNat / 2 ^ 16 ≠ 0 then .error .countNotZero
      else if w.toNat % 2 ^ 8 = 0x00 then .ok .nop
      else if w.toNat % 2 ^ 8 = 0x01 then .ok .design
      else if w.toNat % 2 ^ 8 = 0x02 then .ok .start
      else if w.toNat % 2 ^ 8 = 0x03 then .ok (.process (w.toNat / 2 ^ 16))
      else if w.toNat % 2 ^ 8 = 0x04 then .ok .flush
      else if w.toNat % 2 ^ 8 = 0x05 then .ok .abort
      else .ok .sreset := by
  unfold decode
  simp only [ne_eq, rsvField_eq_zero_iff, opField_gt_iff, countField_eq_zero_iff, countField_toNat,
    show opField w = 0x00 ↔ w.toNat % 2 ^ 8 = 0x00 from opField_eq_iff w 0 (by decide),
    show opField w = 0x01 ↔ w.toNat % 2 ^ 8 = 0x01 from opField_eq_iff w 1 (by decide),
    show opField w = 0x02 ↔ w.toNat % 2 ^ 8 = 0x02 from opField_eq_iff w 2 (by decide),
    show opField w = 0x03 ↔ w.toNat % 2 ^ 8 = 0x03 from opField_eq_iff w 3 (by decide),
    show opField w = 0x04 ↔ w.toNat % 2 ^ 8 = 0x04 from opField_eq_iff w 4 (by decide),
    show opField w = 0x05 ↔ w.toNat % 2 ^ 8 = 0x05 from opField_eq_iff w 5 (by decide)]

/-- The word of PROCESS n as a number. -/
theorem encode_process_toNat {n : Nat} (h : n < 2 ^ 16) : (encode (.process n)).toNat = n * 2 ^ 16 + 3 := by
  have h2 : n <<< 16 ||| 3 = n * 2 ^ 16 + 3 := by
    rw [Nat.shiftLeft_eq, Nat.mul_comm, ← Nat.two_pow_add_eq_or_of_lt (by decide : 3 < 2 ^ 16)]
  simp only [encode, BitVec.toNat_or, BitVec.toNat_shiftLeft, BitVec.toNat_ofNat]
  rw [Nat.mod_eq_of_lt (by omega : n < 2 ^ 32), Nat.mod_eq_of_lt (by rw [Nat.shiftLeft_eq]; omega : n <<< 16 < 2 ^ 32)]
  exact h2

/-- The word of a command as a number. -/
def commandNumber : Instr → Nat
  | .nop => 0
  | .design => 1
  | .start => 2
  | .process n => n * 2 ^ 16 + 3
  | .flush => 4
  | .abort => 5
  | .sreset => 6

/-- What a decoded word is, as a number. -/
theorem decode_ok_toNat {w : Word} {i : Instr} (h : decode w = .ok i) : w.toNat = commandNumber i := by
  rw [decode_eq] at h
  have := w.isLt
  repeat' (split at h)
  all_goals first | (cases h; done) | (cases h; simp only [commandNumber]; omega)

/-- An undecoded word is an illegal one (rule R85). -/
theorem decode_error_iff (w : Word) : (∃ e, decode w = .error e) ↔ Machine.illegalWord w := by
  rw [decode_eq]
  unfold Machine.illegalWord
  constructor
  · rintro ⟨e, h⟩
    repeat' (split at h)
    all_goals first | (cases h; done) | tauto
  · intro h
    split
    · exact ⟨_, rfl⟩
    · split
      · exact ⟨_, rfl⟩
      · split
        · exact ⟨_, rfl⟩
        · tauto

/-- A word with the number of a command is that command's word. -/
theorem word_of_toNat {w : Word} {n : Nat} (h : w.toNat = n) : w = BitVec.ofNat 32 n := by
  rw [← h, BitVec.ofNat_toNat, BitVec.setWidth_eq]

end Sys2Proof
end

