-- ==== Sys2Proof/Laws/Memory.lean ====
section
/-! SUPPORT. Read after write on a RAM, and that every write keeps the canonical form. -/

namespace Sys2Proof.Machine

@[simp] theorem readByte_nil (a : Nat) : Memory.readByte [] a = none := rfl

theorem readByte_cons (c : Host.Cell) (m : Memory) (a : Nat) :
    Memory.readByte (c :: m) a = if c.1 = a then some c.2 else Memory.readByte m a := rfl

theorem readByte_writeByte (m : Memory) (a b : Nat) (v : Byte) :
    (Memory.writeByte m a v).readByte b = if a = b then some v else m.readByte b := by
  induction m with
  | nil => simp [Memory.writeByte, Memory.readByte]
  | cons c rest ih =>
    simp only [Memory.writeByte]
    split
    · simp [readByte_cons]
    · split
      · rename_i h; subst h
        simp only [readByte_cons]
        split <;> simp
      · rename_i h1 h2
        simp only [readByte_cons, ih]
        by_cases hb : a = b
        · subst hb; simp [Ne.symm h2]
        · simp [hb]

@[simp] theorem readByte_writeByte_same (m : Memory) (a : Nat) (v : Byte) :
    (Memory.writeByte m a v).readByte a = some v := by simp [readByte_writeByte]

theorem readByte_writeByte_other (m : Memory) {a b : Nat} (v : Byte) (h : a ≠ b) :
    (Memory.writeByte m a v).readByte b = m.readByte b := by simp [readByte_writeByte, h]

/-- A word write reaches the four bytes at its address and no other. -/
theorem readByte_writeWord (m : Memory) (a b : Nat) (v : Word) :
    (m.writeWord a v).readByte b =
      if a ≤ b ∧ b < a + 4 then some (byteLane v (b - a)) else m.readByte b := by
  simp only [Memory.writeWord, readByte_writeByte]
  by_cases h : a ≤ b ∧ b < a + 4
  · obtain ⟨h1, h2⟩ := h
    obtain h | h | h | h : b = a ∨ b = a + 1 ∨ b = a + 2 ∨ b = a + 3 := by omega
    all_goals subst h; simp
  · rw [if_neg h]
    rw [if_neg (by omega), if_neg (by omega), if_neg (by omega), if_neg (by omega)]

theorem readByte_writeWord_other (m : Memory) {a b : Nat} (v : Word) (h : b < a ∨ a + 4 ≤ b) :
    (m.writeWord a v).readByte b = m.readByte b := by
  rw [readByte_writeWord, if_neg (by omega)]

@[simp] theorem wordOfLanes_byteLane (v : Word) :
    wordOfLanes (byteLane v 0) (byteLane v 1) (byteLane v 2) (byteLane v 3) = v := by
  simp only [wordOfLanes, byteLane]
  ext i hi
  simp only [BitVec.getElem_append, BitVec.getElem_extractLsb']
  split
  · simp [BitVec.getLsbD_eq_getElem hi]
  · split
    · rw [← BitVec.getLsbD_eq_getElem hi]; congr 1; omega
    · split
      · rw [← BitVec.getLsbD_eq_getElem hi]; congr 1; omega
      · rw [← BitVec.getLsbD_eq_getElem hi]; congr 1; omega

/-- Reading back the word just written. -/
@[simp] theorem readWord_writeWord_same (m : Memory) (u : Nat → Byte) (a : Nat) (v : Word) :
    (m.writeWord a v).readWord u a = v := by
  simp [Memory.readWord, readByte_writeWord]

/-- A word read depends on its four bytes alone. -/
theorem readWord_congr {m m' : Memory} {u u' : Nat → Byte} {a : Nat}
    (h : ∀ b, a ≤ b → b < a + 4 → (m.readByte b).getD (u b) = (m'.readByte b).getD (u' b)) :
    m.readWord u a = m'.readWord u' a := by
  simp only [Memory.readWord]
  rw [h a (by omega) (by omega), h (a + 1) (by omega) (by omega), h (a + 2) (by omega) (by omega),
    h (a + 3) (by omega) (by omega)]

/-- A word write leaves every word that does not overlap it. -/
theorem readWord_writeWord_other (m : Memory) (u : Nat → Byte) {a b : Nat} (v : Word) (h : b + 4 ≤ a ∨ a + 4 ≤ b) :
    (m.writeWord a v).readWord u b = m.readWord u b :=
  readWord_congr fun c h1 h2 => by rw [readByte_writeWord_other _ _ (by omega)]

/-- Word slots 4·i of one array do not overlap. -/
theorem readWord_writeWord_slot (m : Memory) (u : Nat → Byte) (base i j : Nat) (v : Word) :
    (m.writeWord (base + 4 * i) v).readWord u (base + 4 * j) = if i = j then v else m.readWord u (base + 4 * j) := by
  split
  · rename_i h; subst h; simp
  · exact readWord_writeWord_other _ _ _ (by omega)

theorem holdsWord_iff (m : Memory) (a : Nat) :
    m.holdsWord a = true ↔ ∀ b, a ≤ b → b < a + 4 → (m.readByte b).isSome = true := by
  simp only [Memory.holdsWord, Bool.and_eq_true]
  constructor
  · rintro ⟨⟨⟨h0, h1⟩, h2⟩, h3⟩ b hb1 hb2
    obtain h | h | h | h : b = a ∨ b = a + 1 ∨ b = a + 2 ∨ b = a + 3 := by omega
    all_goals subst h; assumption
  · intro h
    exact ⟨⟨⟨h _ (by omega) (by omega), h _ (by omega) (by omega)⟩, h _ (by omega) (by omega)⟩, h _ (by omega) (by omega)⟩

/-- Writing never unwrites a byte. -/
theorem isSome_readByte_writeWord (m : Memory) (a b : Nat) (v : Word) (h : (m.readByte b).isSome = true) :
    ((m.writeWord a v).readByte b).isSome = true := by
  rw [readByte_writeWord]; split <;> simp [h]

theorem holdsWord_writeWord_same (m : Memory) (a : Nat) (v : Word) : (m.writeWord a v).holdsWord a = true := by
  rw [holdsWord_iff]; intro b h1 h2; rw [readByte_writeWord, if_pos ⟨h1, h2⟩]; rfl

theorem holdsWord_writeWord (m : Memory) (a b : Nat) (v : Word) (h : m.holdsWord b = true) :
    (m.writeWord a v).holdsWord b = true := by
  rw [holdsWord_iff] at h ⊢
  exact fun c h1 h2 => isSome_readByte_writeWord _ _ _ _ (h c h1 h2)

/-- A written word does not depend on what unwritten bytes read as. -/
theorem readWord_of_holdsWord {m : Memory} {a : Nat} (h : m.holdsWord a = true) (u u' : Nat → Byte) :
    m.readWord u a = m.readWord u' a := by
  rw [holdsWord_iff] at h
  refine readWord_congr fun b h1 h2 => ?_
  obtain ⟨v, hv⟩ := Option.isSome_iff_exists.mp (h b h1 h2)
  simp [hv]

theorem wf_cons_iff (c : Host.Cell) (m : Memory) :
    Memory.wf (c :: m) = true ↔ (∀ d ∈ m.head?, c.1 < d.1) ∧ Memory.wf m = true := by
  cases m with
  | nil => simp [Memory.wf]
  | cons d rest => simp [Memory.wf]

theorem head_writeByte (m : Memory) (a : Nat) (v : Byte) :
    ∀ d ∈ (Memory.writeByte m a v).head?, d.1 = a ∨ ∃ e ∈ m.head?, d.1 = e.1 := by
  cases m with
  | nil => simp [Memory.writeByte]
  | cons c rest => simp only [Memory.writeByte]; split <;> [simp; skip]; split <;> simp

/-- A byte write keeps the canonical form. -/
theorem wf_writeByte {m : Memory} (h : m.wf = true) (a : Nat) (v : Byte) : (Memory.writeByte m a v).wf = true := by
  induction m with
  | nil => rfl
  | cons c rest ih =>
    simp only [Memory.writeByte]
    split
    · rename_i hlt; rw [wf_cons_iff]; exact ⟨by simpa using hlt, h⟩
    · split
      · rename_i heq; rw [wf_cons_iff] at h ⊢; exact ⟨by simpa [heq] using h.1, h.2⟩
      · rename_i h1 h2
        rw [wf_cons_iff] at h ⊢
        refine ⟨fun d hd => ?_, ih h.2⟩
        obtain hd' | ⟨e, he, hde⟩ := head_writeByte rest a v d hd
        · omega
        · rw [hde]; exact h.1 e he

/-- A word write keeps the canonical form. -/
theorem wf_writeWord {m : Memory} (h : m.wf = true) (a : Nat) (v : Word) : (m.writeWord a v).wf = true :=
  wf_writeByte (wf_writeByte (wf_writeByte (wf_writeByte h _ _) _ _) _ _) _ _

/-- The reset RAM is canonical. -/
theorem wf_reset : State.reset.mem.wf = true ∧ State.reset.ring.wf = true := ⟨rfl, rfl⟩

theorem mem_writeByte {m : Memory} {a : Nat} {v : Byte} {c : Host.Cell} (h : c ∈ Memory.writeByte m a v) :
    c = (a, v) ∨ c ∈ m := by
  induction m with
  | nil => simpa [Memory.writeByte] using h
  | cons d rest ih =>
    simp only [Memory.writeByte] at h
    split at h
    · simpa using h
    · split at h
      · simp only [List.mem_cons] at h ⊢; tauto
      · simp only [List.mem_cons] at h ⊢
        obtain h | h := h
        · exact .inr (.inl h)
        · exact (ih h).imp_right .inr

/-- A word write lists no address outside its four bytes that was not listed before. -/
theorem addr_writeWord {m : Memory} {a : Nat} {v : Word} {c : Host.Cell} (h : c ∈ m.writeWord a v) :
    (a ≤ c.1 ∧ c.1 < a + 4) ∨ c ∈ m := by
  simp only [Memory.writeWord] at h
  obtain h | h := mem_writeByte h
  · left; subst h; simp
  obtain h | h := mem_writeByte h
  · left; subst h; simp
  obtain h | h := mem_writeByte h
  · left; subst h; simp
  obtain h | h := mem_writeByte h
  · left; subst h; simp
  exact .inr h

/-- In canonical form a listed cell is the byte read at its address. -/
theorem readByte_eq_of_mem {m : Memory} (h : m.wf = true) {c : Host.Cell} (hc : c ∈ m) : m.readByte c.1 = some c.2 := by
  have lower : ∀ (m : Memory) (d : Host.Cell), Memory.wf (d :: m) = true → ∀ e ∈ m, d.1 < e.1 := by
    intro m
    induction m with
    | nil => simp
    | cons x rest ih =>
      intro d hd e he
      rw [wf_cons_iff] at hd
      have hx : d.1 < x.1 := hd.1 x (by simp)
      rcases List.mem_cons.mp he with rfl | he
      · exact hx
      · exact lt_trans hx (ih x hd.2 e he)
  induction m with
  | nil => simp at hc
  | cons d rest ih =>
    rw [readByte_cons]
    rcases List.mem_cons.mp hc with rfl | hc
    · simp
    · have := lower rest d h c hc
      rw [if_neg (by omega)]
      exact ih ((wf_cons_iff _ _).mp h).2 hc

end Sys2Proof.Machine
end

