-- ==== Sys2Proof/Laws/State.lean ====
section
/-! SUPPORT. One lemma per field per update of State, each true by rfl, so that no later proof unfolds a record update. -/

namespace Sys2Proof.Machine

section
variable (s : State) (i : Nat) (v : Word)

@[simp] theorem State.setIn_family : (s.setIn i v).family = s.family := rfl
@[simp] theorem State.setIn_window : (s.setIn i v).window = s.window := rfl
@[simp] theorem State.setIn_order : (s.setIn i v).order = s.order := rfl
@[simp] theorem State.setIn_f1 : (s.setIn i v).f1 = s.f1 := rfl
@[simp] theorem State.setIn_f2 : (s.setIn i v).f2 = s.f2 := rfl
@[simp] theorem State.setIn_fs : (s.setIn i v).fs = s.fs := rfl
@[simp] theorem State.setIn_volume : (s.setIn i v).volume = s.volume := rfl
@[simp] theorem State.setIn_ovr : (s.setIn i v).ovr = s.ovr := rfl
@[simp] theorem State.setIn_phase : (s.setIn i v).phase = s.phase := rfl
@[simp] theorem State.setIn_result : (s.setIn i v).result = s.result := rfl
@[simp] theorem State.setIn_lastOp : (s.setIn i v).lastOp = s.lastOp := rfl
@[simp] theorem State.setIn_cfgErr : (s.setIn i v).cfgErr = s.cfgErr := rfl
@[simp] theorem State.setIn_tapCount : (s.setIn i v).tapCount = s.tapCount := rfl
@[simp] theorem State.setIn_outCount : (s.setIn i v).outCount = s.outCount := rfl
@[simp] theorem State.setIn_samplesIn : (s.setIn i v).samplesIn = s.samplesIn := rfl
@[simp] theorem State.setIn_samplesOut : (s.setIn i v).samplesOut = s.samplesOut := rfl
@[simp] theorem State.setIn_mem : (s.setIn i v).mem = s.mem.writeWord (inBufAddr i) v := rfl
@[simp] theorem State.setIn_ring : (s.setIn i v).ring = s.ring := rfl
@[simp] theorem State.setIn_cur : (s.setIn i v).cur = s.cur := rfl
@[simp] theorem State.setIn_gain : (s.setIn i v).gain = s.gain := rfl
@[simp] theorem State.setIn_pending : (s.setIn i v).pending = s.pending := rfl
@[simp] theorem State.setIn_powerOns : (s.setIn i v).powerOns = s.powerOns := rfl
@[simp] theorem State.setIn_inputs : (s.setIn i v).inputs = s.inputs := rfl
@[simp] theorem State.setIn_readData : (s.setIn i v).readData = s.readData := rfl

end

section
variable (s : State) (i : Nat) (v : Word)

@[simp] theorem State.setOut_family : (s.setOut i v).family = s.family := rfl
@[simp] theorem State.setOut_window : (s.setOut i v).window = s.window := rfl
@[simp] theorem State.setOut_order : (s.setOut i v).order = s.order := rfl
@[simp] theorem State.setOut_f1 : (s.setOut i v).f1 = s.f1 := rfl
@[simp] theorem State.setOut_f2 : (s.setOut i v).f2 = s.f2 := rfl
@[simp] theorem State.setOut_fs : (s.setOut i v).fs = s.fs := rfl
@[simp] theorem State.setOut_volume : (s.setOut i v).volume = s.volume := rfl
@[simp] theorem State.setOut_ovr : (s.setOut i v).ovr = s.ovr := rfl
@[simp] theorem State.setOut_phase : (s.setOut i v).phase = s.phase := rfl
@[simp] theorem State.setOut_result : (s.setOut i v).result = s.result := rfl
@[simp] theorem State.setOut_lastOp : (s.setOut i v).lastOp = s.lastOp := rfl
@[simp] theorem State.setOut_cfgErr : (s.setOut i v).cfgErr = s.cfgErr := rfl
@[simp] theorem State.setOut_tapCount : (s.setOut i v).tapCount = s.tapCount := rfl
@[simp] theorem State.setOut_outCount : (s.setOut i v).outCount = s.outCount := rfl
@[simp] theorem State.setOut_samplesIn : (s.setOut i v).samplesIn = s.samplesIn := rfl
@[simp] theorem State.setOut_samplesOut : (s.setOut i v).samplesOut = s.samplesOut := rfl
@[simp] theorem State.setOut_mem : (s.setOut i v).mem = s.mem.writeWord (outBufAddr i) v := rfl
@[simp] theorem State.setOut_ring : (s.setOut i v).ring = s.ring := rfl
@[simp] theorem State.setOut_cur : (s.setOut i v).cur = s.cur := rfl
@[simp] theorem State.setOut_gain : (s.setOut i v).gain = s.gain := rfl
@[simp] theorem State.setOut_pending : (s.setOut i v).pending = s.pending := rfl
@[simp] theorem State.setOut_powerOns : (s.setOut i v).powerOns = s.powerOns := rfl
@[simp] theorem State.setOut_inputs : (s.setOut i v).inputs = s.inputs := rfl
@[simp] theorem State.setOut_readData : (s.setOut i v).readData = s.readData := rfl

end

section
variable (s : State) (i : Nat) (v : Word)

@[simp] theorem State.setRing_family : (s.setRing i v).family = s.family := rfl
@[simp] theorem State.setRing_window : (s.setRing i v).window = s.window := rfl
@[simp] theorem State.setRing_order : (s.setRing i v).order = s.order := rfl
@[simp] theorem State.setRing_f1 : (s.setRing i v).f1 = s.f1 := rfl
@[simp] theorem State.setRing_f2 : (s.setRing i v).f2 = s.f2 := rfl
@[simp] theorem State.setRing_fs : (s.setRing i v).fs = s.fs := rfl
@[simp] theorem State.setRing_volume : (s.setRing i v).volume = s.volume := rfl
@[simp] theorem State.setRing_ovr : (s.setRing i v).ovr = s.ovr := rfl
@[simp] theorem State.setRing_phase : (s.setRing i v).phase = s.phase := rfl
@[simp] theorem State.setRing_result : (s.setRing i v).result = s.result := rfl
@[simp] theorem State.setRing_lastOp : (s.setRing i v).lastOp = s.lastOp := rfl
@[simp] theorem State.setRing_cfgErr : (s.setRing i v).cfgErr = s.cfgErr := rfl
@[simp] theorem State.setRing_tapCount : (s.setRing i v).tapCount = s.tapCount := rfl
@[simp] theorem State.setRing_outCount : (s.setRing i v).outCount = s.outCount := rfl
@[simp] theorem State.setRing_samplesIn : (s.setRing i v).samplesIn = s.samplesIn := rfl
@[simp] theorem State.setRing_samplesOut : (s.setRing i v).samplesOut = s.samplesOut := rfl
@[simp] theorem State.setRing_mem : (s.setRing i v).mem = s.mem := rfl
@[simp] theorem State.setRing_ring : (s.setRing i v).ring = s.ring.writeWord (4 * i) v := rfl
@[simp] theorem State.setRing_cur : (s.setRing i v).cur = s.cur := rfl
@[simp] theorem State.setRing_gain : (s.setRing i v).gain = s.gain := rfl
@[simp] theorem State.setRing_pending : (s.setRing i v).pending = s.pending := rfl
@[simp] theorem State.setRing_powerOns : (s.setRing i v).powerOns = s.powerOns := rfl
@[simp] theorem State.setRing_inputs : (s.setRing i v).inputs = s.inputs := rfl
@[simp] theorem State.setRing_readData : (s.setRing i v).readData = s.readData := rfl

end

section
variable (s : State) (r : Result)

@[simp] theorem State.raise_family : (s.raise r).family = s.family := rfl
@[simp] theorem State.raise_window : (s.raise r).window = s.window := rfl
@[simp] theorem State.raise_order : (s.raise r).order = s.order := rfl
@[simp] theorem State.raise_f1 : (s.raise r).f1 = s.f1 := rfl
@[simp] theorem State.raise_f2 : (s.raise r).f2 = s.f2 := rfl
@[simp] theorem State.raise_fs : (s.raise r).fs = s.fs := rfl
@[simp] theorem State.raise_volume : (s.raise r).volume = s.volume := rfl
@[simp] theorem State.raise_ovr : (s.raise r).ovr = s.ovr := rfl
@[simp] theorem State.raise_phase : (s.raise r).phase = s.phase := rfl
@[simp] theorem State.raise_result : (s.raise r).result = r := rfl
@[simp] theorem State.raise_lastOp : (s.raise r).lastOp = s.lastOp := rfl
@[simp] theorem State.raise_cfgErr : (s.raise r).cfgErr = s.cfgErr := rfl
@[simp] theorem State.raise_tapCount : (s.raise r).tapCount = s.tapCount := rfl
@[simp] theorem State.raise_outCount : (s.raise r).outCount = s.outCount := rfl
@[simp] theorem State.raise_samplesIn : (s.raise r).samplesIn = s.samplesIn := rfl
@[simp] theorem State.raise_samplesOut : (s.raise r).samplesOut = s.samplesOut := rfl
@[simp] theorem State.raise_mem : (s.raise r).mem = s.mem := rfl
@[simp] theorem State.raise_ring : (s.raise r).ring = s.ring := rfl
@[simp] theorem State.raise_cur : (s.raise r).cur = s.cur := rfl
@[simp] theorem State.raise_gain : (s.raise r).gain = s.gain := rfl
@[simp] theorem State.raise_pending : (s.raise r).pending = s.pending := rfl
@[simp] theorem State.raise_powerOns : (s.raise r).powerOns = s.powerOns := rfl
@[simp] theorem State.raise_inputs : (s.raise r).inputs = s.inputs := rfl
@[simp] theorem State.raise_readData : (s.raise r).readData = s.readData := rfl

end

section
variable (s : State) (w : Word)

@[simp] theorem State.accept_family : (s.accept w).family = s.family := rfl
@[simp] theorem State.accept_window : (s.accept w).window = s.window := rfl
@[simp] theorem State.accept_order : (s.accept w).order = s.order := rfl
@[simp] theorem State.accept_f1 : (s.accept w).f1 = s.f1 := rfl
@[simp] theorem State.accept_f2 : (s.accept w).f2 = s.f2 := rfl
@[simp] theorem State.accept_fs : (s.accept w).fs = s.fs := rfl
@[simp] theorem State.accept_volume : (s.accept w).volume = s.volume := rfl
@[simp] theorem State.accept_ovr : (s.accept w).ovr = s.ovr := rfl
@[simp] theorem State.accept_phase : (s.accept w).phase = s.phase := rfl
@[simp] theorem State.accept_result : (s.accept w).result = s.result := rfl
@[simp] theorem State.accept_lastOp : (s.accept w).lastOp = w.extractLsb' 0 8 := rfl
@[simp] theorem State.accept_cfgErr : (s.accept w).cfgErr = s.cfgErr := rfl
@[simp] theorem State.accept_tapCount : (s.accept w).tapCount = s.tapCount := rfl
@[simp] theorem State.accept_outCount : (s.accept w).outCount = s.outCount := rfl
@[simp] theorem State.accept_samplesIn : (s.accept w).samplesIn = s.samplesIn := rfl
@[simp] theorem State.accept_samplesOut : (s.accept w).samplesOut = s.samplesOut := rfl
@[simp] theorem State.accept_mem : (s.accept w).mem = s.mem := rfl
@[simp] theorem State.accept_ring : (s.accept w).ring = s.ring := rfl
@[simp] theorem State.accept_cur : (s.accept w).cur = s.cur := rfl
@[simp] theorem State.accept_gain : (s.accept w).gain = s.gain := rfl
@[simp] theorem State.accept_pending : (s.accept w).pending = some w := rfl
@[simp] theorem State.accept_powerOns : (s.accept w).powerOns = s.powerOns := rfl
@[simp] theorem State.accept_inputs : (s.accept w).inputs = s.inputs := rfl
@[simp] theorem State.accept_readData : (s.accept w).readData = s.readData := rfl

end

section
variable (s : State)

@[simp] theorem State.finish_family : (s.finish).family = s.family := rfl
@[simp] theorem State.finish_window : (s.finish).window = s.window := rfl
@[simp] theorem State.finish_order : (s.finish).order = s.order := rfl
@[simp] theorem State.finish_f1 : (s.finish).f1 = s.f1 := rfl
@[simp] theorem State.finish_f2 : (s.finish).f2 = s.f2 := rfl
@[simp] theorem State.finish_fs : (s.finish).fs = s.fs := rfl
@[simp] theorem State.finish_volume : (s.finish).volume = s.volume := rfl
@[simp] theorem State.finish_ovr : (s.finish).ovr = s.ovr := rfl
@[simp] theorem State.finish_phase : (s.finish).phase = s.phase := rfl
@[simp] theorem State.finish_result : (s.finish).result = s.result := rfl
@[simp] theorem State.finish_lastOp : (s.finish).lastOp = s.lastOp := rfl
@[simp] theorem State.finish_cfgErr : (s.finish).cfgErr = s.cfgErr := rfl
@[simp] theorem State.finish_tapCount : (s.finish).tapCount = s.tapCount := rfl
@[simp] theorem State.finish_outCount : (s.finish).outCount = s.outCount := rfl
@[simp] theorem State.finish_samplesIn : (s.finish).samplesIn = s.samplesIn := rfl
@[simp] theorem State.finish_samplesOut : (s.finish).samplesOut = s.samplesOut := rfl
@[simp] theorem State.finish_mem : (s.finish).mem = s.mem := rfl
@[simp] theorem State.finish_ring : (s.finish).ring = s.ring := rfl
@[simp] theorem State.finish_cur : (s.finish).cur = s.cur := rfl
@[simp] theorem State.finish_gain : (s.finish).gain = s.gain := rfl
@[simp] theorem State.finish_pending : (s.finish).pending = none := rfl
@[simp] theorem State.finish_powerOns : (s.finish).powerOns = s.powerOns := rfl
@[simp] theorem State.finish_inputs : (s.finish).inputs = s.inputs := rfl
@[simp] theorem State.finish_readData : (s.finish).readData = s.readData := rfl

end

section
variable (s : State)

@[simp] theorem State.dropInput_family : (s.dropInput).family = s.family := rfl
@[simp] theorem State.dropInput_window : (s.dropInput).window = s.window := rfl
@[simp] theorem State.dropInput_order : (s.dropInput).order = s.order := rfl
@[simp] theorem State.dropInput_f1 : (s.dropInput).f1 = s.f1 := rfl
@[simp] theorem State.dropInput_f2 : (s.dropInput).f2 = s.f2 := rfl
@[simp] theorem State.dropInput_fs : (s.dropInput).fs = s.fs := rfl
@[simp] theorem State.dropInput_volume : (s.dropInput).volume = s.volume := rfl
@[simp] theorem State.dropInput_ovr : (s.dropInput).ovr = s.ovr := rfl
@[simp] theorem State.dropInput_phase : (s.dropInput).phase = s.phase := rfl
@[simp] theorem State.dropInput_result : (s.dropInput).result = s.result := rfl
@[simp] theorem State.dropInput_lastOp : (s.dropInput).lastOp = s.lastOp := rfl
@[simp] theorem State.dropInput_cfgErr : (s.dropInput).cfgErr = s.cfgErr := rfl
@[simp] theorem State.dropInput_tapCount : (s.dropInput).tapCount = s.tapCount := rfl
@[simp] theorem State.dropInput_outCount : (s.dropInput).outCount = s.outCount := rfl
@[simp] theorem State.dropInput_samplesIn : (s.dropInput).samplesIn = s.samplesIn := rfl
@[simp] theorem State.dropInput_samplesOut : (s.dropInput).samplesOut = s.samplesOut := rfl
@[simp] theorem State.dropInput_mem : (s.dropInput).mem = s.mem := rfl
@[simp] theorem State.dropInput_ring : (s.dropInput).ring = s.ring := rfl
@[simp] theorem State.dropInput_cur : (s.dropInput).cur = s.cur := rfl
@[simp] theorem State.dropInput_gain : (s.dropInput).gain = s.gain := rfl
@[simp] theorem State.dropInput_pending : (s.dropInput).pending = s.pending := rfl
@[simp] theorem State.dropInput_powerOns : (s.dropInput).powerOns = s.powerOns := rfl
@[simp] theorem State.dropInput_inputs : (s.dropInput).inputs = s.inputs.tail := rfl
@[simp] theorem State.dropInput_readData : (s.dropInput).readData = s.readData := rfl

end

section
variable (s : State)

@[simp] theorem State.externalReset_family : (s.externalReset).family = 0 := rfl
@[simp] theorem State.externalReset_window : (s.externalReset).window = 0 := rfl
@[simp] theorem State.externalReset_order : (s.externalReset).order = 0 := rfl
@[simp] theorem State.externalReset_f1 : (s.externalReset).f1 = 0 := rfl
@[simp] theorem State.externalReset_f2 : (s.externalReset).f2 = 0 := rfl
@[simp] theorem State.externalReset_fs : (s.externalReset).fs = 0 := rfl
@[simp] theorem State.externalReset_volume : (s.externalReset).volume = 0x3F800000 := rfl
@[simp] theorem State.externalReset_ovr : (s.externalReset).ovr = false := rfl
@[simp] theorem State.externalReset_phase : (s.externalReset).phase = .idle := rfl
@[simp] theorem State.externalReset_result : (s.externalReset).result = .ok := rfl
@[simp] theorem State.externalReset_lastOp : (s.externalReset).lastOp = 0 := rfl
@[simp] theorem State.externalReset_cfgErr : (s.externalReset).cfgErr = 0 := rfl
@[simp] theorem State.externalReset_tapCount : (s.externalReset).tapCount = 0 := rfl
@[simp] theorem State.externalReset_outCount : (s.externalReset).outCount = 0 := rfl
@[simp] theorem State.externalReset_samplesIn : (s.externalReset).samplesIn = 0 := rfl
@[simp] theorem State.externalReset_samplesOut : (s.externalReset).samplesOut = 0 := rfl
@[simp] theorem State.externalReset_mem : (s.externalReset).mem = [] := rfl
@[simp] theorem State.externalReset_ring : (s.externalReset).ring = [] := rfl
@[simp] theorem State.externalReset_cur : (s.externalReset).cur = 0 := rfl
@[simp] theorem State.externalReset_gain : (s.externalReset).gain = 0 := rfl
@[simp] theorem State.externalReset_pending : (s.externalReset).pending = none := rfl
@[simp] theorem State.externalReset_powerOns : (s.externalReset).powerOns = s.powerOns + 1 := rfl
@[simp] theorem State.externalReset_inputs : (s.externalReset).inputs = s.inputs := rfl
@[simp] theorem State.externalReset_readData : (s.externalReset).readData = s.readData := rfl

end

section
variable (s : State)

@[simp] theorem sresetEffect_family : (sresetEffect s).family = 0 := rfl
@[simp] theorem sresetEffect_window : (sresetEffect s).window = 0 := rfl
@[simp] theorem sresetEffect_order : (sresetEffect s).order = 0 := rfl
@[simp] theorem sresetEffect_f1 : (sresetEffect s).f1 = 0 := rfl
@[simp] theorem sresetEffect_f2 : (sresetEffect s).f2 = 0 := rfl
@[simp] theorem sresetEffect_fs : (sresetEffect s).fs = 0 := rfl
@[simp] theorem sresetEffect_volume : (sresetEffect s).volume = 0x3F800000 := rfl
@[simp] theorem sresetEffect_ovr : (sresetEffect s).ovr = false := rfl
@[simp] theorem sresetEffect_phase : (sresetEffect s).phase = .idle := rfl
@[simp] theorem sresetEffect_result : (sresetEffect s).result = .ok := rfl
@[simp] theorem sresetEffect_lastOp : (sresetEffect s).lastOp = 0x06 := rfl
@[simp] theorem sresetEffect_cfgErr : (sresetEffect s).cfgErr = 0 := rfl
@[simp] theorem sresetEffect_tapCount : (sresetEffect s).tapCount = 0 := rfl
@[simp] theorem sresetEffect_outCount : (sresetEffect s).outCount = 0 := rfl
@[simp] theorem sresetEffect_samplesIn : (sresetEffect s).samplesIn = 0 := rfl
@[simp] theorem sresetEffect_samplesOut : (sresetEffect s).samplesOut = 0 := rfl
@[simp] theorem sresetEffect_mem : (sresetEffect s).mem = s.mem := rfl
@[simp] theorem sresetEffect_ring : (sresetEffect s).ring = s.ring := rfl
@[simp] theorem sresetEffect_cur : (sresetEffect s).cur = s.cur := rfl
@[simp] theorem sresetEffect_gain : (sresetEffect s).gain = s.gain := rfl
@[simp] theorem sresetEffect_pending : (sresetEffect s).pending = s.pending := rfl
@[simp] theorem sresetEffect_powerOns : (sresetEffect s).powerOns = s.powerOns := rfl
@[simp] theorem sresetEffect_inputs : (sresetEffect s).inputs = s.inputs := rfl
@[simp] theorem sresetEffect_readData : (sresetEffect s).readData = s.readData := rfl

end

section
variable (s : State)

@[simp] theorem startEffect_family : (startEffect s).family = s.family := rfl
@[simp] theorem startEffect_window : (startEffect s).window = s.window := rfl
@[simp] theorem startEffect_order : (startEffect s).order = s.order := rfl
@[simp] theorem startEffect_f1 : (startEffect s).f1 = s.f1 := rfl
@[simp] theorem startEffect_f2 : (startEffect s).f2 = s.f2 := rfl
@[simp] theorem startEffect_fs : (startEffect s).fs = s.fs := rfl
@[simp] theorem startEffect_volume : (startEffect s).volume = s.volume := rfl
@[simp] theorem startEffect_ovr : (startEffect s).ovr = s.ovr := rfl
@[simp] theorem startEffect_phase : (startEffect s).phase = .stream := rfl
@[simp] theorem startEffect_result : (startEffect s).result = .ok := rfl
@[simp] theorem startEffect_lastOp : (startEffect s).lastOp = s.lastOp := rfl
@[simp] theorem startEffect_cfgErr : (startEffect s).cfgErr = s.cfgErr := rfl
@[simp] theorem startEffect_tapCount : (startEffect s).tapCount = s.tapCount := rfl
@[simp] theorem startEffect_outCount : (startEffect s).outCount = 0 := rfl
@[simp] theorem startEffect_samplesIn : (startEffect s).samplesIn = 0 := rfl
@[simp] theorem startEffect_samplesOut : (startEffect s).samplesOut = 0 := rfl
@[simp] theorem startEffect_mem : (startEffect s).mem = s.mem := rfl
@[simp] theorem startEffect_ring : (startEffect s).ring = clearRing s.len s.ring := rfl
@[simp] theorem startEffect_cur : (startEffect s).cur = 0 := rfl
@[simp] theorem startEffect_gain : (startEffect s).gain = s.volume := rfl
@[simp] theorem startEffect_pending : (startEffect s).pending = s.pending := rfl
@[simp] theorem startEffect_powerOns : (startEffect s).powerOns = s.powerOns := rfl
@[simp] theorem startEffect_inputs : (startEffect s).inputs = s.inputs := rfl
@[simp] theorem startEffect_readData : (startEffect s).readData = s.readData := rfl

end

section
variable (s : State) (m : BitVec 7)

@[simp] theorem designFail_family : (designFail s m).family = s.family := rfl
@[simp] theorem designFail_window : (designFail s m).window = s.window := rfl
@[simp] theorem designFail_order : (designFail s m).order = s.order := rfl
@[simp] theorem designFail_f1 : (designFail s m).f1 = s.f1 := rfl
@[simp] theorem designFail_f2 : (designFail s m).f2 = s.f2 := rfl
@[simp] theorem designFail_fs : (designFail s m).fs = s.fs := rfl
@[simp] theorem designFail_volume : (designFail s m).volume = s.volume := rfl
@[simp] theorem designFail_ovr : (designFail s m).ovr = s.ovr := rfl
@[simp] theorem designFail_phase : (designFail s m).phase = .idle := rfl
@[simp] theorem designFail_result : (designFail s m).result = .configError := rfl
@[simp] theorem designFail_lastOp : (designFail s m).lastOp = s.lastOp := rfl
@[simp] theorem designFail_cfgErr : (designFail s m).cfgErr = m := rfl
@[simp] theorem designFail_tapCount : (designFail s m).tapCount = 0 := rfl
@[simp] theorem designFail_outCount : (designFail s m).outCount = s.outCount := rfl
@[simp] theorem designFail_samplesIn : (designFail s m).samplesIn = s.samplesIn := rfl
@[simp] theorem designFail_samplesOut : (designFail s m).samplesOut = s.samplesOut := rfl
@[simp] theorem designFail_mem : (designFail s m).mem = s.mem := rfl
@[simp] theorem designFail_ring : (designFail s m).ring = s.ring := rfl
@[simp] theorem designFail_cur : (designFail s m).cur = s.cur := rfl
@[simp] theorem designFail_gain : (designFail s m).gain = s.gain := rfl
@[simp] theorem designFail_pending : (designFail s m).pending = s.pending := rfl
@[simp] theorem designFail_powerOns : (designFail s m).powerOns = s.powerOns := rfl
@[simp] theorem designFail_inputs : (designFail s m).inputs = s.inputs := rfl
@[simp] theorem designFail_readData : (designFail s m).readData = s.readData := rfl

end

section
variable (s : State) (w : Window)

@[simp] theorem designPass_family : (designPass s w).family = s.family := rfl
@[simp] theorem designPass_window : (designPass s w).window = s.window := rfl
@[simp] theorem designPass_order : (designPass s w).order = s.order := rfl
@[simp] theorem designPass_f1 : (designPass s w).f1 = s.f1 := rfl
@[simp] theorem designPass_f2 : (designPass s w).f2 = s.f2 := rfl
@[simp] theorem designPass_fs : (designPass s w).fs = s.fs := rfl
@[simp] theorem designPass_volume : (designPass s w).volume = s.volume := rfl
@[simp] theorem designPass_ovr : (designPass s w).ovr = s.ovr := rfl
@[simp] theorem designPass_phase : (designPass s w).phase = .ready := rfl
@[simp] theorem designPass_result : (designPass s w).result = .ok := rfl
@[simp] theorem designPass_lastOp : (designPass s w).lastOp = s.lastOp := rfl
@[simp] theorem designPass_cfgErr : (designPass s w).cfgErr = 0 := rfl
@[simp] theorem designPass_tapCount : (designPass s w).tapCount = BitVec.ofNat 11 (s.filterSpec.order + 1) := rfl
@[simp] theorem designPass_outCount : (designPass s w).outCount = s.outCount := rfl
@[simp] theorem designPass_samplesIn : (designPass s w).samplesIn = s.samplesIn := rfl
@[simp] theorem designPass_samplesOut : (designPass s w).samplesOut = s.samplesOut := rfl
@[simp] theorem designPass_mem : (designPass s w).mem = synthesize s.filterSpec w s.mem := rfl
@[simp] theorem designPass_ring : (designPass s w).ring = s.ring := rfl
@[simp] theorem designPass_cur : (designPass s w).cur = s.cur := rfl
@[simp] theorem designPass_gain : (designPass s w).gain = s.gain := rfl
@[simp] theorem designPass_pending : (designPass s w).pending = s.pending := rfl
@[simp] theorem designPass_powerOns : (designPass s w).powerOns = s.powerOns := rfl
@[simp] theorem designPass_inputs : (designPass s w).inputs = s.inputs := rfl
@[simp] theorem designPass_readData : (designPass s w).readData = s.readData := rfl

end

section
variable (s : State) (x : Word)

@[simp] theorem sampleState_family : (sampleState s x).family = s.family := rfl
@[simp] theorem sampleState_window : (sampleState s x).window = s.window := rfl
@[simp] theorem sampleState_order : (sampleState s x).order = s.order := rfl
@[simp] theorem sampleState_f1 : (sampleState s x).f1 = s.f1 := rfl
@[simp] theorem sampleState_f2 : (sampleState s x).f2 = s.f2 := rfl
@[simp] theorem sampleState_fs : (sampleState s x).fs = s.fs := rfl
@[simp] theorem sampleState_volume : (sampleState s x).volume = s.volume := rfl
@[simp] theorem sampleState_ovr : (sampleState s x).ovr = s.ovr := rfl
@[simp] theorem sampleState_phase : (sampleState s x).phase = s.phase := rfl
@[simp] theorem sampleState_result : (sampleState s x).result = s.result := rfl
@[simp] theorem sampleState_lastOp : (sampleState s x).lastOp = s.lastOp := rfl
@[simp] theorem sampleState_cfgErr : (sampleState s x).cfgErr = s.cfgErr := rfl
@[simp] theorem sampleState_tapCount : (sampleState s x).tapCount = s.tapCount := rfl
@[simp] theorem sampleState_outCount : (sampleState s x).outCount = s.outCount := rfl
@[simp] theorem sampleState_samplesIn : (sampleState s x).samplesIn = s.samplesIn := rfl
@[simp] theorem sampleState_samplesOut : (sampleState s x).samplesOut = s.samplesOut := rfl
@[simp] theorem sampleState_mem : (sampleState s x).mem = s.mem := rfl
@[simp] theorem sampleState_ring : (sampleState s x).ring = s.ring.writeWord (4 * s.cur) x := rfl
@[simp] theorem sampleState_cur : (sampleState s x).cur = (trueMod ((s.cur : Int) + 1) s.len).toNat := rfl
@[simp] theorem sampleState_gain : (sampleState s x).gain = s.gain := rfl
@[simp] theorem sampleState_pending : (sampleState s x).pending = s.pending := rfl
@[simp] theorem sampleState_powerOns : (sampleState s x).powerOns = s.powerOns := rfl
@[simp] theorem sampleState_inputs : (sampleState s x).inputs = s.inputs := rfl
@[simp] theorem sampleState_readData : (sampleState s x).readData = s.readData := rfl

end

section
variable (s : State) (i : Nat) (x : Word)

@[simp] theorem sampleInto_family : (sampleInto s i x).family = s.family := rfl
@[simp] theorem sampleInto_window : (sampleInto s i x).window = s.window := rfl
@[simp] theorem sampleInto_order : (sampleInto s i x).order = s.order := rfl
@[simp] theorem sampleInto_f1 : (sampleInto s i x).f1 = s.f1 := rfl
@[simp] theorem sampleInto_f2 : (sampleInto s i x).f2 = s.f2 := rfl
@[simp] theorem sampleInto_fs : (sampleInto s i x).fs = s.fs := rfl
@[simp] theorem sampleInto_volume : (sampleInto s i x).volume = s.volume := rfl
@[simp] theorem sampleInto_ovr : (sampleInto s i x).ovr = s.ovr := rfl
@[simp] theorem sampleInto_phase : (sampleInto s i x).phase = s.phase := rfl
@[simp] theorem sampleInto_result : (sampleInto s i x).result = s.result := rfl
@[simp] theorem sampleInto_lastOp : (sampleInto s i x).lastOp = s.lastOp := rfl
@[simp] theorem sampleInto_cfgErr : (sampleInto s i x).cfgErr = s.cfgErr := rfl
@[simp] theorem sampleInto_tapCount : (sampleInto s i x).tapCount = s.tapCount := rfl
@[simp] theorem sampleInto_outCount : (sampleInto s i x).outCount = s.outCount := rfl
@[simp] theorem sampleInto_samplesIn : (sampleInto s i x).samplesIn = s.samplesIn := rfl
@[simp] theorem sampleInto_samplesOut : (sampleInto s i x).samplesOut = s.samplesOut := rfl
@[simp] theorem sampleInto_mem : (sampleInto s i x).mem = s.mem.writeWord (outBufAddr i) (sampleOut s x) := rfl
@[simp] theorem sampleInto_ring : (sampleInto s i x).ring = s.ring.writeWord (4 * s.cur) x := rfl
@[simp] theorem sampleInto_cur : (sampleInto s i x).cur = (trueMod ((s.cur : Int) + 1) s.len).toNat := rfl
@[simp] theorem sampleInto_gain : (sampleInto s i x).gain = s.gain := rfl
@[simp] theorem sampleInto_pending : (sampleInto s i x).pending = s.pending := rfl
@[simp] theorem sampleInto_powerOns : (sampleInto s i x).powerOns = s.powerOns := rfl
@[simp] theorem sampleInto_inputs : (sampleInto s i x).inputs = s.inputs := rfl
@[simp] theorem sampleInto_readData : (sampleInto s i x).readData = s.readData := rfl

end

end Sys2Proof.Machine
end

