-- ==== Sys2Proof/Laws/Ops.lean ====
section
/-! SUPPORT. What the shared operations do: the loop, the modulo, words of the RAM and of the ring after a write, and the
frame of the convolver's sample loops. -/

namespace Sys2Proof.Machine

@[simp] theorem loopUp_zero {α : Type} (body : Nat → α → α) (init : α) : loopUp 0 body init = init := rfl

theorem loopUp_succ {α : Type} (n : Nat) (body : Nat → α → α) (init : α) :
    loopUp (n + 1) body init = body n (loopUp n body init) := rfl

/-- What every pass of a loop keeps, the loop keeps. -/
theorem loopUp_induction {α : Type} {P : Nat → α → Prop} {n : Nat} {body : Nat → α → α} {init : α} (h0 : P 0 init)
    (hstep : ∀ i < n, ∀ a, P i a → P (i + 1) (body i a)) : P n (loopUp n body init) := by
  induction n with
  | zero => exact h0
  | succ n ih => exact hstep n (Nat.lt_succ_self n) _ (ih fun i hi => hstep i (Nat.lt_succ_of_lt hi))

/-- Two loops whose passes agree agree. -/
theorem loopUp_congr {α : Type} {n : Nat} {body body' : Nat → α → α} (init : α)
    (h : ∀ i < n, ∀ a, body i a = body' i a) : loopUp n body init = loopUp n body' init := by
  induction n with
  | zero => rfl
  | succ n ih =>
    rw [loopUp_succ, loopUp_succ, ih fun i hi => h i (Nat.lt_succ_of_lt hi), h n (Nat.lt_succ_self n)]

/-- The true modulo is the Euclidean remainder (00_scope.md rule R11). -/
theorem trueMod_eq_emod (v m : Int) (hm : 0 < m) : trueMod v m = v % m := by
  have h1 : 0 ≤ v.tmod m + m := by have := Int.lt_tmod_of_pos v hm; omega
  unfold trueMod
  rw [Int.tmod_eq_emod_of_nonneg h1, Int.add_emod_right]
  have h2 : v.tmod m = v - m * v.tdiv m := by have := Int.mul_tdiv_add_tmod v m; omega
  rw [h2, Int.sub_mul_emod_self_left]

/-- The ring slot of the k-th newest sample, for a cursor in range (42_convolver.md rule R172). -/
theorem ringSlot_eq {cur k len : Nat} (hc : cur < len) (hk : k < len) :
    ringSlot cur k len = if k ≤ cur then cur - k else cur + len - k := by
  unfold ringSlot
  rw [trueMod_eq_emod _ _ (by omega)]
  split
  · rw [Int.emod_eq_of_lt (by omega) (by omega)]; omega
  · rw [← Int.add_emod_right, Int.emod_eq_of_lt (by omega) (by omega)]; omega

theorem ringSlot_lt {cur k len : Nat} (h : 0 < len) : ringSlot cur k len < len := by
  unfold ringSlot
  rw [trueMod_eq_emod _ _ (by omega)]
  have h1 := Int.emod_nonneg ((cur : Int) - k) (b := (len : Int)) (by omega)
  have h2 := Int.emod_lt_of_pos ((cur : Int) - k) (b := (len : Int)) (by omega)
  omega

/-- The cursor after a sample (rule R176, step 4). -/
theorem nextCur_eq (cur len : Nat) (h : 0 < len) : (trueMod ((cur : Int) + 1) len).toNat = (cur + 1) % len := by
  rw [trueMod_eq_emod _ _ (by omega), show (cur : Int) + 1 = ((cur + 1 : Nat) : Int) by push_cast; rfl, ← Int.natCast_mod]
  exact Int.toNat_natCast _

@[simp] theorem State.setIn_len (s : State) (i : Nat) (v : Word) : (s.setIn i v).len = s.len := rfl
@[simp] theorem State.setOut_len (s : State) (i : Nat) (v : Word) : (s.setOut i v).len = s.len := rfl
@[simp] theorem State.setRing_len (s : State) (i : Nat) (v : Word) : (s.setRing i v).len = s.len := rfl
@[simp] theorem State.raise_len (s : State) (r : Result) : (s.raise r).len = s.len := rfl
@[simp] theorem sampleState_len (s : State) (x : Word) : (sampleState s x).len = s.len := rfl
@[simp] theorem sampleInto_len (s : State) (i : Nat) (x : Word) : (sampleInto s i x).len = s.len := rfl

/-- A RAM word depends on the listed bytes and the count of power-ons alone. -/
theorem ramWord_congr {s t : State} (hm : s.mem = t.mem) (hp : s.powerOns = t.powerOns) (a : Nat) :
    s.ramWord a = t.ramWord a := by simp only [State.ramWord, hm, hp]

theorem ramByte_congr {s t : State} (hm : s.mem = t.mem) (hp : s.powerOns = t.powerOns) (a : Nat) :
    s.ramByte a = t.ramByte a := by simp only [State.ramByte, hm, hp]

theorem ramWord_eq (s : State) (a : Nat) :
    s.ramWord a = wordOfLanes (s.ramByte a) (s.ramByte (a + 1)) (s.ramByte (a + 2)) (s.ramByte (a + 3)) := rfl

@[simp] theorem outWord_setOut (s : State) (i j : Nat) (v : Word) :
    (s.setOut i v).outWord j = if i = j then v else s.outWord j :=
  readWord_writeWord_slot s.mem _ outBufBase i j v

@[simp] theorem inWord_setIn (s : State) (i j : Nat) (v : Word) :
    (s.setIn i v).inWord j = if i = j then v else s.inWord j :=
  readWord_writeWord_slot s.mem _ inBufBase i j v

@[simp] theorem ringWord_setRing (s : State) (i j : Nat) (v : Word) :
    (s.setRing i v).ringWord j = if i = j then v else s.ringWord j := by
  have := readWord_writeWord_slot s.ring (Config.powerOnRingByte s.powerOns) 0 i j v
  simpa [State.ringWord, State.setRing] using this

/-- OUT_BUF lies apart from IN_BUF (20_memory.md rule R73). -/
theorem inWord_setOut (s : State) {i j : Nat} (v : Word) (hj : j < 1024) : (s.setOut i v).inWord j = s.inWord j :=
  readWord_writeWord_other _ _ _ (by simp only [inBufAddr, outBufAddr, inBufBase, outBufBase]; omega)

/-- OUT_BUF lies apart from TAPS. -/
theorem tapWord_setOut (s : State) {i : Nat} (j : Nat) (v : Word) (hi : i < 1024) :
    (s.setOut i v).tapWord j = s.tapWord j :=
  readWord_writeWord_other _ _ _ (by simp only [tapAddr, outBufAddr, tapsBase, outBufBase]; omega)

/-- IN_BUF lies apart from TAPS. -/
theorem tapWord_setIn (s : State) {i : Nat} (j : Nat) (v : Word) (hi : i < 1024) :
    (s.setIn i v).tapWord j = s.tapWord j :=
  readWord_writeWord_other _ _ _ (by simp only [tapAddr, inBufAddr, tapsBase, inBufBase]; omega)

/-- The bytes an OUT_BUF write reaches. -/
theorem ramByte_setOut (s : State) (i a : Nat) (v : Word) (h : a < outBufAddr i ∨ outBufAddr i + 4 ≤ a) :
    (s.setOut i v).ramByte a = s.ramByte a := by
  simp only [State.ramByte, State.setOut_mem, State.setOut_powerOns, readByte_writeWord_other _ _ h]

/-- The ring after START: every slot in use holds +0 (42_convolver.md rule R170). -/
theorem readWord_clearRing (len : Nat) (r : Memory) (u : Nat → Byte) (i : Nat) :
    (clearRing len r).readWord u (4 * i) = if i < len then zero32 else r.readWord u (4 * i) := by
  induction len with
  | zero => rfl
  | succ n ih =>
    have h := readWord_writeWord_slot (clearRing n r) u 0 n i zero32
    simp only [Nat.zero_add] at h
    show ((clearRing n r).writeWord (4 * n) zero32).readWord u (4 * i) = _
    rw [h, ih]
    by_cases h1 : n = i
    · simp [h1]
    · simp only [if_neg h1]
      by_cases h2 : i < n
      · rw [if_pos h2, if_pos (by omega)]
      · rw [if_neg h2, if_neg (by omega)]

/-- A loop of samples changes nothing but the RAM, the ring and the cursor. -/
theorem sampleLoop_frame (n : Nat) (x : State → Nat → Word) (s : State) :
    ∃ m r c, loopUp n (fun i t => sampleInto t i (x t i)) s = { s with mem := m, ring := r, cur := c } := by
  induction n with
  | zero => exact ⟨s.mem, s.ring, s.cur, rfl⟩
  | succ n ih =>
    obtain ⟨m, r, c, h⟩ := ih
    rw [loopUp_succ, h]
    exact ⟨_, _, _, rfl⟩

theorem processSamples_frame (n : Nat) (s : State) :
    ∃ m r c, processSamples n s = { s with mem := m, ring := r, cur := c } :=
  sampleLoop_frame n (fun t i => t.inWord i) s

theorem flushSamples_frame (n : Nat) (s : State) :
    ∃ m r c, flushSamples n s = { s with mem := m, ring := r, cur := c } :=
  sampleLoop_frame n (fun _ _ => zero32) s

/-- A loop of n samples writes no byte outside OUT_BUF[0..n-1]. -/
theorem sampleLoop_ramByte (n : Nat) (x : State → Nat → Word) (s : State) (a : Nat)
    (h : a < outBufBase ∨ outBufBase + 4 * n ≤ a) :
    (loopUp n (fun i t => sampleInto t i (x t i)) s).ramByte a = s.ramByte a := by
  refine loopUp_induction (P := fun _ (t : State) => t.ramByte a = s.ramByte a) rfl fun i hi t ht => ?_
  rw [← ht]
  exact ramByte_setOut _ _ _ _ (by simp only [outBufAddr]; omega)

end Sys2Proof.Machine
end

