-- ==== Sys2Proof/Laws/Exec.lean ====
section
/-! SUPPORT. What a command and a step can do: each command's outcome inside and outside its phases, and each step by the
input it takes. -/

namespace Sys2Proof.Machine

@[simp] theorem ifPermitted_eq (i : Instr) (s e : State) :
    ifPermitted i s e = .next (if permitted i s.phase = true then e else s.raise .cmdState) := by
  unfold ifPermitted; split <;> simp_all

/-- Every command answers a next state: its effect in its phases, CMD_STATE outside them (40_host_access.md rule R109). -/
theorem exec_eq (i : Instr) (s : State) :
    exec i s = .next (if permitted i s.phase = true then
      match i with
      | .nop => s.raise .ok
      | .design => designEffect s
      | .start => startEffect s
      | .process n => processEffect n s
      | .flush => flushEffect s
      | .abort => ({ s with phase := .halted } : State).raise .ioError
      | .sreset => sresetEffect s
      else s.raise .cmdState) := by
  cases i <;> simp [exec, execNop, execDesign, execStart, execProcess, execFlush, execAbort, execSreset]

theorem exec_next (i : Instr) (s : State) : ∃ t, exec i s = .next t := ⟨_, exec_eq i s⟩

theorem dispatch_next (w : Word) (s : State) : ∃ t, dispatch w s = .next t := by
  unfold dispatch; split
  · exact ⟨_, rfl⟩
  · exact exec_next _ s

@[simp] theorem mapNext_next (f : State → State) (s : State) : mapNext f (.next s) = .next (f s) := rfl

theorem step_read {s : State} {a : Offset} {rest : List Input} (h : s.inputs = .read a :: rest) :
    step s = .next { s with readData := s.hostRead a, inputs := rest } := by
  simp only [step, systemStep, h, State.dropInput, List.tail_cons]

theorem hostWrite_inputs (s : State) (a : Offset) (v : Word) : (s.hostWrite a v).inputs = s.inputs := by
  unfold State.hostWrite State.dropWrite State.writeLocation
  repeat' split
  all_goals first | rfl | (unfold State.writeRegister; split <;> rfl)

theorem step_write {s : State} {a : Offset} {v : Word} {rest : List Input} (h : s.inputs = .write a v :: rest) :
    step s = .next { s.hostWrite a v with inputs := rest } := by
  simp only [step, systemStep, h, State.dropInput, hostWrite_inputs, List.tail_cons]

theorem step_reset {s : State} {rest : List Input} (h : s.inputs = .reset :: rest) :
    step s = .next { s.externalReset with inputs := rest } := by
  simp only [step, systemStep, h, State.dropInput, State.externalReset, List.tail_cons]

/-- The block's turn: an empty input list, or a turn of its own. -/
def blockNext (s : State) : Prop := s.inputs = [] ∨ ∃ rest, s.inputs = .block :: rest

theorem step_block {s : State} (h : blockNext s) : step s = blockTurn s := by
  rcases h with h | ⟨rest, h⟩ <;> simp only [step, systemStep, h]

theorem step_idle {s : State} (h : blockNext s) (hp : s.pending = none) :
    step s = .next { s with inputs := s.inputs.tail } := by
  rw [step_block h]
  unfold blockTurn
  split
  · rfl
  · simp_all

theorem step_complete {s : State} {w : Word} (h : blockNext s) (hp : s.pending = some w) :
    step s = mapNext (fun t => { t with pending := none, inputs := t.inputs.tail }) (dispatch w s) := by
  rw [step_block h]
  unfold blockTurn
  split
  · simp_all
  · rename_i v hv
    rw [hp] at hv
    cases hv
    rfl

/-- Everything a step can be: a read, a write, the external reset, an idle turn, or a completion. -/
theorem step_cases {s t : State} (h : step s = .next t) :
    (∃ a rest, s.inputs = .read a :: rest ∧ t = { s with readData := s.hostRead a, inputs := rest }) ∨
    (∃ a v rest, s.inputs = .write a v :: rest ∧ t = { s.hostWrite a v with inputs := rest }) ∨
    (∃ rest, s.inputs = .reset :: rest ∧ t = { s.externalReset with inputs := rest }) ∨
    (blockNext s ∧ s.pending = none ∧ t = { s with inputs := s.inputs.tail }) ∨
    (∃ w u, blockNext s ∧ s.pending = some w ∧ dispatch w s = .next u ∧
      t = { u with pending := none, inputs := u.inputs.tail }) := by
  have hb : blockNext s → (s.pending = none ∧ t = { s with inputs := s.inputs.tail }) ∨
      ∃ w u, s.pending = some w ∧ dispatch w s = .next u ∧ t = { u with pending := none, inputs := u.inputs.tail } := by
    intro hb
    rcases Option.eq_none_or_eq_some s.pending with hp | ⟨w, hp⟩
    · rw [step_idle hb hp] at h
      exact .inl ⟨hp, by cases h; rfl⟩
    · obtain ⟨u, hu⟩ := dispatch_next w s
      rw [step_complete hb hp, hu] at h
      exact .inr ⟨w, u, hp, hu, by cases h; rfl⟩
  match hi : s.inputs with
  | [] =>
    have hn : blockNext s := .inl hi
    rcases hb hn with ⟨h1, h2⟩ | ⟨w, u, h1, h2, h3⟩
    · rw [hi] at h2; exact .inr (.inr (.inr (.inl ⟨hn, h1, h2⟩)))
    · exact .inr (.inr (.inr (.inr ⟨w, u, hn, h1, h2, h3⟩)))
  | .block :: rest =>
    have hn : blockNext s := .inr ⟨rest, hi⟩
    rcases hb hn with ⟨h1, h2⟩ | ⟨w, u, h1, h2, h3⟩
    · rw [hi] at h2; exact .inr (.inr (.inr (.inl ⟨hn, h1, h2⟩)))
    · exact .inr (.inr (.inr (.inr ⟨w, u, hn, h1, h2, h3⟩)))
  | .read a :: rest =>
    rw [step_read hi] at h
    exact .inl ⟨a, rest, rfl, by cases h; rfl⟩
  | .write a v :: rest =>
    rw [step_write hi] at h
    exact .inr (.inl ⟨a, v, rest, rfl, by cases h; rfl⟩)
  | .reset :: rest =>
    rw [step_reset hi] at h
    exact .inr (.inr (.inl ⟨rest, rfl, by cases h; rfl⟩))

theorem step_next (s : State) : ∃ t, step s = .next t := by
  have hb : blockNext s → ∃ t, step s = .next t := by
    intro hb
    cases hp : s.pending with
    | none => exact ⟨_, step_idle hb hp⟩
    | some w =>
      obtain ⟨u, hu⟩ := dispatch_next w s
      exact ⟨_, by rw [step_complete hb hp, hu]; rfl⟩
  match hi : s.inputs with
  | [] => exact hb (.inl hi)
  | .block :: rest => exact hb (.inr ⟨rest, hi⟩)
  | .read a :: rest => exact ⟨_, step_read hi⟩
  | .write a v :: rest => exact ⟨_, step_write hi⟩
  | .reset :: rest => exact ⟨_, step_reset hi⟩

/-- One step of a run of the machine behind Host/Core.lean. -/
theorem run_step {s t : State} (h : step s = .next t) (k : Nat) :
    Host.Core.run Sys2Proof.core (k + 1) s = Host.Core.run Sys2Proof.core k t := by
  have h2 : Host.Core.step Sys2Proof.core s = .next t := h
  simp only [Host.Core.run, h2]

/-- Every completion is CMD_ILLEGAL, CMD_STATE, or the effect of a decoded command in a phase that permits it. -/
theorem dispatch_cases {w : Word} {s t : State} (h : dispatch w s = .next t) :
    (illegalWord w ∧ t = s.raise .cmdIllegal) ∨
    ∃ i, decode w = .ok i ∧ exec i s = .next t ∧
      ((permitted i s.phase = false ∧ t = s.raise .cmdState) ∨ permitted i s.phase = true) := by
  unfold dispatch at h
  split at h
  · rename_i e he
    exact .inl ⟨(decode_error_iff w).1 ⟨e, he⟩, by cases h; rfl⟩
  · rename_i i hi
    refine .inr ⟨i, hi, h, ?_⟩
    cases hp : permitted i s.phase with
    | true => exact .inr rfl
    | false =>
      rw [exec_eq, hp] at h
      exact .inl ⟨rfl, by cases h; rfl⟩

/-- The phases of rule R110, as propositions. -/
theorem permitted_iff (i : Instr) (p : Phase) :
    permitted i p = true ↔
      match i with
      | .nop => True
      | .design => p ≠ .stream
      | .start => p = .ready ∨ p = .done ∨ p = .halted
      | .process _ => p = .stream
      | .flush => p = .stream
      | .abort => p = .stream ∨ p = .done
      | .sreset => True := by
  cases i <;> cases p <;> simp [permitted]

/-- A host write, by the location it names. -/
theorem hostWrite_cases (s : State) (a : Offset) (v : Word) :
    (s.busy = true ∧ (s.hostWrite a v = s ∨ s.hostWrite a v = { s with ovr := true })) ∨
    (s.busy = false ∧
      ((∃ i, locate a = .inBuf i ∧ s.hostWrite a v = s.setIn i v) ∨
       (∃ fa wi o f1 f2 fs vo p l, s.hostWrite a v =
          { s with family := fa, window := wi, order := o, f1 := f1, f2 := f2, fs := fs, volume := vo, pending := p,
                   lastOp := l }))) := by
  unfold State.hostWrite
  cases hb : s.busy with
  | true =>
    refine .inl ⟨rfl, ?_⟩
    rw [if_pos rfl]
    unfold State.dropWrite
    split <;> simp
  | false =>
    refine .inr ⟨rfl, ?_⟩
    rw [if_neg (by simp)]
    cases hl : locate a with
    | inBuf i => exact .inl ⟨i, rfl, rfl⟩
    | misaligned => exact .inr ⟨_, _, _, _, _, _, _, _, _, rfl⟩
    | outBuf i => exact .inr ⟨_, _, _, _, _, _, _, _, _, rfl⟩
    | tap i => exact .inr ⟨_, _, _, _, _, _, _, _, _, rfl⟩
    | reserved => exact .inr ⟨_, _, _, _, _, _, _, _, _, rfl⟩
    | register r => cases r <;> exact .inr ⟨_, _, _, _, _, _, _, _, _, rfl⟩

/-- IN_BUF has 1024 words. -/
theorem locate_inBuf_lt {a : Offset} {i : Nat} (h : locate a = .inBuf i) : i < 1024 := by
  unfold locate at h
  dsimp only at h
  split at h
  · cases h
  split at h
  · split at h <;> cases h
  split at h
  · injection h
    simp only [inBufBase, outBufBase] at *
    omega
  split at h
  · cases h
  split at h <;> cases h

end Sys2Proof.Machine
end

