-- ==== Sys2Proof/Laws/Commands.lean ====
section
/-! SUPPORT. What each command can change: its effect as a record update of the state before it, and the bytes of the RAM
and of the ring it can write. -/

namespace Sys2Proof.Machine

theorem sampleInto_eq (s : State) (i : Nat) (x : Word) :
    sampleInto s i x =
      { s with
          mem := s.mem.writeWord (outBufAddr i) (sampleOut s x)
          ring := s.ring.writeWord (4 * s.cur) x
          cur := (trueMod ((s.cur : Int) + 1) s.len).toNat } := rfl

theorem startEffect_eq (s : State) :
    startEffect s =
      { s with ring := clearRing s.len s.ring, cur := 0, gain := s.volume, outCount := 0, samplesIn := 0, samplesOut := 0,
               phase := .stream, result := .ok } := rfl

theorem processEffect_over {n : Nat} (h : 1024 < n) (s : State) : processEffect n s = { s with result := .cmdCount } := by
  unfold processEffect
  rw [if_pos (show Config.bufWords < n from h)]; rfl

theorem processEffect_eq {n : Nat} (h : n ≤ 1024) (s : State) :
    processEffect n s =
      { s with
          mem := (processSamples n s).mem, ring := (processSamples n s).ring, cur := (processSamples n s).cur,
          outCount := BitVec.ofNat 11 n, samplesIn := s.samplesIn + BitVec.ofNat 32 n,
          samplesOut := s.samplesOut + BitVec.ofNat 32 n, result := .ok } := by
  unfold processEffect
  rw [if_neg (show ¬Config.bufWords < n by simp only [Config.bufWords]; omega)]
  obtain ⟨m, r, c, hs⟩ := processSamples_frame n s
  rw [hs]; rfl

theorem flushEffect_eq (s : State) :
    flushEffect s =
      { s with
          mem := (flushSamples s.len s).mem, ring := (flushSamples s.len s).ring, cur := (flushSamples s.len s).cur,
          outCount := BitVec.ofNat 11 s.len, samplesOut := s.samplesOut + BitVec.ofNat 32 s.len,
          phase := .done, result := .ok } := by
  unfold flushEffect
  obtain ⟨m, r, c, hs⟩ := flushSamples_frame s.len s
  rw [hs]; rfl

theorem mask_bits : ∀ b0 b1 b2 b3 b4 b5 b6 : Bool,
    let m : BitVec 7 := BitVec.ofBool b6 ++ BitVec.ofBool b5 ++ BitVec.ofBool b4 ++ BitVec.ofBool b3 ++ BitVec.ofBool b2 ++
      BitVec.ofBool b1 ++ BitVec.ofBool b0
    m.getLsbD 0 = b0 ∧ m.getLsbD 1 = b1 ∧ m.getLsbD 2 = b2 ∧ m.getLsbD 3 = b3 ∧ m.getLsbD 4 = b4 ∧ m.getLsbD 5 = b5 ∧
      m.getLsbD 6 = b6 := by decide

/-- The mask bit by bit (41_designer.md rule R131). -/
theorem validate_bits (f : FilterSpec) :
    f.validate.getLsbD 0 = f.windowBad ∧ f.validate.getLsbD 1 = f.orderOdd ∧ f.validate.getLsbD 2 = f.orderRange ∧
    f.validate.getLsbD 3 = f.fsBad ∧ f.validate.getLsbD 4 = f.f1Range ∧ f.validate.getLsbD 5 = f.f2Range ∧
    f.validate.getLsbD 6 = f.fOrder := mask_bits _ _ _ _ _ _ _

/-- Validation succeeds exactly where no check fails. -/
theorem validate_zero_iff (f : FilterSpec) :
    f.validate = 0 ↔ f.windowBad = false ∧ f.orderOdd = false ∧ f.orderRange = false ∧ f.fsBad = false ∧
      f.f1Range = false ∧ f.f2Range = false ∧ f.fOrder = false := by
  constructor
  · intro h
    obtain ⟨h0, h1, h2, h3, h4, h5, h6⟩ := validate_bits f
    simp only [h] at h0 h1 h2 h3 h4 h5 h6
    exact ⟨h0.symm, h1.symm, h2.symm, h3.symm, h4.symm, h5.symm, h6.symm⟩
  · rintro ⟨h0, h1, h2, h3, h4, h5, h6⟩
    unfold FilterSpec.validate
    rw [h0, h1, h2, h3, h4, h5, h6]; rfl

/-- A window code that is not recognised fails validation. -/
theorem window_of_validate {f : FilterSpec} (h : f.validate = 0) : ∃ w, f.window = some w := by
  cases hw : f.window with
  | some w => exact ⟨w, rfl⟩
  | none =>
    have h0 := ((validate_zero_iff f).1 h).1
    rw [FilterSpec.windowBad, hw] at h0
    cases h0

theorem designEffect_pass {s : State} {w : Window} (h : s.filterSpec.validate = 0) (hw : s.filterSpec.window = some w) :
    designEffect s =
      { s with
          mem := synthesize s.filterSpec w s.mem, cfgErr := 0, tapCount := BitVec.ofNat 11 (s.order.toNat + 1),
          phase := .ready, result := .ok } := by
  unfold designEffect
  rw [hw]
  dsimp only
  rw [if_pos h]; rfl

theorem designEffect_fail {s : State} (h : s.filterSpec.validate ≠ 0) :
    designEffect s =
      { s with cfgErr := s.filterSpec.validate, tapCount := 0, phase := .idle, result := .configError } := by
  unfold designEffect
  cases s.filterSpec.window with
  | none => rfl
  | some w => dsimp only; rw [if_neg h]; rfl

theorem sresetEffect_eq (s : State) :
    sresetEffect s =
      { s with
          family := 0, window := 0, order := 0, f1 := 0, f2 := 0, fs := 0, volume := 0x3F800000, ovr := false,
          phase := .idle, result := .ok, lastOp := 0x06, cfgErr := 0, tapCount := 0, outCount := 0, samplesIn := 0,
          samplesOut := 0 } := rfl

/-- The bytes the samples of a PROCESS write lie in OUT_BUF[0..n-1]. -/
theorem processSamples_ramByte (n : Nat) (s : State) (a : Nat) (h : a < outBufBase ∨ outBufBase + 4 * n ≤ a) :
    (processSamples n s).ramByte a = s.ramByte a := sampleLoop_ramByte n _ s a h

theorem flushSamples_ramByte (n : Nat) (s : State) (a : Nat) (h : a < outBufBase ∨ outBufBase + 4 * n ≤ a) :
    (flushSamples n s).ramByte a = s.ramByte a := sampleLoop_ramByte n _ s a h

/-- PROCESS n writes no byte outside OUT_BUF[0..n-1]. -/
theorem processEffect_ramByte {n : Nat} (h : n ≤ 1024) (s : State) (a : Nat)
    (ha : a < outBufBase ∨ outBufBase + 4 * n ≤ a) : (processEffect n s).ramByte a = s.ramByte a := by
  rw [processEffect_eq h, ← processSamples_ramByte n s a ha]
  have hp : (processSamples n s).powerOns = s.powerOns := by
    obtain ⟨m, r, c, hs⟩ := processSamples_frame n s
    rw [hs]
  simp only [State.ramByte, hp]

/-- FLUSH writes no byte outside OUT_BUF[0..L-1]. -/
theorem flushEffect_ramByte (s : State) (a : Nat) (ha : a < outBufBase ∨ outBufBase + 4 * s.len ≤ a) :
    (flushEffect s).ramByte a = s.ramByte a := by
  rw [flushEffect_eq, ← flushSamples_ramByte s.len s a ha]
  have hp : (flushSamples s.len s).powerOns = s.powerOns := by
    obtain ⟨m, r, c, hs⟩ := flushSamples_frame s.len s
    rw [hs]
  simp only [State.ramByte, hp]

/-- A predicate that every sample keeps is kept by PROCESS and FLUSH's samples. -/
theorem sampleLoop_induction {P : State → Prop} {n : Nat} {x : State → Nat → Word} {s : State} (h0 : P s)
    (h : ∀ i < n, ∀ t v, t.len = s.len → P t → P (sampleInto t i v)) :
    P (loopUp n (fun i t => sampleInto t i (x t i)) s) := by
  have := loopUp_induction (P := fun _ (t : State) => t.len = s.len ∧ P t) (n := n)
    (body := fun i t => sampleInto t i (x t i)) (init := s) ⟨rfl, h0⟩
    fun i hi t ht => ⟨ht.1, h i hi t _ ht.1 ht.2⟩
  exact this.2

/-- The RAM after the synthesis: a word of TAPS[0..N] is the tap of its mirror image in the lower half, and every byte
outside TAPS[0..N] is as it was. -/
theorem synthesize_induction {P : Nat → Memory → Prop} {f : FilterSpec} {w : Window} {m : Memory} (h0 : P 0 m)
    (h : ∀ x < f.order / 2 + 1, ∀ m, P x m →
      P (x + 1) ((m.writeWord (tapAddr x) (designTap f w x)).writeWord (tapAddr (f.order - x)) (designTap f w x))) :
    P (f.order / 2 + 1) (synthesize f w m) := loopUp_induction h0 h

theorem synthesize_readByte (f : FilterSpec) (w : Window) (m : Memory) (a : Nat)
    (h : a < tapsBase ∨ tapsBase + 4 * (f.order + 1) ≤ a) : (synthesize f w m).readByte a = m.readByte a := by
  refine synthesize_induction (P := fun _ (m' : Memory) => m'.readByte a = m.readByte a) rfl fun x hx m' hm => ?_
  rw [readByte_writeWord_other _ _ (by simp only [tapAddr]; omega),
    readByte_writeWord_other _ _ (by simp only [tapAddr]; omega), hm]

theorem synthesize_readWord (f : FilterSpec) (w : Window) (m : Memory) (u : Nat → Byte) (he : f.order % 2 = 0) (x : Nat)
    (hx : x ≤ f.order) :
    (synthesize f w m).readWord u (tapAddr x) = designTap f w (min x (f.order - x)) := by
  have key := synthesize_induction (f := f) (w := w) (m := m)
    (P := fun n (m' : Memory) => ∀ x ≤ f.order, min x (f.order - x) < n →
      m'.readWord u (tapAddr x) = designTap f w (min x (f.order - x)))
    (fun x _ h => absurd h (Nat.not_lt_zero _)) ?_
  · exact key x hx (by omega)
  intro k hk m' hm y hy hyk
  have h1 := readWord_writeWord_slot (m'.writeWord (tapAddr k) (designTap f w k)) u tapsBase (f.order - k) y (designTap f w k)
  have h2 := readWord_writeWord_slot m' u tapsBase k y (designTap f w k)
  simp only [tapAddr] at *
  rw [h1, h2]
  by_cases e1 : f.order - k = y
  · rw [if_pos e1]; congr 1; omega
  · rw [if_neg e1]
    by_cases e2 : k = y
    · rw [if_pos e2]; congr 1; omega
    · rw [if_neg e2]; exact hm y hy (by omega)

theorem synthesize_holdsWord (f : FilterSpec) (w : Window) (m : Memory) (he : f.order % 2 = 0) (x : Nat) (hx : x ≤ f.order) :
    (synthesize f w m).holdsWord (tapAddr x) = true := by
  have key := synthesize_induction (f := f) (w := w) (m := m)
    (P := fun n (m' : Memory) => ∀ x ≤ f.order, min x (f.order - x) < n → m'.holdsWord (tapAddr x) = true)
    (fun x _ h => absurd h (Nat.not_lt_zero _)) ?_
  · exact key x hx (by omega)
  intro k hk m' hm y hy hyk
  by_cases e1 : f.order - k = y
  · subst e1; exact holdsWord_writeWord_same _ _ _
  · by_cases e2 : k = y
    · subst e2; exact holdsWord_writeWord _ _ _ _ (holdsWord_writeWord_same _ _ _)
    · exact holdsWord_writeWord _ _ _ _ (holdsWord_writeWord _ _ _ _ (hm y hy (by omega)))

/-- A legal tap count is at most L_MAX. -/
theorem legalLen_le {n : Nat} (h : legalLen n) : n ≤ 1001 := by
  rcases h with h | ⟨m, h, _, _, h2⟩
  · omega
  · simp only [Config.nMax] at h2; omega

/-- What validation guarantees of the order. -/
theorem order_of_validate {f : FilterSpec} (h : f.validate = 0) : f.order % 2 = 0 ∧ 2 ≤ f.order ∧ f.order ≤ 1000 := by
  obtain ⟨-, h1, h2, -⟩ := (validate_zero_iff f).1 h
  have h1 : ¬f.order % 2 = 1 := of_decide_eq_false h1
  have h2 : ¬(f.order < 2 ∨ 1000 < f.order) := of_decide_eq_false h2
  omega

end Sys2Proof.Machine
end

