-- ==== Sys2Proof/Laws/Exact.lean ====
section
/-! SUPPORT. The comparisons of 41_designer.md rule R131 are comparisons of exact values, and what flipping a sign does. -/

namespace Sys2Proof.Machine

/-- The exact value of an unpacked word. -/
noncomputable def Num.exact : Num → Option EReal
  | .nan => none
  | .inf neg => some (if neg then ⊥ else ⊤)
  | .fin neg k => some (((Num.fin neg k).toReal : ℝ) : EReal)

theorem exactValue_eq (w : Word) : exactValue w = (unpack w).exact := rfl

theorem lt_iff (a b : Num) : a.lt b = true ↔ exactLt a.exact b.exact := by
  unfold exactLt
  cases a with
  | nan => simp [Num.lt, Num.exact]
  | inf s =>
    cases b with
    | nan => simp [Num.lt, Num.exact]
    | inf t => cases s <;> cases t <;> simp [Num.lt, Num.exact]
    | fin t l => cases s <;> simp [Num.lt, Num.exact, EReal.bot_lt_coe]
  | fin s k =>
    cases b with
    | nan => simp [Num.lt, Num.exact]
    | inf t => cases t <;> simp [Num.lt, Num.exact, EReal.coe_lt_top]
    | fin t l =>
      simp only [Num.lt, Num.exact, decide_eq_true_eq]
      constructor
      · intro h
        refine ⟨_, _, rfl, rfl, ?_⟩
        rw [EReal.coe_lt_coe_iff]
        simp only [Num.toReal]
        have : (signedUnits s k : ℝ) < signedUnits t l := by exact_mod_cast h
        exact div_lt_div_of_pos_right this (by positivity)
      · rintro ⟨x, y, hx, hy, h⟩
        cases hx; cases hy
        rw [EReal.coe_lt_coe_iff] at h
        simp only [Num.toReal] at h
        have := (div_lt_div_iff_of_pos_right (by positivity : (0 : ℝ) < 2 ^ 149)).1 h
        exact_mod_cast this

theorem zero_exact : (some 0 : Option EReal) = Num.zero.exact := by simp [Num.exact, Num.zero, Num.toReal, signedUnits]

theorem twice_exact (a : Num) : exactTwice a.exact = a.twice.exact := by
  unfold exactTwice
  cases a with
  | nan => rfl
  | inf s => cases s <;> simp [Num.exact, Num.twice, EReal.mul_top_of_pos, EReal.mul_bot_of_pos]
  | fin s k =>
    simp only [Num.exact, Num.twice, Option.map_some, Num.toReal]
    congr 1
    rw [show (2 : EReal) = ((2 : ℝ) : EReal) from rfl, ← EReal.coe_mul]
    congr 1
    unfold signedUnits
    cases s
    · simp only [Bool.false_eq_true, if_false]; push_cast; ring
    · simp only [if_true]; push_cast; ring

/-- The cutoff check of rule R131, on exact values. -/
theorem cutoffBad_iff (c fs : Word) : cutoffBad c fs = true ↔ ¬cutoffInRange c fs := by
  unfold cutoffBad cutoffInRange
  rw [exactValue_eq, exactValue_eq, zero_exact, twice_exact, ← lt_iff, ← lt_iff]
  cases Num.zero.lt (unpack c) <;> cases (unpack c).twice.lt (unpack fs) <;> simp

theorem isBand_iff (s : State) : s.filterSpec.family.isBand = true ↔ (s.family = 2 ∨ s.family = 3) := by
  have : ∀ f : BitVec 2, (familyOf f).isBand = true ↔ (f = 2 ∨ f = 3) := by decide
  exact this _

/-- Flipping the sign bit, as a number. -/
theorem neg32_toNat (w : Word) : (neg32 w).toNat = if w.toNat < 2 ^ 31 then w.toNat + 2 ^ 31 else w.toNat - 2 ^ 31 := by
  unfold neg32
  have hlt := w.isLt
  have : w ^^^ 0x80000000 = w + 0x80000000 := by
    ext i hi
    rw [← BitVec.getLsbD_eq_getElem, ← BitVec.getLsbD_eq_getElem, BitVec.getLsbD_xor, BitVec.getLsbD_add hi]
    by_cases h : i = 31
    · subst h
      have hc : BitVec.carry 31 w 0x80000000 false = false := by
        unfold BitVec.carry
        simp
        omega
      rw [hc]; simp
    · have hb : (0x80000000 : BitVec 32).getLsbD i = false := by
        have : ∀ i : Fin 32, i.val ≠ 31 → (0x80000000 : BitVec 32).getLsbD i.val = false := by decide
        exact this ⟨i, hi⟩ h
      have hc : BitVec.carry i w 0x80000000 false = false := by
        unfold BitVec.carry
        have h2 : (0x80000000 : BitVec 32).toNat % 2 ^ i = 0 := by
          have : ∀ i : Fin 32, (0x80000000 : BitVec 32).toNat % 2 ^ i.val = 0 := by decide
          exact this ⟨i, hi⟩
        rw [h2]
        simp
        exact Nat.mod_lt _ (by positivity)
      rw [hb, hc]; simp
  rw [this, BitVec.toNat_add]
  have e : (0x80000000 : BitVec 32).toNat = 2 ^ 31 := by decide
  rw [e]
  split <;> omega

theorem unpack_neg32 {w : Word} {n : Bool} {k : ℕ} (h : unpack w = .fin n k) : unpack (neg32 w) = .fin (!n) k := by
  obtain ⟨mag, hm, rfl, rfl⟩ := unpack_finite h
  have h31 : mag < 2 ^ 31 := lt_trans hm (by decide)
  have : neg32 (pack n mag) = pack (!n) mag := by
    apply BitVec.eq_of_toNat_eq
    rw [neg32_toNat, pack_toNat _ h31, pack_toNat _ h31]
    cases n
    · simp only [Bool.false_eq_true, if_false, Bool.not_false, if_true]; rw [if_pos h31]; omega
    · simp
  rw [this, unpack_pack _ hm]

theorem signBit_of_unpack {w : Word} {n : Bool} {k : ℕ} (h : unpack w = .fin n k) : signBit w = n := by
  obtain ⟨mag, hm, rfl, rfl⟩ := unpack_finite h
  exact signBit_pack _ (lt_trans hm (by decide))

theorem wordReal_of_unpack {w : Word} {n : Bool} {k : ℕ} (h : unpack w = .fin n k) :
    wordReal w = (signedUnits n k : ℝ) / 2 ^ 149 := by
  unfold wordReal
  rw [h]; rfl

/-- No rounding gives a NaN. -/
theorem unpack_roundTo_ne_nan (n : Bool) (a b : ℕ) : unpack (roundTo n a b) ≠ .nan := by
  unfold roundTo
  have : roundPattern a b ≤ infPattern := Nat.min_le_right _ _
  rcases Nat.lt_or_eq_of_le this with h | h
  · rw [unpack_pack _ h]; simp
  · rw [h]
    exact fun h => by rw [show pack n infPattern = infWord n from rfl, unpack_infWord] at h; cases h

end Sys2Proof.Machine
end

