-- ==== Sys2Proof/Laws/Host.lean ====
section
/-! SUPPORT. The address map (20_memory.md rule R60) offset by offset, and the STATUS and FILTER words as numbers. -/

namespace Sys2Proof.Machine

theorem inBufOffset_toNat {i : Nat} (h : i < 1024) : (inBufOffset i).toNat = 0x1000 + 4 * i := by
  simp only [inBufOffset, inBufAddr, inBufBase, BitVec.toNat_ofNat]; omega

theorem outBufOffset_toNat {i : Nat} (h : i < 1024) : (outBufOffset i).toNat = 0x2000 + 4 * i := by
  simp only [outBufOffset, outBufAddr, outBufBase, BitVec.toNat_ofNat]; omega

theorem tapOffset_toNat {i : Nat} (h : i < 1024) : (tapOffset i).toNat = 0x3000 + 4 * i := by
  simp only [tapOffset, tapAddr, tapsBase, BitVec.toNat_ofNat]; omega

theorem locate_misaligned {a : Offset} (h : a.toNat % 4 ≠ 0) : locate a = .misaligned := by
  unfold locate; exact if_pos h

theorem locate_inBuf {i : Nat} (h : i < 1024) : locate (inBufOffset i) = .inBuf i := by
  unfold locate
  simp only [inBufOffset_toNat h, inBufBase, outBufBase]
  rw [if_neg (by omega), if_neg (by omega), if_pos (by omega)]
  congr 1; omega

theorem locate_outBuf {i : Nat} (h : i < 1024) : locate (outBufOffset i) = .outBuf i := by
  unfold locate
  simp only [outBufOffset_toNat h, inBufBase, outBufBase, tapsBase]
  rw [if_neg (by omega), if_neg (by omega), if_neg (by omega), if_pos (by omega)]
  congr 1; omega

theorem locate_tap {i : Nat} (h : i ≤ 1000) : locate (tapOffset i) = .tap i := by
  unfold locate
  simp only [tapOffset_toNat (by omega : i < 1024), inBufBase, outBufBase, tapsBase, Config.lMax]
  rw [if_neg (by omega), if_neg (by omega), if_neg (by omega), if_neg (by omega), if_pos (by omega)]
  congr 1; omega

/-- The register map: a word-aligned offset below IN_BUF names the register at it, or nothing. -/
theorem locate_low {a : Offset} (h : a.toNat % 4 = 0) (h2 : a.toNat < 0x1000) :
    locate a = match registerAt (a.toNat / 4) with
      | some r => .register r
      | none => .reserved := by
  unfold locate
  dsimp only
  rw [if_neg (by omega), if_pos (show a.toNat < inBufBase from h2)]
  all_goals rfl

theorem registerAt_none {n : Nat} (h : 15 ≤ n) : registerAt n = none := by
  match n, h with
  | n + 15, _ => rfl

theorem locate_reserved {a : Offset} (h : a.toNat % 4 = 0)
    (h2 : (0x003C ≤ a.toNat ∧ a.toNat < 0x1000) ∨ 0x3FA4 ≤ a.toNat) : locate a = .reserved := by
  rcases h2 with ⟨h2, h3⟩ | h2
  · rw [locate_low h h3, registerAt_none (by omega)]
  · unfold locate
    dsimp only
    rw [if_neg (by omega), if_neg (show ¬a.toNat < inBufBase by simp only [inBufBase]; omega),
      if_neg (show ¬a.toNat < outBufBase by simp only [outBufBase]; omega),
      if_neg (show ¬a.toNat < tapsBase by simp only [tapsBase]; omega),
      if_neg (show ¬a.toNat < tapsBase + 4 * Config.lMax by simp only [tapsBase, Config.lMax]; omega)]

@[simp] theorem locate_register (r : Register) : locate r.offset = .register r := by cases r <;> decide

/-- Only an aligned offset names a location. -/
theorem locate_aligned {a : Offset} (h : locate a ≠ .misaligned) : a.toNat % 4 = 0 := by
  by_contra h2; exact h (locate_misaligned h2)

/-- A register's offset is the one its row of the register map gives. -/
theorem locate_register_iff {a : Offset} {r : Register} (h : locate a = .register r) : a = r.offset := by
  have h4 := locate_aligned (a := a) (by rw [h]; simp)
  by_cases h2 : a.toNat < 0x1000
  · rw [locate_low h4 h2] at h
    have key : ∀ n, registerAt n = some r → r.offset.toNat = 4 * n := by
      intro n hn
      unfold registerAt at hn
      split at hn <;> first | (cases hn; rfl) | (cases hn)
    split at h
    · rename_i r' hr
      injection h with h
      subst h
      rw [← BitVec.toNat_inj, key _ hr]; omega
    · cases h
  · unfold locate at h
    dsimp only at h
    rw [if_neg (by omega), if_neg (show ¬a.toNat < inBufBase from h2)] at h
    repeat' (split at h)
    all_goals cases h

theorem append_toNat {m n : Nat} (a : BitVec m) (b : BitVec n) : (a ++ b).toNat = a.toNat * 2 ^ n + b.toNat := by
  rw [BitVec.toNat_append, ← Nat.shiftLeft_add_eq_or_of_lt b.isLt, Nat.shiftLeft_eq]

/-- STATUS as a number (10_state.md rule R27). -/
theorem statusWord_toNat (s : State) :
    s.statusWord.toNat = s.lastOp.toNat * 2 ^ 16 + s.result.code.toNat * 2 ^ 8 + s.phase.code.toNat * 2 ^ 4 +
      s.ovr.toNat * 2 + s.busy.toNat := by
  simp only [State.statusWord, append_toNat, BitVec.toNat_ofBool, BitVec.toNat_ofNat]
  omega

/-- FILTER as a number (rule R23). -/
theorem filterWord_toNat (s : State) :
    s.filterWord.toNat = s.order.toNat * 2 ^ 16 + s.window.toNat * 2 ^ 4 + s.family.toNat := by
  simp only [State.filterWord, append_toNat, BitVec.toNat_ofNat]
  omega

theorem busy_none {s : State} (h : s.pending = none) : s.busy = false := by simp [State.busy, h]

theorem busy_some {s : State} {w : Word} (h : s.pending = some w) : s.busy = true := by simp [State.busy, h]

theorem hostRead_idle {s : State} (h : s.pending = none) (a : Offset) : s.hostRead a = s.readLocation (locate a) := by
  unfold State.hostRead; rw [busy_none h]; rfl

theorem hostRead_busy {s : State} {w : Word} (h : s.pending = some w) (a : Offset) :
    s.hostRead a = s.readBusy (locate a) := by
  unfold State.hostRead; rw [busy_some h]; rfl

theorem hostWrite_idle {s : State} (h : s.pending = none) (a : Offset) (v : Word) :
    s.hostWrite a v = s.writeLocation v (locate a) := by
  unfold State.hostWrite; rw [busy_none h]; rfl

theorem hostWrite_busy {s : State} (h : s.busy = true) (a : Offset) (v : Word) :
    s.hostWrite a v = s.dropWrite (locate a) := by
  unfold State.hostWrite; rw [h]; rfl

theorem statusWord_eq (s : State) :
    s.statusWord = BitVec.ofNat 32 (s.lastOp.toNat * 2 ^ 16 + s.result.code.toNat * 2 ^ 8 + s.phase.code.toNat * 2 ^ 4 +
      s.ovr.toNat * 2 + s.busy.toNat) := by
  rw [← statusWord_toNat, BitVec.ofNat_toNat, BitVec.setWidth_eq]

theorem hostRead_register {s : State} (h : s.pending = none) (r : Register) : s.hostRead r.offset = s.readRegister r := by
  rw [hostRead_idle h, locate_register]; rfl

theorem hostWrite_register {s : State} (h : s.pending = none) (r : Register) (v : Word) :
    s.hostWrite r.offset v = s.writeRegister v r := by
  rw [hostWrite_idle h, locate_register]; rfl

/-- The tap window (40_host_access.md rule R112). -/
theorem hostRead_tap {s : State} (h : s.pending = none) {i : Nat} (hi : i ≤ 1000) :
    s.hostRead (tapOffset i) = if s.phase.tapsReadable = true ∧ i < s.len then s.tapWord i else 0 := by
  rw [hostRead_idle h, locate_tap hi]; rfl

/-- In IDLE every location but IN_BUF and OUT_BUF reads as if no tap existed. -/
theorem hostRead_tap_idle {s : State} (h : s.pending = none) (hp : s.phase = .idle) {i : Nat} (hi : i ≤ 1000) :
    s.hostRead (tapOffset i) = 0 := by
  rw [hostRead_tap h hi, hp]; rfl

/-- A dropped write sets OVR, unless it is misaligned (rules R63, R107). -/
theorem hostWrite_dropped {s : State} (h : s.busy = true) (a : Offset) (v : Word) :
    s.hostWrite a v = if a.toNat % 4 = 0 then { s with ovr := true } else s := by
  rw [hostWrite_busy h]
  split
  · rename_i ha
    have : locate a ≠ .misaligned := by
      unfold locate
      dsimp only
      rw [if_neg (by omega)]
      repeat' split
      all_goals simp
    unfold State.dropWrite
    split <;> first | rfl | contradiction
  · rename_i ha
    rw [locate_misaligned ha]; rfl

end Sys2Proof.Machine
end

