-- ==== Sys2Proof/Laws/Invariant.lean ====
section
/-! SUPPORT. What keeps the parts of the invariant `State.Inv`: the RAM and the ring under the samples of a run, under the
clearing of START and under the synthesis of DESIGN. -/

namespace Sys2Proof.Machine

/-- A write of a word lists no byte outside what the memory listed and the word. -/
theorem mem_range_writeWord {m : Memory} {a : Nat} {v : Word} {P : Nat → Prop} (h : ∀ c ∈ m, P c.1)
    (ha : ∀ b, a ≤ b → b < a + 4 → P b) : ∀ c ∈ m.writeWord a v, P c.1 := by
  intro c hc
  rcases addr_writeWord hc with ⟨h1, h2⟩ | hk
  · exact ha _ h1 h2
  · exact h c hk

/-- The part of the invariant that a sample of a run keeps, for L taps. -/
structure Streaming (L : Nat) (t : State) : Prop where
  len : t.len = L
  cur : t.cur < L
  mem_wf : t.mem.wf = true
  ring_wf : t.ring.wf = true
  mem_range : ∀ c ∈ t.mem, ramOffset c.1
  ring_range : ∀ c ∈ t.ring, c.1 < 4 * Config.lMax
  taps : ∀ i < L, t.mem.holdsWord (tapAddr i) = true
  ring : ∀ i < L, t.ring.holdsWord (4 * i) = true

theorem Streaming.sample {L : Nat} {t : State} (h : Streaming L t) (hL : L ≤ 1001) {i : Nat} (hi : i < 1024) (x : Word) :
    Streaming L (sampleInto t i x) := by
  have hc := h.cur
  refine ⟨h.len, ?_, wf_writeWord h.mem_wf _ _, wf_writeWord h.ring_wf _ _, ?_, ?_,
    fun j hj => holdsWord_writeWord _ _ _ _ (h.taps j hj), fun j hj => holdsWord_writeWord _ _ _ _ (h.ring j hj)⟩
  · show (trueMod ((t.cur : Int) + 1) t.len).toNat < L
    rw [h.len, nextCur_eq _ _ (by omega)]
    exact Nat.mod_lt _ (by omega)
  · refine mem_range_writeWord h.mem_range fun b h1 h2 => ?_
    simp only [outBufAddr, outBufBase, ramOffset, inBufBase, tapsBase] at *
    omega
  · refine mem_range_writeWord (P := fun b => b < 4 * Config.lMax) h.ring_range fun b h1 h2 => ?_
    simp only [Config.lMax]
    omega

/-- The samples of a PROCESS or of a FLUSH keep it. -/
theorem Streaming.loop {L : Nat} {s : State} (h : Streaming L s) (hL : L ≤ 1001) {n : Nat} (hn : n ≤ 1024)
    (x : State → Nat → Word) : Streaming L (loopUp n (fun i t => sampleInto t i (x t i)) s) :=
  sampleLoop_induction (P := Streaming L) h fun _ hi _ v _ ht => ht.sample hL (by omega) v

theorem State.Inv.streaming {s : State} (h : s.Inv) (hp : s.phase = .stream) : Streaming s.len s :=
  ⟨rfl, h.cur_lt hp, h.mem_wf, h.ring_wf, h.mem_range, h.ring_range, h.taps_written, h.ring_written hp⟩

theorem clearRing_wf (L : Nat) {r : Memory} (h : r.wf = true) : (clearRing L r).wf = true :=
  loopUp_induction (P := fun _ (m : Memory) => m.wf = true) h fun _ _ _ hm => wf_writeWord hm _ _

theorem clearRing_range {L : Nat} (hL : L ≤ 1001) {r : Memory} (h : ∀ c ∈ r, c.1 < 4 * Config.lMax) :
    ∀ c ∈ clearRing L r, c.1 < 4 * Config.lMax := by
  refine loopUp_induction (P := fun _ (m : Memory) => ∀ c ∈ m, c.1 < 4 * Config.lMax) h fun i hi m hm => ?_
  refine mem_range_writeWord (P := fun b => b < 4 * Config.lMax) hm fun b h1 h2 => ?_
  simp only [Config.lMax]
  omega

theorem clearRing_holdsWord (L : Nat) (r : Memory) : ∀ i < L, (clearRing L r).holdsWord (4 * i) = true := by
  refine loopUp_induction (P := fun n (m : Memory) => ∀ i < n, m.holdsWord (4 * i) = true)
    (fun i hi => absurd hi (Nat.not_lt_zero _)) fun k _ m hm i hi => ?_
  by_cases h : i = k
  · subst h; exact holdsWord_writeWord_same _ _ _
  · exact holdsWord_writeWord _ _ _ _ (hm i (by omega))

theorem synthesize_wf (f : FilterSpec) (w : Window) {m : Memory} (h : m.wf = true) : (synthesize f w m).wf = true :=
  synthesize_induction (P := fun _ (m : Memory) => m.wf = true) h fun _ _ _ hm => wf_writeWord (wf_writeWord hm _ _) _ _

theorem synthesize_range {f : FilterSpec} (w : Window) {m : Memory} (hN : f.order ≤ 1000) (h : ∀ c ∈ m, ramOffset c.1) :
    ∀ c ∈ synthesize f w m, ramOffset c.1 := by
  refine synthesize_induction (P := fun _ (m : Memory) => ∀ c ∈ m, ramOffset c.1) h fun x hx m hm => ?_
  refine mem_range_writeWord (mem_range_writeWord hm fun b h1 h2 => ?_) fun b h1 h2 => ?_ <;>
    (simp only [tapAddr, ramOffset, inBufBase, tapsBase, Config.lMax] at *; omega)

/-- The invariant reads these fields alone. -/
theorem State.Inv.congr {s t : State} (h : s.Inv) (h1 : t.phase = s.phase) (h2 : t.tapCount = s.tapCount)
    (h3 : t.cur = s.cur) (h4 : t.outCount = s.outCount) (h5 : t.mem = s.mem) (h6 : t.ring = s.ring)
    (h7 : t.result ≠ .allocError) : t.Inv := by
  have hl : t.len = s.len := by unfold State.len; rw [h2]
  constructor
  · rw [h1, hl]; exact h.idle_iff
  · rw [hl]; exact h.len_legal
  · rw [h1, hl, h3]; exact h.cur_lt
  · rw [h4]; exact h.out_le
  · rw [h5]; exact h.mem_wf
  · rw [h6]; exact h.ring_wf
  · rw [h5]; exact h.mem_range
  · rw [h6]; exact h.ring_range
  · rw [hl, h5]; exact h.taps_written
  · rw [h1, hl, h6]; exact h.ring_written
  · exact h7

end Sys2Proof.Machine
end

