-- ==== Sys2Proof/Laws/PerInstr.lean ====
section
/-! SUPPORT. Statements about each command as syntax, one lemma per constructor of `Instr`. -/

namespace Sys2Proof.Laws.Encoding

/-- OP of each row of the opcode table (30_encoding.md rule R81). -/
def opcode : Instr → Nat
  | .nop => 0x00
  | .design => 0x01
  | .start => 0x02
  | .process _ => 0x03
  | .flush => 0x04
  | .abort => 0x05
  | .sreset => 0x06

/-- COUNT of each command: the operand of PROCESS, else 0 (rules R82, R84). -/
def operand : Instr → Nat
  | .nop => 0
  | .design => 0
  | .start => 0
  | .process n => n
  | .flush => 0
  | .abort => 0
  | .sreset => 0

/-- The word of a well-formed command has the command's OP in bits [7:0], 0 in RSV and its operand in COUNT (rule R84). -/
def Statement (i : Instr) : Prop :=
  i.WellFormed → (opField (encode i)).toNat = opcode i ∧ rsvField (encode i) = 0 ∧
    (countField (encode i)).toNat = operand i

theorem nop : Statement .nop := fun _ => by decide

theorem design : Statement .design := fun _ => by decide

theorem start : Statement .start := fun _ => by decide

theorem process (n : Nat) : Statement (.process n) := fun h => by
  have h : n < 2 ^ 16 := of_decide_eq_true h
  rw [rsvField_eq_zero_iff, opField_toNat, countField_toNat, encode_process_toNat h]
  show _ = 3 ∧ _ ∧ _ = n
  omega

theorem flush : Statement .flush := fun _ => by decide

theorem abort : Statement .abort := fun _ => by decide

theorem sreset : Statement .sreset := fun _ => by decide

end Sys2Proof.Laws.Encoding
end

