-- ==== Sys2Proof/Laws/Rounding.lean ====
section
/-! SUPPORT. Rounding once (`RoundsTo`) a value that is only known to lie between two others (00_scope.md rule R10). -/

namespace Sys2Proof.Machine

/-- `wordRat` is the real value. -/
theorem wordRat_cast (w : Word) : ((wordRat w : ℚ) : ℝ) = wordReal w := by
  unfold wordRat wordReal
  cases unpack w <;> simp [Num.toReal]

/-- Every value is a whole number of units of 2^-149. -/
theorem wordReal_units (w : Word) : ∃ z : ℤ, wordReal w = z / 2 ^ 149 := by
  unfold wordReal
  cases unpack w with
  | nan => exact ⟨0, by simp [Num.toReal]⟩
  | inf _ => exact ⟨0, by simp [Num.toReal]⟩
  | fin neg k => exact ⟨signedUnits neg k, rfl⟩

/-- A value lies on its nearest word's side of the midpoint with any other finite word. -/
theorem RoundsTo.le_mid {x : ℝ} {w v : Word} (h : RoundsTo x w) (hx : |x| < overflowBound) (hv : isFinite v = true) :
    (wordReal w < wordReal v → 2 * x ≤ wordReal w + wordReal v) ∧
    (wordReal v < wordReal w → wordReal w + wordReal v ≤ 2 * x) := by
  have h1 := h.nearest hx v hv
  refine ⟨fun hlt => ?_, fun hlt => ?_⟩ <;>
    rcases abs_cases (wordReal w - x) with ⟨e1, e2⟩ | ⟨e1, e2⟩ <;>
      rcases abs_cases (wordReal v - x) with ⟨e3, e4⟩ | ⟨e3, e4⟩ <;> linarith

/-- A value on a's side of the midpoint with v is as near to a as to v. -/
theorem nearest_of_mid {x : ℝ} {a v : ℝ} (h1 : a < v → 2 * x ≤ a + v) (h2 : v < a → a + v ≤ 2 * x) : |a - x| ≤ |v - x| := by
  rcases lt_trichotomy a v with h | h | h
  · have := h1 h
    rcases abs_cases (a - x) with ⟨e1, e2⟩ | ⟨e1, e2⟩ <;> rcases abs_cases (v - x) with ⟨e3, e4⟩ | ⟨e3, e4⟩ <;> linarith
  · rw [h]
  · have := h2 h
    rcases abs_cases (a - x) with ⟨e1, e2⟩ | ⟨e1, e2⟩ <;> rcases abs_cases (v - x) with ⟨e3, e4⟩ | ⟨e3, e4⟩ <;> linarith

/-- A value equally near to two different numbers is their midpoint. -/
theorem mid_of_equal {x a v : ℝ} (h : |v - x| = |a - x|) (hne : v ≠ a) : a + v = 2 * x := by
  rcases abs_eq_abs.1 h with h | h
  · exact absurd (by linarith) hne
  · linarith

/-- The overflow bound is far above the values of sine and cosine. -/
theorem two_lt_overflow : (2 : ℝ) < overflowBound := by unfold overflowBound; norm_num

/-- A value between two that round to one word rounds to it. -/
theorem rounds_of_both {L U x : ℝ} {w : Word} (hL : RoundsTo L w) (hU : RoundsTo U w) (h1 : L ≤ x) (h2 : x ≤ U)
    (bL : |L| ≤ 2) (bU : |U| ≤ 2) : RoundsTo x w := by
  have o := two_lt_overflow
  have bx : |x| ≤ 2 := abs_le.2 ⟨by linarith [(abs_le.1 bL).1], by linarith [(abs_le.1 bU).2]⟩
  have lt : ∀ y : ℝ, |y| ≤ 2 → |y| < overflowBound := fun y hy => lt_of_le_of_lt hy o
  refine ⟨?_, fun h => absurd h (not_le.2 (lt x bx)), fun _ => hL.finite (lt L bL), fun _ v hv => ?_,
      fun _ v hv he hne => ?_⟩
  · constructor
    · intro hs; linarith [hU.sign.1 hs]
    · intro hs; exact hL.sign.2 (by linarith)
  · exact nearest_of_mid (fun h => by linarith [(hU.le_mid (lt U bU) hv).1 h])
      (fun h => by linarith [(hL.le_mid (lt L bL) hv).2 h])
  · have hm := mid_of_equal he hne
    rcases lt_or_gt_of_ne hne with h | h
    · have : L = x := le_antisymm h1 (by linarith [(hL.le_mid (lt L bL) hv).2 h])
      subst this
      exact hL.even (lt _ bL) v hv he hne
    · have : U = x := le_antisymm (by linarith [(hU.le_mid (lt U bU) hv).1 h]) h2
      subst this
      exact hU.even (lt _ bU) v hv he hne

/-- The sign bit of a finite word and its value. -/
theorem value_of_sign {w : Word} (hw : isFinite w = true) :
    (signBit w = false → 0 ≤ wordReal w) ∧ (signBit w = true → wordReal w ≤ 0) := by
  obtain ⟨neg, k, h⟩ := (isFinite_iff w).1 hw
  obtain ⟨mag, hm, rfl, rfl⟩ := unpack_finite h
  have h31 : mag < 2 ^ 31 := lt_trans hm (by decide)
  rw [signBit_pack _ h31, wordReal_pack _ hm]
  have h0 : (0 : ℝ) ≤ unitsOf mag / 2 ^ 149 := by positivity
  cases neg
  · refine ⟨fun _ => ?_, fun h => by cases h⟩
    simpa using h0
  · refine ⟨fun h => (by cases h), fun _ => ?_⟩
    have : (if true = true then (-1 : ℝ) else 1) * (unitsOf mag : ℝ) / 2 ^ 149 = -(unitsOf mag / 2 ^ 149) :=
        by simp; ring
    rw [this]; linarith

/-- A value between two close ones that round to different words rounds to the word on its side of their midpoint. -/
theorem rounds_of_neighbours {L U x : ℝ} {lo hi : Word} (hL : RoundsTo L lo) (hU : RoundsTo U hi)
    (h1 : L ≤ x) (h2 : x ≤ U)
    (bL : |L| ≤ 2) (bU : |U| ≤ 2) (hlt : L < U) (hclose : U - L < 1 / 2 ^ 150) (hne : lo ≠ hi)
    (hx : 2 * x ≠ wordReal lo + wordReal hi) :
    RoundsTo x (if wordReal lo + wordReal hi < 2 * x then hi else lo) := by
  have o := two_lt_overflow
  have bx : |x| ≤ 2 := abs_le.2 ⟨by linarith [(abs_le.1 bL).1], by linarith [(abs_le.1 bU).2]⟩
  have lt : ∀ y : ℝ, |y| ≤ 2 → |y| < overflowBound := fun y hy => lt_of_le_of_lt hy o
  have fL := hL.finite (lt L bL)
  have fU := hU.finite (lt U bU)
  have pos : (0 : ℝ) < 2 ^ 149 := by positivity
  have hzero : isFinite 0x00000000 = true ∧ wordReal 0x00000000 = 0 := by
    refine ⟨by decide, ?_⟩
    have h3 : unpack 0x00000000 = .fin false 0 := by decide
    unfold wordReal; rw [h3]; simp [Num.toReal, signedUnits]
  -- a tiny word is a zero
  have tiny : ∀ (y : ℝ) (w : Word), RoundsTo y w → |y| ≤ 2 → |y| < 1 / 2 ^ 150 → wordReal w = 0 := by
    intro y w hw hb hy
    have h3 := hw.nearest (lt y hb) 0x00000000 hzero.1
    rw [hzero.2, zero_sub, abs_neg] at h3
    have h4 : |wordReal w| < 1 / 2 ^ 149 := by
      calc |wordReal w| = |(wordReal w - y) + y| := by congr 1; ring
        _ ≤ |wordReal w - y| + |y| := abs_add_le _ _
        _ < 1 / 2 ^ 150 + 1 / 2 ^ 150 := by linarith
        _ = 1 / 2 ^ 149 := by norm_num
    obtain ⟨z, hz⟩ := wordReal_units w
    rw [hz, abs_div, abs_of_pos pos, div_lt_div_iff_of_pos_right pos] at h4
    have : z = 0 := by
      have : |z| < 1 := by exact_mod_cast h4
      exact Int.abs_lt_one_iff.1 this
    rw [hz, this]; simp
  -- the values are in order
  have hab : wordReal lo ≤ wordReal hi := by
    by_contra hc
    push Not at hc
    have h3 := (hL.le_mid (lt L bL) fU).2 hc
    have h4 := (hU.le_mid (lt U bU) fL).1 hc
    linarith
  -- nothing lies between
  have hgap : ∀ v : Word, wordReal lo < wordReal v → wordReal v < wordReal hi → isFinite v = true → False := by
    intro v h3 h4 hv
    have h5 := (hL.le_mid (lt L bL) hv).1 h3
    have h6 := (hU.le_mid (lt U bU) hv).2 h4
    obtain ⟨z1, hz1⟩ := wordReal_units lo
    obtain ⟨z2, hz2⟩ := wordReal_units v
    obtain ⟨z3, hz3⟩ := wordReal_units hi
    have h7 : z1 + 1 ≤ z2 := by
      rw [hz1, hz2, div_lt_div_iff_of_pos_right pos] at h3
      exact_mod_cast h3
    have h8 : z2 + 1 ≤ z3 := by
      rw [hz2, hz3, div_lt_div_iff_of_pos_right pos] at h4
      exact_mod_cast h4
    have h9 : (z1 : ℝ) + 2 ≤ z3 := by exact_mod_cast (by omega : z1 + 2 ≤ z3)
    have h10 : wordReal hi - wordReal lo ≥ 2 / 2 ^ 149 := by
      rw [hz1, hz3, ← sub_div]; gcongr; linarith
    have : (2 : ℝ) / 2 ^ 149 = 4 * (1 / 2 ^ 150) := by norm_num
    linarith
  have habsx : L < 0 → 0 ≤ U → wordReal lo = 0 ∧ wordReal hi = 0 := by
    intro h3 h4
    refine ⟨tiny L lo hL bL ?_, tiny U hi hU bU ?_⟩
    · rw [abs_of_neg h3]; linarith
    · rw [abs_of_nonneg h4]; linarith
  rcases hab.lt_or_eq with hab | hab
  · -- neighbours with different values
    have hs : L < 0 → U < 0 := by
      intro h3; by_contra h4
      have := habsx h3 (not_lt.1 h4)
      linarith [this.1, this.2]
    split
    · rename_i hm
      refine ⟨⟨fun h => ?_, fun h => ?_⟩, fun h => absurd h (not_le.2 (lt x bx)), fun _ => fU,
          fun _ v hv => ?_, fun _ v hv he hne' => ?_⟩
      · linarith [hU.sign.1 h]
      · exact hU.sign.2 (hs (by linarith))
      · refine nearest_of_mid (fun h => by linarith [(hU.le_mid (lt U bU) hv).1 h]) (fun h => ?_)
        have : wordReal v ≤ wordReal lo := by by_contra hc; exact hgap v (not_le.1 hc) h hv
        linarith
      · have hmid := mid_of_equal he hne'
        rcases lt_or_gt_of_ne hne' with h | h
        · have : wordReal v ≤ wordReal lo := by by_contra hc; exact hgap v (not_le.1 hc) h hv
          linarith
        · have : U = x := le_antisymm (by linarith [(hU.le_mid (lt U bU) hv).1 h]) h2
          subst this
          exact hU.even (lt _ bU) v hv he hne'
    · rename_i hm
      have hm' : 2 * x < wordReal lo + wordReal hi := lt_of_le_of_ne (not_lt.1 hm) hx
      refine ⟨⟨fun h => ?_, fun h => ?_⟩, fun h => absurd h (not_le.2 (lt x bx)), fun _ => fL,
          fun _ v hv => ?_, fun _ v hv he hne' => ?_⟩
      · linarith [hs (hL.sign.1 h)]
      · exact hL.sign.2 (by linarith)
      · refine nearest_of_mid (fun h => ?_) (fun h => by linarith [(hL.le_mid (lt L bL) hv).2 h])
        have : wordReal hi ≤ wordReal v := by by_contra hc; exact hgap v h (not_le.1 hc) hv
        linarith
      · have hmid := mid_of_equal he hne'
        rcases lt_or_gt_of_ne hne' with h | h
        · have : L = x := le_antisymm h1 (by linarith [(hL.le_mid (lt L bL) hv).2 h])
          subst this
          exact hL.even (lt _ bL) v hv he hne'
        · have : wordReal hi ≤ wordReal v := by by_contra hc; exact hgap v h (not_le.1 hc) hv
          linarith
  · -- the two zeros
    obtain ⟨s, k, eL⟩ := (isFinite_iff lo).1 fL
    obtain ⟨t, l, eU⟩ := (isFinite_iff hi).1 fU
    obtain ⟨m1, hm1, rfl, -⟩ := unpack_finite eL
    obtain ⟨m2, hm2, rfl, -⟩ := unpack_finite eU
    have s1 := hL.sign
    have s2 := hU.sign
    have v1 := value_of_sign fL
    have v2 := value_of_sign fU
    rw [signBit_pack _ (lt_trans hm1 (by decide))] at s1 v1
    rw [signBit_pack _ (lt_trans hm2 (by decide))] at s2 v2
    have hst : s = true ∧ t = false := by
      have hns : s ≠ t := by
        rintro rfl
        apply hne
        rw [wordReal_pack _ hm1, wordReal_pack _ hm2] at hab
        have : unitsOf m1 = unitsOf m2 := by
          rw [div_left_inj' (by positivity)] at hab
          cases s <;> simp at hab <;> exact_mod_cast hab
        rw [← roundPattern_unitsOf hm1, ← roundPattern_unitsOf hm2, this]
      cases s <;> cases t
      · exact absurd rfl hns
      · have h3 := s2.1 rfl
        have h4 : ¬L < 0 := fun h => by have := s1.2 h; cases this
        exact absurd (lt_trans hlt h3) h4
      · exact ⟨rfl, rfl⟩
      · exact absurd rfl hns
    obtain ⟨rfl, rfl⟩ := hst
    have z1 : wordReal (pack true m1) = 0 := le_antisymm (v1.2 rfl) (by rw [hab]; exact v2.1 rfl)
    have z2 : wordReal (pack false m2) = 0 := by rw [← hab, z1]
    have mag0 : ∀ {b : Bool} {m : ℕ}, m < infPattern → wordReal (pack b m) = 0 → m % 2 = 0 := by
      intro b m hm h3
      rw [wordReal_pack _ hm, div_eq_zero_iff] at h3
      have h4 := h3.resolve_right (by positivity)
      have h5 : unitsOf m = 0 := by
        cases b <;> simp at h4 <;> exact h4
      have h6 := roundPattern_unitsOf hm
      rw [h5] at h6
      have h7 : roundPattern 0 1 = 0 := by decide
      omega
    have near : ∀ v : Word, isFinite v = true → |0 - x| ≤ |wordReal v - x| := fun v hv => by
      refine nearest_of_mid (fun h => ?_) (fun h => ?_)
      · have := (hU.le_mid (lt U bU) hv).1 (by rw [z2]; exact h)
        rw [z2] at this; linarith
      · have := (hL.le_mid (lt L bL) hv).2 (by rw [z1]; exact h)
        rw [z1] at this; linarith
    rw [z1, z2, add_zero] at hx ⊢
    split
    · rename_i hm
      refine ⟨?_, fun h => absurd h (not_le.2 (lt x bx)), fun _ => fU,
          fun _ v hv => by rw [z2]; exact near v hv, fun _ v hv he hne' => ?_⟩
      · rw [signBit_pack _ (lt_trans hm2 (by decide))]
        exact ⟨fun h => (by cases h), fun h => by linarith⟩
      · rw [pack_lsb _ (lt_trans hm2 (by decide)), mag0 hm2 z2]; rfl
    · rename_i hm
      refine ⟨?_, fun h => absurd h (not_le.2 (lt x bx)), fun _ => fL,
          fun _ v hv => by rw [z1]; exact near v hv, fun _ v hv he hne' => ?_⟩
      · rw [signBit_pack _ (lt_trans hm1 (by decide))]
        exact ⟨fun _ => by have := lt_of_le_of_ne (not_lt.1 hm) hx; linarith, fun _ => rfl⟩
      · rw [pack_lsb _ (lt_trans hm1 (by decide)), mag0 hm1 z1]; rfl

/-- The exact value 0 rounds to +0. -/
theorem roundsTo_zero : RoundsTo 0 (pack false 0) := by
  have h : unpack (pack false 0) = .fin false 0 := unpack_zero false
  have hv : wordReal (pack false 0) = 0 := by unfold wordReal; rw [h]; simp [Num.toReal, signedUnits]
  refine ⟨by rw [signBit_pack _ (by decide)]; simp, fun h => ?_, fun _ => by decide, fun _ v _ => ?_,
      fun _ v _ _ _ => by decide⟩
  · rw [abs_zero] at h; linarith [two_lt_overflow]
  · rw [hv]; simp

/-- `roundScaled` rounds n·2^-p once. -/
theorem roundScaled_rounds (p : ℕ) (n : ℤ) : RoundsTo ((n : ℝ) / 2 ^ p) (roundScaled p n) := by
  unfold roundScaled
  rcases eq_or_ne n 0 with rfl | hn
  · simpa [roundTo_zero] using roundsTo_zero
  · have h := roundTo_rounds (decide (n < 0)) (n.natAbs * 2 ^ 149) (2 ^ p) (by positivity) (by positivity)
    convert h using 1
    push_cast
    rw [Nat.cast_natAbs, Int.cast_abs]
    rcases lt_or_ge n 0 with h0 | h0
    · have h1 : (n : ℝ) < 0 := by exact_mod_cast h0
      rw [abs_of_neg h1]; simp [h0]; field_simp; norm_num
    · have h1 : (0 : ℝ) ≤ n := by exact_mod_cast h0
      rw [abs_of_nonneg h1]; simp [not_lt.2 h0]; field_simp; norm_num

end Sys2Proof.Machine
end

