-- ==== Sys2Proof/Laws/Stream.lean ====
section
/-! SUPPORT. What one sample and one block of samples do to the ring and to OUT_BUF (42_convolver.md rules R171 to R176). -/

namespace Sys2Proof.Machine

/-- The output of one sample, its ring indices as natural numbers: the word just written for k = 0, else the k-th newest of
the ring before it. -/
theorem sampleOut_eq {s : State} (hc : s.cur < s.len) (x : Word) :
    sampleOut s x = postGain (loopUp s.len (fun k acc =>
      add32 acc (mul32 (s.tapWord k) (if k = 0 then x else s.ringWord ((s.cur + s.len - k) % s.len)))) zero32) s.gain := by
  unfold sampleOut State.convolve
  congr 1
  refine loopUp_congr _ fun k hk acc => ?_
  have e : (s.setRing s.cur x).len = s.len := rfl
  have e2 : (s.setRing s.cur x).cur = s.cur := rfl
  have e3 : (s.setRing s.cur x).tapWord k = s.tapWord k := rfl
  rw [e] at hk
  rw [e, e2, e3]
  congr 2
  rw [ringWord_setRing, ringSlot_eq hc hk]
  by_cases h0 : k = 0
  · subst h0; simp
  · rw [if_neg h0]
    split
    · rw [if_neg (by omega), show s.cur + s.len - k = s.cur - k + s.len by omega, Nat.add_mod_right,
        Nat.mod_eq_of_lt (by omega)]
    · rw [if_neg (by omega), Nat.mod_eq_of_lt (by omega)]

/-- The state after the first n samples x_0, x_1, … of a block. -/
def blockState (x : Nat → Word) (n : Nat) (s : State) : State := loopUp n (fun i t => sampleInto t i (x i)) s

theorem blockState_succ (x : Nat → Word) (n : Nat) (s : State) :
    blockState x (n + 1) s = sampleInto (blockState x n s) n (x n) := rfl

theorem blockState_frame (x : Nat → Word) (n : Nat) (s : State) :
    ∃ m r c, blockState x n s = { s with mem := m, ring := r, cur := c } :=
  sampleLoop_frame n (fun _ i => x i) s

theorem blockState_len (x : Nat → Word) (n : Nat) (s : State) : (blockState x n s).len = s.len := by
  obtain ⟨m, r, c, h⟩ := blockState_frame x n s
  rw [h]; rfl

theorem blockState_gain (x : Nat → Word) (n : Nat) (s : State) : (blockState x n s).gain = s.gain := by
  obtain ⟨m, r, c, h⟩ := blockState_frame x n s
  rw [h]

theorem blockState_powerOns (x : Nat → Word) (n : Nat) (s : State) : (blockState x n s).powerOns = s.powerOns := by
  obtain ⟨m, r, c, h⟩ := blockState_frame x n s
  rw [h]

theorem blockState_tapWord (x : Nat → Word) {n : Nat} (hn : n ≤ 1024) (s : State) (k : Nat) :
    (blockState x n s).tapWord k = s.tapWord k := by
  induction n with
  | zero => rfl
  | succ n ih =>
    rw [blockState_succ, ← ih (by omega)]
    exact tapWord_setOut (sampleState (blockState x n s) (x n)) k _ (by omega)

theorem blockState_inWord (x : Nat → Word) (n : Nat) (s : State) {k : Nat} (hk : k < 1024) :
    (blockState x n s).inWord k = s.inWord k := by
  induction n with
  | zero => rfl
  | succ n ih =>
    rw [blockState_succ, ← ih]
    exact inWord_setOut (sampleState (blockState x n s) (x n)) _ hk

theorem blockState_cur (x : Nat → Word) (n : Nat) {s : State} (hc : s.cur < s.len) :
    (blockState x n s).cur = (s.cur + n) % s.len := by
  induction n with
  | zero => exact (Nat.mod_eq_of_lt hc).symm
  | succ n ih =>
    show (trueMod (((blockState x n s).cur : Int) + 1) (blockState x n s).len).toNat = _
    rw [blockState_len, nextCur_eq _ _ (by omega), ih, Nat.mod_add_mod, Nat.add_assoc]

/-- The ring after n samples: the k-th newest is a sample of the block, or what the ring held before it. -/
theorem blockState_ring (x : Nat → Word) (n : Nat) {s : State} (hc : s.cur < s.len) (k : Nat) (h1 : 1 ≤ k) (hk : k ≤ s.len) :
    (blockState x n s).ringWord ((s.cur + n + s.len - k) % s.len) =
      if k ≤ n then x (n - k) else s.ringWord ((s.cur + n + s.len - k) % s.len) := by
  induction n generalizing k with
  | zero => rw [if_neg (by omega)]; rfl
  | succ n ih =>
    have hs : (blockState x (n + 1) s).ringWord ((s.cur + (n + 1) + s.len - k) % s.len) =
        if (s.cur + n) % s.len = (s.cur + (n + 1) + s.len - k) % s.len then x n
        else (blockState x n s).ringWord ((s.cur + (n + 1) + s.len - k) % s.len) := by
      have := ringWord_setRing (blockState x n s) ((blockState x n s).cur) ((s.cur + (n + 1) + s.len - k) % s.len) (x n)
      rw [blockState_cur x n hc] at this
      rw [← this, blockState_succ, sampleInto_eq]
      simp only [State.ringWord, State.setRing, blockState_cur x n hc]
    rw [hs]
    by_cases hk1 : k = 1
    · subst hk1
      rw [if_pos (by rw [show s.cur + (n + 1) + s.len - 1 = s.cur + n + s.len by omega, Nat.add_mod_right]),
        if_pos (by omega), Nat.add_sub_cancel]
    · have e : s.cur + (n + 1) + s.len - k = s.cur + n + s.len - (k - 1) := by omega
      have hne : (s.cur + n) % s.len ≠ (s.cur + (n + 1) + s.len - k) % s.len := by
        intro h
        have h2 : (s.cur + n + s.len - (k - 1)) + (k - 1) = s.cur + n + s.len := by omega
        have h3 : (s.cur + n + s.len) % s.len = (s.cur + n + s.len - (k - 1)) % s.len := by
          rw [Nat.add_mod_right, h, e]
        have h4 : s.len ∣ (s.cur + n + s.len) - (s.cur + n + s.len - (k - 1)) :=
          (Nat.modEq_iff_dvd' (by omega)).1 h3.symm
        rw [show (s.cur + n + s.len) - (s.cur + n + s.len - (k - 1)) = k - 1 by omega] at h4
        have := Nat.le_of_dvd (by omega) h4
        omega
      rw [if_neg hne, e, ih (k - 1) (by omega) (by omega)]
      by_cases hkn : k ≤ n + 1
      · rw [if_pos (by omega), if_pos hkn]; congr 1; omega
      · rw [if_neg (by omega), if_neg hkn]

/-- Output n of a block, from the taps, the block and the history before it. -/
theorem sampleOut_blockState (x : Nat → Word) {n : Nat} (hn : n ≤ 1024) {s : State} (hc : s.cur < s.len) :
    sampleOut (blockState x n s) (x n) = s.blockOut x n := by
  have hl := blockState_len x n s
  have hcur := blockState_cur x n hc
  rw [sampleOut_eq (by rw [hl, hcur]; exact Nat.mod_lt _ (by omega))]
  unfold State.blockOut
  rw [hl, hcur, blockState_gain]
  congr 1
  refine loopUp_congr _ fun k hk acc => ?_
  rw [blockState_tapWord x hn]
  congr 2
  unfold State.history
  by_cases h0 : k = 0
  · subst h0; simp
  · rw [if_neg h0]
    have e : ((s.cur + n) % s.len + s.len - k) % s.len = (s.cur + n + s.len - k) % s.len := by
      have hm := Nat.mod_add_div (s.cur + n) s.len
      rw [show s.cur + n + s.len - k = ((s.cur + n) % s.len + s.len - k) + s.len * ((s.cur + n) / s.len) by omega,
        Nat.add_mul_mod_self_left]
    rw [e, blockState_ring x n hc k (by omega) (by omega)]

theorem sampleState_outWord (s : State) (x : Word) (j : Nat) : (sampleState s x).outWord j = s.outWord j :=
  ramWord_congr rfl rfl _

theorem sampleInto_outWord (s : State) (i j : Nat) (x : Word) :
    (sampleInto s i x).outWord j = if i = j then sampleOut s x else s.outWord j := by
  rw [sampleInto, outWord_setOut, sampleState_outWord]

/-- Every OUT_BUF word a block writes holds its output. -/
theorem blockState_outWord (x : Nat → Word) {n : Nat} (hn : n ≤ 1024) {s : State} (hc : s.cur < s.len) (j : Nat) (hj : j < n) :
    (blockState x n s).outWord j = s.blockOut x j := by
  induction n with
  | zero => exact absurd hj (Nat.not_lt_zero _)
  | succ n ih =>
    rw [blockState_succ, sampleInto_outWord]
    split
    · rename_i h
      rw [← h]
      exact sampleOut_blockState x (Nat.le_of_succ_le hn) hc
    · exact ih (by omega) (by omega)

/-- The samples of PROCESS are a block: no output overwrites an input (20_memory.md rule R73). -/
theorem processSamples_eq {n : Nat} (hn : n ≤ 1024) (s : State) : processSamples n s = blockState s.inWord n s := by
  induction n with
  | zero => rw [processSamples, blockState, loopUp_zero, loopUp_zero]
  | succ n ih =>
    have h : processSamples (n + 1) s = sampleInto (processSamples n s) n ((processSamples n s).inWord n) := by
      unfold processSamples
      rw [loopUp_succ]
    rw [h, ih (by omega), blockState_succ, blockState_inWord _ _ _ (by omega)]

/-- The samples of FLUSH are a block of zeros. -/
theorem flushSamples_eq (n : Nat) (s : State) : flushSamples n s = blockState (fun _ => zero32) n s := rfl

end Sys2Proof.Machine
end

