-- ==== Sys2Proof/Laws/Runs.lean ====
section
/-! SUPPORT. What the host's loading of IN_BUF does, the streams of samples, and the words PROCESS and FLUSH leave in
OUT_BUF. -/

namespace Sys2Proof.Machine

theorem processEffect_outWord {n : Nat} (hn : n ≤ 1024) {s : State} (hc : s.cur < s.len) (i : Nat) (hi : i < n) :
    (processEffect n s).outWord i = s.blockOut s.inWord i := by
  rw [← blockState_outWord s.inWord hn hc i hi, ← processSamples_eq hn, processEffect_eq hn]
  have hp : (processSamples n s).powerOns = s.powerOns := by rw [processSamples_eq hn, blockState_powerOns]
  simp only [State.outWord, State.ramWord, hp]

theorem flushEffect_outWord {s : State} (hL : s.len ≤ 1024) (hc : s.cur < s.len) (i : Nat) (hi : i < s.len) :
    (flushEffect s).outWord i = s.blockOut (fun _ => zero32) i := by
  rw [← blockState_outWord (fun _ => zero32) hL hc i hi, ← flushSamples_eq, flushEffect_eq]
  have hp : (flushSamples s.len s).powerOns = s.powerOns := by rw [flushSamples_eq, blockState_powerOns]
  simp only [State.outWord, State.ramWord, hp]

theorem sampleAt_append_left (p b : List Word) {m : Nat} (h : m < p.length) : sampleAt (p ++ b) m = sampleAt p m := by
  unfold sampleAt; rw [List.getD_append _ _ _ _ h]

theorem sampleAt_append_right (p b : List Word) {m : Nat} (h : p.length ≤ m) :
    sampleAt (p ++ b) m = sampleAt b (m - p.length) := by
  unfold sampleAt; rw [List.getD_append_right _ _ _ _ h]

/-- Output j depends on the first `len` taps and the samples up to j alone. -/
theorem closedOut_congr {len : Nat} {taps taps' : Nat → Word} {gain : Word} {x x' : Nat → Word} {j : Nat}
    (ht : ∀ k < len, taps k = taps' k) (hx : ∀ m ≤ j, x m = x' m) :
    closedOut len taps gain x j = closedOut len taps' gain x' j := by
  unfold closedOut closedAcc
  congr 1
  refine loopUp_congr _ fun k hk a => ?_
  rw [ht k hk]
  by_cases h : k ≤ j
  · rw [if_pos h, if_pos h, hx _ (by omega)]
  · rw [if_neg h, if_neg h]

theorem loadInputFrom_frame (i : Nat) (xs : List Word) (t : State) :
    ∃ m, loadInputFrom i xs t = { t with mem := m } := by
  induction xs generalizing i t with
  | nil => exact ⟨t.mem, rfl⟩
  | cons x xs ih =>
    obtain ⟨m, hm⟩ := ih (i + 1) (t.setIn i x)
    exact ⟨m, by show loadInputFrom (i + 1) xs (t.setIn i x) = _; rw [hm]; rfl⟩

theorem loadInputFrom_tapWord (i : Nat) (xs : List Word) (t : State) (h : i + xs.length ≤ 1024) (k : Nat) :
    (loadInputFrom i xs t).tapWord k = t.tapWord k := by
  induction xs generalizing i t with
  | nil => rfl
  | cons x xs ih =>
    simp only [List.length_cons] at h
    show (loadInputFrom (i + 1) xs (t.setIn i x)).tapWord k = _
    rw [ih _ _ (by omega), tapWord_setIn _ _ _ (by omega)]

theorem loadInputFrom_inWord (i : Nat) (xs : List Word) (t : State) (k : Nat) :
    (loadInputFrom i xs t).inWord k = if i ≤ k ∧ k < i + xs.length then sampleAt xs (k - i) else t.inWord k := by
  induction xs generalizing i t with
  | nil => rw [if_neg (by simp)]; rfl
  | cons x xs ih =>
    show (loadInputFrom (i + 1) xs (t.setIn i x)).inWord k = _
    rw [ih, inWord_setIn]
    simp only [List.length_cons]
    by_cases h1 : i = k
    · subst h1
      rw [if_neg (by omega), if_pos rfl, if_pos (by omega)]
      simp [sampleAt]
    · rw [if_neg h1]
      by_cases h2 : i + 1 ≤ k ∧ k < i + 1 + xs.length
      · rw [if_pos h2, if_pos (by omega), show k - i = (k - (i + 1)) + 1 by omega]
        rfl
      · rw [if_neg h2, if_neg (by omega)]

/-- The words the host reads back, from what each of them is. -/
theorem outputs_eq (t : State) (n : Nat) (h : t.outCount.toNat = n) (f : Nat → Word) (hf : ∀ i < n, t.outWord i = f i) :
    t.outputs = (List.range n).map f := by
  unfold State.outputs
  rw [h]
  exact List.map_congr_left fun i hi => hf i (List.mem_range.1 hi)

end Sys2Proof.Machine
end

