-- ==== Sys2Proof/Laws/Trig.lean ====
section
/-! SUPPORT. The bounds of `sin32` and `cos32` hold: `circlePoint` lies within `trigRadius` of the exact point of the unit
circle (00_scope.md rule R10). -/

namespace Sys2Proof.Machine

/-- The complex number of a fixed-point pair. -/
noncomputable def fixedComplex (p : ℕ) (z : ℤ × ℤ) : ℂ := ⟨(z.1 : ℝ) / 2 ^ p, (z.2 : ℝ) / 2 ^ p⟩

/-- The exact angle of an argument of `units` units, and of its halved form. -/
noncomputable def angleReal (units : ℕ) : ℝ := (units : ℝ) / 2 ^ 149

/-- Rounding a fixed-point number down loses less than one unit. -/
theorem shift_error (p : ℕ) (n : ℤ) : |((n >>> p : ℤ) : ℝ) / 2 ^ p - (n : ℝ) / 2 ^ p / 2 ^ p| ≤ 1 / 2 ^ p := by
  have hp : (0 : ℝ) < 2 ^ p := by positivity
  have h1 : ((2 ^ p : ℕ) : ℤ) * (n / ((2 ^ p : ℕ) : ℤ)) + n % ((2 ^ p : ℕ) : ℤ) = n := Int.mul_ediv_add_emod _ _
  have h2 : 0 ≤ n % ((2 ^ p : ℕ) : ℤ) := Int.emod_nonneg _ (by positivity)
  have h3 : n % ((2 ^ p : ℕ) : ℤ) < ((2 ^ p : ℕ) : ℤ) := Int.emod_lt_of_pos _ (by positivity)
  rw [Int.shiftRight_eq_div_pow]
  set q := n / ((2 ^ p : ℕ) : ℤ)
  set r := n % ((2 ^ p : ℕ) : ℤ)
  have hn : (n : ℝ) = 2 ^ p * q + r := by rw [← h1]; push_cast; ring
  have hr : (0 : ℝ) ≤ r := by exact_mod_cast h2
  have hr' : (r : ℝ) ≤ 2 ^ p := by have := h3.le; exact_mod_cast this
  have : (q : ℝ) / 2 ^ p - (n : ℝ) / 2 ^ p / 2 ^ p = -(r / 2 ^ p / 2 ^ p) := by rw [hn]; field_simp; ring
  rw [this, abs_neg, abs_of_nonneg (by positivity)]
  rw [div_div, div_le_div_iff₀ (by positivity) hp]
  nlinarith

theorem natDiv_error (a b : ℕ) (hb : 0 < b) : |((a / b : ℕ) : ℝ) - (a : ℝ) / b| ≤ 1 := by
  have hb' : (0 : ℝ) < b := by exact_mod_cast hb
  have h1 : ((a / b : ℕ) : ℝ) ≤ (a : ℝ) / b := Nat.cast_div_le
  have h2 : (a : ℝ) / b < ((a / b : ℕ) : ℝ) + 1 := by
    rw [div_lt_iff₀ hb', mul_comm]; exact_mod_cast Nat.lt_mul_div_succ a hb
  rw [abs_le]; constructor <;> linarith

theorem norm_le_of_parts {z : ℂ} {u : ℝ} (h1 : |z.re| ≤ u) (h2 : |z.im| ≤ u) : ‖z‖ ≤ 2 * u :=
  (Complex.norm_le_abs_re_add_abs_im z).trans (by linarith)

/-- One doubling squares the point, up to two units. -/
theorem doubleAngle_error (p : ℕ) (z : ℤ × ℤ) :
    ‖fixedComplex p (doubleAngle p z) - fixedComplex p z ^ 2‖ ≤ 2 * (1 / 2 ^ p) := by
  apply norm_le_of_parts
  · have := shift_error p (z.1 * z.1 - z.2 * z.2)
    simp only [fixedComplex, doubleAngle, pow_two, Complex.sub_re, Complex.mul_re]
    convert this using 2
    push_cast; ring
  · have := shift_error p (2 * z.1 * z.2)
    simp only [fixedComplex, doubleAngle, pow_two, Complex.sub_im, Complex.mul_im]
    convert this using 2
    push_cast; ring

/-- The error bound of one doubling (y/(1−y) with y doubled). -/
theorem ratio_step {a y : ℝ} (ha : 0 ≤ a) (hy : 0 ≤ y) (h2 : 2 * y < 1) (h : a ≤ y / (1 - y)) :
    a * (2 + a) ≤ 2 * y / (1 - 2 * y) := by
  have h1 : 0 < 1 - y := by linarith
  have h3 : 0 < 1 - 2 * y := by linarith
  have : a * (2 + a) ≤ y / (1 - y) * (2 + y / (1 - y)) := by gcongr
  refine this.trans ?_
  have e : y / (1 - y) * (2 + y / (1 - y)) = y * (2 - y) / (1 - y) ^ 2 := by field_simp; ring
  rw [e, div_le_div_iff₀ (by positivity) h3]
  nlinarith [mul_nonneg hy hy, mul_nonneg (mul_nonneg hy hy) hy]

/-- n doublings of a point near e^(iθ) give a point near e^(i·2^n·θ). -/
theorem doubleAngles_error (p n : ℕ) (z : ℤ × ℤ) (θ y : ℝ) (hy : 0 ≤ y) (hn : 2 ^ n * y < 1)
    (h : ‖fixedComplex p z - Complex.exp (θ * Complex.I)‖ + 2 * (1 / 2 ^ p) ≤ y / (1 - y)) :
    ‖fixedComplex p (doubleAngles p n z) - Complex.exp ((2 ^ n * θ : ℝ) * Complex.I)‖ + 2 * (1 / 2 ^ p) ≤
      2 ^ n * y / (1 - 2 ^ n * y) := by
  induction n generalizing z θ y with
  | zero => simpa [doubleAngles] using h
  | succ n ih =>
    have hpow : (2 : ℝ) ^ (n + 1) * y = 2 ^ n * (2 * y) := by ring
    have h2y : 2 * y < 1 := by
      have : (1 : ℝ) ≤ 2 ^ n := one_le_pow₀ (by norm_num)
      nlinarith
    rw [hpow] at hn ⊢
    have hθ : (2 : ℝ) ^ (n + 1) * θ = 2 ^ n * (2 * θ) := by ring
    rw [hθ]
    refine ih (doubleAngle p z) (2 * θ) (2 * y) (by linarith) hn ?_
    set e := Complex.exp (θ * Complex.I)
    have he : Complex.exp (((2 * θ : ℝ) : ℂ) * Complex.I) = e ^ 2 := by
      rw [← Complex.exp_nat_mul]; congr 1; push_cast; ring
    have hnorm : ‖e‖ = 1 := Complex.norm_exp_ofReal_mul_I θ
    rw [he]
    set w := fixedComplex p z
    set u : ℝ := 1 / 2 ^ p
    have hu : 0 ≤ u := by positivity
    have h1 : ‖fixedComplex p (doubleAngle p z) - e ^ 2‖ ≤ 2 * u + ‖w - e‖ * (‖w - e‖ + 2) := by
      have hsq : w ^ 2 - e ^ 2 = (w - e) * (w - e + 2 * e) := by ring
      calc ‖fixedComplex p (doubleAngle p z) - e ^ 2‖
          = ‖(fixedComplex p (doubleAngle p z) - w ^ 2) + (w ^ 2 - e ^ 2)‖ := by congr 1; ring
        _ ≤ ‖fixedComplex p (doubleAngle p z) - w ^ 2‖ + ‖w ^ 2 - e ^ 2‖ := norm_add_le _ _
        _ ≤ 2 * u + ‖w - e‖ * (‖w - e‖ + 2) := by
            gcongr
            · exact doubleAngle_error p z
            · rw [hsq, norm_mul]
              gcongr
              refine (norm_add_le _ _).trans ?_
              rw [norm_mul, hnorm]; simp
    have h3 := ratio_step (a := ‖w - e‖ + 2 * u) (by positivity) hy h2y h
    have hw := norm_nonneg (w - e)
    nlinarith

/-- The third-order start of the series. -/
theorem smallAngle_error (p T : ℕ) (t : ℝ) (ht : t = (T : ℝ) / 2 ^ p) (ht1 : t ≤ 1) :
    ‖fixedComplex p (smallAngle p T) - Complex.exp (t * Complex.I)‖ ≤ t ^ 4 / 16 + 2 * (1 / 2 ^ p) := by
  have ht0 : 0 ≤ t := by rw [ht]; positivity
  have hp : (0 : ℝ) < 2 ^ p := by positivity
  set S : ℂ := ⟨1 - t ^ 2 / 2, t - t ^ 3 / 6⟩
  have hS : ‖Complex.exp (t * Complex.I) - S‖ ≤ t ^ 4 / 16 := by
    have hn : ‖(t * Complex.I : ℂ)‖ = t := by simp [abs_of_nonneg ht0]
    have h := Complex.exp_bound (x := t * Complex.I) (by rw [hn]; exact ht1) (n := 4) (by norm_num)
    rw [hn] at h
    have hsum : ∑ m ∈ Finset.range 4, (t * Complex.I : ℂ) ^ m / (m.factorial : ℂ) = S := by
      simp only [Finset.sum_range_succ, Finset.range_zero, Finset.sum_empty, Nat.factorial]
      apply Complex.ext
      · simp [S, pow_succ]; ring
      · simp [S, pow_succ]; ring
    rw [hsum] at h
    refine h.trans ?_
    have : ((Nat.succ 4 : ℕ) : ℝ) * (((Nat.factorial 4 : ℕ) : ℝ) * (4 : ℕ))⁻¹ ≤ 1 / 16 := by norm_num [Nat.factorial]
    have h4 : 0 ≤ t ^ 4 := by positivity
    nlinarith
  have hZ : ‖fixedComplex p (smallAngle p T) - S‖ ≤ 2 * (1 / 2 ^ p) := by
    apply norm_le_of_parts
    · have h := natDiv_error (T * T) (2 ^ (p + 1)) (by positivity)
      have e : (fixedComplex p (smallAngle p T) - S).re =
          -((((T * T / 2 ^ (p + 1) : ℕ) : ℝ) - ((T * T : ℕ) : ℝ) / ((2 ^ (p + 1) : ℕ) : ℝ)) / 2 ^ p) := by
        simp only [fixedComplex, smallAngle, S, Complex.sub_re, ht]
        generalize T * T / 2 ^ (p + 1) = q
        push_cast
        field_simp
        ring
      rw [e, abs_neg, abs_div, abs_of_pos hp]
      gcongr
    · have h := natDiv_error (T * T * T) (6 * 2 ^ (2 * p)) (by positivity)
      have e : (fixedComplex p (smallAngle p T) - S).im =
          -((((T * T * T / (6 * 2 ^ (2 * p)) : ℕ) : ℝ) - ((T * T * T : ℕ) : ℝ) / ((6 * 2 ^ (2 * p) : ℕ) : ℝ)) / 2 ^ p) := by
        simp only [fixedComplex, smallAngle, S, Complex.sub_im, ht]
        generalize T * T * T / (6 * 2 ^ (2 * p)) = q
        push_cast
        rw [show (2 : ℝ) ^ (2 * p) = 2 ^ p * 2 ^ p by rw [two_mul, pow_add]]
        field_simp
        ring
      rw [e, abs_neg, abs_div, abs_of_pos hp]
      gcongr
  calc ‖fixedComplex p (smallAngle p T) - Complex.exp (t * Complex.I)‖
      = ‖(fixedComplex p (smallAngle p T) - S) - (Complex.exp (t * Complex.I) - S)‖ := by congr 1; ring
    _ ≤ ‖fixedComplex p (smallAngle p T) - S‖ + ‖Complex.exp (t * Complex.I) - S‖ := norm_sub_le _ _
    _ ≤ t ^ 4 / 16 + 2 * (1 / 2 ^ p) := by linarith

/-- There are enough doublings for the third order to do. -/
theorem trigDoublings_enough (units : ℕ) : 4 * units.log2 ≤ 416 + 3 * trigDoublings units := by
  simp only [trigDoublings]; omega

theorem smallAngle_start (units : ℕ) :
    ((units <<< 41 : ℕ) : ℝ) / 2 ^ trigScale units = angleReal units / 2 ^ trigDoublings units := by
  rw [Nat.shiftLeft_eq, angleReal, trigScale]
  push_cast
  rw [pow_add, div_div, div_eq_div_iff (by positivity) (by positivity)]
  ring

theorem angle_small (units : ℕ) :
    angleReal units / 2 ^ trigDoublings units ≤ 1 ∧
      2 ^ trigDoublings units * (angleReal units / 2 ^ trigDoublings units) ^ 4 ≤ 1 / 2 ^ 176 := by
  have henough := trigDoublings_enough units
  set k := trigDoublings units
  have hlt : units < 2 ^ (units.log2 + 1) := Nat.lt_log2_self
  set l := units.log2
  have hK : (units : ℝ) ≤ 2 ^ (l + 1) := by exact_mod_cast hlt.le
  simp only [angleReal]
  constructor
  · rw [div_div, div_le_one (by positivity), ← pow_add]
    exact hK.trans (pow_le_pow_right₀ (by norm_num) (by omega))
  · rw [div_div, ← pow_add, div_pow, ← pow_mul, mul_div_assoc', div_le_div_iff₀ (by positivity) (by positivity), one_mul]
    calc (2 : ℝ) ^ k * (units : ℝ) ^ 4 * 2 ^ 176 ≤ 2 ^ k * (2 ^ (l + 1)) ^ 4 * 2 ^ 176 := by gcongr
      _ = 2 ^ (k + (l + 1) * 4 + 176) := by rw [← pow_mul, ← pow_add, ← pow_add]
      _ ≤ 2 ^ ((149 + k) * 4) := pow_le_pow_right₀ (by norm_num) (by omega)

/-- The size of the error after k doublings, from a start of the third order. -/
theorem final_radius (t u y a : ℝ) (k : ℕ) (hu : 0 ≤ u) (hku : 2 ^ k * u = 1 / 2 ^ 190)
    (hsmall : 2 ^ k * t ^ 4 ≤ 1 / 2 ^ 176) (hy : y = t ^ 4 / 16 + 4 * u) (ha : a ≤ 2 ^ k * y / (1 - 2 ^ k * y)) :
    0 ≤ y ∧ y < 1 ∧ 2 ^ k * y < 1 ∧ a ≤ 1 / 2 ^ 179 := by
  have hy0 : 0 ≤ y := by rw [hy]; positivity
  have hky : 2 ^ k * y ≤ 1 / 2 ^ 180 + 1 / 2 ^ 188 := by
    have e : 2 ^ k * y = (2 ^ k * t ^ 4) / 16 + 4 * (2 ^ k * u) := by rw [hy]; ring
    rw [e, hku]
    linarith
  have hk1 : (1 : ℝ) ≤ 2 ^ k := one_le_pow₀ (by norm_num)
  have hky1 : 2 ^ k * y < 1 := by linarith
  refine ⟨hy0, by nlinarith, hky1, ha.trans ?_⟩
  rw [div_le_iff₀ (by linarith)]
  linarith

/-- `circlePoint` is the point e^(i·x) of the unit circle, within 2^-179. -/
theorem circlePoint_error (units : ℕ) :
    ‖fixedComplex (trigScale units) (circlePoint units) - Complex.exp (angleReal units * Complex.I)‖ ≤ 1 / 2 ^ 179 := by
  have hstart := smallAngle_start units
  obtain ⟨ht1, hsmall⟩ := angle_small units
  have hpk : trigScale units = trigDoublings units + 190 := rfl
  have hθ : (2 : ℝ) ^ trigDoublings units * (angleReal units / 2 ^ trigDoublings units) = angleReal units := by
    rw [mul_comm, div_mul_cancel₀ _ (pow_ne_zero _ two_ne_zero)]
  unfold circlePoint
  generalize angleReal units / 2 ^ trigDoublings units = t at hstart ht1 hsmall hθ
  generalize trigScale units = p at hstart hpk
  generalize trigDoublings units = k at hpk hsmall hθ
  have h0 := smallAngle_error p (units <<< 41) t hstart.symm ht1
  have hku : (2 : ℝ) ^ k * (1 / 2 ^ p) = 1 / 2 ^ 190 := by rw [hpk, pow_add]; field_simp
  obtain ⟨hy0, hy1, hky1, -⟩ := final_radius t (1 / 2 ^ p) _ _ k (by positivity) hku hsmall rfl le_rfl
  have hstep : ‖fixedComplex p (smallAngle p (units <<< 41)) - Complex.exp (t * Complex.I)‖ + 2 * (1 / 2 ^ p) ≤
      (t ^ 4 / 16 + 4 * (1 / 2 ^ p)) / (1 - (t ^ 4 / 16 + 4 * (1 / 2 ^ p))) := by
    have h1 : ∀ y : ℝ, 0 ≤ y → y < 1 → y ≤ y / (1 - y) := fun y h h' => by
      rw [le_div_iff₀ (by linarith)]; nlinarith
    linarith [h1 _ hy0 hy1]
  have h := doubleAngles_error p k (smallAngle p (units <<< 41)) t _ hy0 hky1 hstep
  rw [hθ] at h
  obtain ⟨-, -, -, hfin⟩ := final_radius t (1 / 2 ^ p) _ _ k (by positivity) hku hsmall rfl h
  have : (0 : ℝ) ≤ 2 * (1 / 2 ^ p) := by positivity
  linarith

/-- The radius in real terms. -/
theorem trigRadius_real (units : ℕ) : (trigRadius units : ℝ) / 2 ^ trigScale units = 1 / 2 ^ 179 := by
  simp only [trigRadius, trigScale]
  push_cast
  rw [div_eq_div_iff (by positivity) (by positivity), ← pow_add, one_mul]

/-- The exact cosine lies within `trigRadius` of the computed one. -/
theorem cos_bound_holds (units : ℕ) :
    |((circlePoint units).1 : ℝ) / 2 ^ trigScale units - Real.cos (angleReal units)| ≤
      (trigRadius units : ℝ) / 2 ^ trigScale units := by
  have h := (Complex.abs_re_le_norm _).trans (circlePoint_error units)
  rw [trigRadius_real]
  simpa [fixedComplex, Complex.exp_ofReal_mul_I_re] using h

/-- The exact sine lies within `trigRadius` of the computed one. -/
theorem sin_bound_holds (units : ℕ) :
    |((circlePoint units).2 : ℝ) / 2 ^ trigScale units - Real.sin (angleReal units)| ≤
      (trigRadius units : ℝ) / 2 ^ trigScale units := by
  have h := (Complex.abs_im_le_norm _).trans (circlePoint_error units)
  rw [trigRadius_real]
  simpa [fixedComplex, Complex.exp_ofReal_mul_I_im] using h

end Sys2Proof.Machine
end

