-- ==== Sys2Proof/Laws/SinCos.lean ====
section
/-! SUPPORT. The sine and cosine of every argument are correctly rounded (00_scope.md rule R10). -/

namespace Sys2Proof.Machine

/-- `roundBetween` rounds the value once, given its bounds and an exact comparison. -/
theorem roundBetween_rounds {above : ℚ → Bool} {p : ℕ} {c r : ℤ} {x : ℝ} (hrad : (r : ℝ) / 2 ^ p = 1 / 2 ^ 179)
    (hc : |(c : ℝ) / 2 ^ p - x| ≤ (r : ℝ) / 2 ^ p) (hx : |x| ≤ 1) (habove : ∀ b : ℚ, above b = true ↔ (b : ℝ) < x)
    (hirr : Irrational x ∨ roundScaled p (c - r) = roundScaled p (c + r)) : RoundsTo x (roundBetween above p c r) := by
  have hL := roundScaled_rounds p (c - r)
  have hU := roundScaled_rounds p (c + r)
  have pp : (0 : ℝ) < 2 ^ p := by positivity
  push_cast at hL hU
  rw [sub_div] at hL
  rw [add_div] at hU
  rw [hrad] at hc hL hU
  have hc' := abs_le.1 hc
  have hx' := abs_le.1 hx
  have small : (1 : ℝ) / 2 ^ 179 ≤ 1 / 4 := by norm_num
  have spos : (0 : ℝ) < 1 / 2 ^ 179 := by positivity
  have sclose : (1 : ℝ) / 2 ^ 179 + 1 / 2 ^ 179 < 1 / 2 ^ 150 := by norm_num
  generalize (1 : ℝ) / 2 ^ 179 = e at hc' hL hU small spos sclose
  have bL : |(c : ℝ) / 2 ^ p - e| ≤ 2 := abs_le.2 ⟨by linarith, by linarith⟩
  have bU : |(c : ℝ) / 2 ^ p + e| ≤ 2 := abs_le.2 ⟨by linarith, by linarith⟩
  unfold roundBetween
  dsimp only
  split
  · rename_i heq
    rw [← heq] at hU
    exact rounds_of_both hL hU (by linarith) (by linarith) bL bU
  · rename_i hne
    have hm : 2 * x ≠ wordReal (roundScaled p (c - r)) + wordReal (roundScaled p (c + r)) := by
      intro h
      apply (hirr.resolve_right hne).ne_rat (boundary (roundScaled p (c - r)) (roundScaled p (c + r)))
      unfold boundary
      push_cast
      rw [wordRat_cast, wordRat_cast]
      linarith
    have h := rounds_of_neighbours hL hU (by linarith) (by linarith) bL bU (by linarith) (by linarith) hne hm
    have hb : above (boundary (roundScaled p (c - r)) (roundScaled p (c + r))) = true ↔
        wordReal (roundScaled p (c - r)) + wordReal (roundScaled p (c + r)) < 2 * x := by
      rw [habove]
      unfold boundary
      push_cast
      rw [wordRat_cast, wordRat_cast, div_lt_iff₀ (by norm_num), mul_comm x]
    simp only [hb]
    exact h

/-- Sine and cosine of a nonzero argument are irrational. -/
theorem irrational_angle {units : ℕ} (h : units ≠ 0) :
    Irrational (Real.sin (angleReal units)) ∧ Irrational (Real.cos (angleReal units)) := by
  have e : angleReal units = ((angleRat units : ℚ) : ℝ) := by simp [angleReal, angleRat]
  rw [e]
  exact ⟨irrational_sin (angleRat_pos h).ne', irrational_cos (angleRat_pos h).ne'⟩

/-- `sinUnits` is the exact sine rounded once (rule R10). -/
theorem sinUnits_rounds {units : ℕ} (h : units ≠ 0) : RoundsTo (Real.sin (angleReal units)) (sinUnits units) :=
  roundBetween_rounds (trigRadius_real units) (sin_bound_holds units) (Real.abs_sin_le_one _)
    (sinAbove_iff units) (.inl (irrational_angle h).1)

/-- `cosUnits` is the exact cosine rounded once (rule R10). -/
theorem cosUnits_rounds (units : ℕ) : RoundsTo (Real.cos (angleReal units)) (cosUnits units) :=
  roundBetween_rounds (trigRadius_real units) (cos_bound_holds units) (Real.abs_cos_le_one _)
    (cosAbove_iff units) (by
      rcases eq_or_ne units 0 with rfl | h
      · exact .inr (by decide +kernel)
      · exact .inl (irrational_angle h).2)
end Sys2Proof.Machine
end

