-- ==== Sys2Proof/Tests/Slice0.lean ====
section
/-! SUPPORT. Tests and witnesses. Expected words are those of spec/95_test_vectors.md, whose row each test names. -/

namespace Sys2Proof.Tests

open Sys2Proof.Machine

/-! ### Well-formedness and decoding -/

/-- R82: COUNT is 16 bits. -/
theorem test_wf_refuses_a_long_count : (Instr.process 65536).wf = false := by decide

theorem test_wf_accepts : (Instr.process 65535).wf = true ∧ Instr.sreset.wf = true := by decide

/-- X-V1, X-V10, X-V11, their bits written out: COUNT, RSV, OP. -/
theorem test_decode_control :
    decode 0b0000000000000000_00000000_00000000#32 = .ok .nop ∧
    decode 0b0000000000000000_00000000_00000101#32 = .ok .abort ∧
    decode 0b0000000000000000_00000000_00000110#32 = .ok .sreset := by decide

/-- X-V2. -/
theorem test_decode_design : decode 0b0000000000000000_00000000_00000001#32 = .ok .design := by decide

/-- X-V3, X-V9. -/
theorem test_decode_start_flush :
    decode 0b0000000000000000_00000000_00000010#32 = .ok .start ∧
    decode 0b0000000000000000_00000000_00000100#32 = .ok .flush := by decide

/-- X-V4, X-V6, X-V8. -/
theorem test_decode_process :
    decode 0b0000000000000000_00000000_00000011#32 = .ok (.process 0) ∧
    decode 0b0000010000000000_00000000_00000011#32 = .ok (.process 1024) ∧
    decode 0b1111111111111111_00000000_00000011#32 = .ok (.process 65535) := by decide

/-- X-V12 to X-V16. -/
theorem test_decode_illegal :
    decode 0x00000007 = .error .unknownOpcode ∧ decode 0x000000FF = .error .unknownOpcode ∧
    decode 0x00000103 = .error .reservedByte ∧ decode 0x00010001 = .error .countNotZero ∧
    decode 0x80000006 = .error .countNotZero := by decide

/-- X-V17 to X-V21. -/
theorem test_filter_words :
    filterSpecWord .bandpass .blackman 8 = 0x00080032 ∧ filterSpecWord .lowpass .rectangular 4 = 0x00040040 ∧
    filterSpecWord .highpass .hanning 4 = 0x00040011 ∧ filterSpecWord .bandstop .hamming 4 = 0x00040003 ∧
    filterSpecWord .lowpass .bartlett 6 = 0x00060020 := by decide

theorem test_table_word : decodeTableWord 32 0x00000003 = some (.process 0) ∧ decodeTableWord 32 0x00000007 = none := by
  decide

/-! ### One step -/

/-- The next state, where there is one. -/
def nextOf (o : Host.Outcome State Fault Refusal) : Option State :=
  match o with
  | .next s => some s
  | .fault _ => none
  | .refused _ => none

/-- The STATUS word once the command word `w`, written while BUSY = 0, has completed. -/
def statusAfter (w : Word) (s : State) : Option Word := (nextOf (complete w (s.accept w))).map State.statusWord

/-- Lowpass, Rectangular, N = 4, F1 = 1000.0, FS = 8000.0: the FilterSpec of T-LP4R. -/
def specState : State := { State.reset with window := 4, order := 4, f1 := 0x447A0000, fs := 0x45FA0000 }

/-- Bandpass, Blackman, N = 8, F1 = 1000.0, F2 = 2000.0, FS = 8000.0: the FilterSpec of T-BP8B. -/
def bandState : State :=
  { State.reset with
      family := 2, window := 3, order := 8, f1 := 0x447A0000, f2 := 0x44FA0000, fs := 0x45FA0000 }

/-- READY with the taps of T-LP4R. -/
def readyState : State :=
  { specState with
      phase := .ready, tapCount := 5,
      mem :=
        ((((Memory.writeWord [] 0x3000 0x3E22F983).writeWord 0x3004 0x3E667B21).writeWord 0x3008 0x3E800000).writeWord
          0x300C 0x3E667B21).writeWord 0x3010 0x3E22F983 }

/-- STREAM right after START from `readyState`, with IN_BUF[0] = 1.0. -/
def streamState : State :=
  { readyState with
      phase := .stream, gain := 0x3F800000, ring := clearRing 5 [], mem := readyState.mem.writeWord 0x1000 0x3F800000 }

/-- The step fetches and runs the placed word: DESIGN fails validation right after reset. -/
theorem test_step_runs_the_word : (nextOf (step (State.reset.withFetchWord 32 0x00000001))).map State.result =
    some .configError := by decide

/-- K-V1. -/
theorem test_nop : statusAfter 0x00000000 { specState with cfgErr := 0x10, result := .configError } = some 0x00000000 := by
  decide

/-- T-BP8B, tap 3. -/
theorem test_design_bandpass_blackman :
    (nextOf (exec .design bandState)).map (fun t => t.tapWord 3) = some 0x3D93B320 := by decide +kernel

/-- D-V21: every check fails. -/
theorem test_design_every_check_fails :
    (nextOf (exec .design
      { State.reset with
          family := 2, window := 7, order := 1001, f1 := 0x44FA0000, f2 := 0x447A0000, fs := 0x7FC00000 })).map
      (fun t => (t.cfgErr, t.tapCount, t.phase)) = some (0x7F, 0, .idle) := by decide

/-- G-V12. -/
theorem test_start : statusAfter 0x00000002 { readyState with phase := .halted } = some 0x00020020 := by decide +kernel

/-- G-V1. -/
theorem test_start_in_idle : statusAfter 0x00000002 State.reset = some 0x00020500 := by decide

/-- C-V4. -/
theorem test_process_one_sample :
    (nextOf (exec (.process 1) streamState)).map (fun t => (t.outWord 0, t.cur, t.samplesIn)) =
      some (0x3DE42A1E, 1, 1) := by decide +kernel

/-- G-V9. -/
theorem test_process_too_many : statusAfter 0x04010003 streamState = some 0x00030620 := by decide +kernel

/-- C-V8. -/
theorem test_flush :
    (nextOf (exec .flush streamState)).map (fun t => (t.outWord 4, t.outCount, t.samplesOut, t.phase)) =
      some (0x00000000, 5, 5, .done) := by decide +kernel

/-- K-V2. -/
theorem test_abort : statusAfter 0x00000005 streamState = some 0x00050340 := by decide +kernel

/-- K-V3. -/
theorem test_abort_in_ready : statusAfter 0x00000005 readyState = some 0x00050510 := by decide +kernel

/-- K-V5. -/
theorem test_sreset : statusAfter 0x00000006 { streamState with ovr := true } = some 0x00060000 := by decide +kernel

/-- A-V15: an SRESET written while BUSY = 1 is dropped. -/
theorem test_sreset_dropped :
    ({ specState with pending := some 0x00000001 }.hostWrite 0x020 0x00000006).statusWord = 0x00000003 := by decide

/-- A-V3, A-V12. -/
theorem test_host_writes :
    (State.reset.hostWrite 0x00C 0x000F7FFE).hostRead 0x00C = 0x000F0072 ∧
    (State.reset.hostWrite 0x020 0x00000001).hostRead 0x024 = 0x00010001 := by decide

/-- A-V16, A-V17. -/
theorem test_tap_reads :
    readyState.hostRead 0x3008 = 0x3E800000 ∧ readyState.hostRead 0x3014 = 0x00000000 ∧
    streamState.hostRead 0x3008 = 0x00000000 := by decide +kernel

/-! ### Witnesses: states and operands that meet the hypotheses of the statements -/

theorem test_readyState_inv : readyState.Inv where
  idle_iff := by decide
  len_legal := Or.inr ⟨4, by decide⟩
  cur_lt := by decide
  out_le := by decide
  mem_wf := by decide +kernel
  ring_wf := by decide
  mem_range := by unfold ramOffset; decide +kernel
  ring_range := by decide
  taps_written := by decide +kernel
  ring_written := by decide
  result_ne := by decide

theorem test_streamState_inv : streamState.Inv where
  idle_iff := by decide
  len_legal := Or.inr ⟨4, by decide⟩
  cur_lt := by decide
  out_le := by decide
  mem_wf := by decide +kernel
  ring_wf := by decide +kernel
  mem_range := by unfold ramOffset; decide +kernel
  ring_range := by decide +kernel
  taps_written := by decide +kernel
  ring_written := by decide +kernel
  result_ne := by decide

theorem test_readyState_taps_finite : readyState.tapsFinite := by unfold State.tapsFinite; decide +kernel

theorem test_streamState_taps_finite : streamState.tapsFinite := by unfold State.tapsFinite; decide +kernel

theorem test_witness_DecodeRule :
    ((0x00000103 : Word).toNat / 2 ^ 8 % 2 ^ 8 ≠ 0) ∧ 0x06 < (0x00000007 : Word).toNat % 2 ^ 8 ∧
    ((0x00010001 : Word).toNat % 2 ^ 8 ≠ 0x03 ∧ (0x00010001 : Word).toNat / 2 ^ 16 ≠ 0) ∧
    ((0xFFFF0003 : Word).toNat / 2 ^ 8 % 2 ^ 8 = 0 ∧ (0xFFFF0003 : Word).toNat % 2 ^ 8 = 0x03) ∧
    ∀ op ≤ 6, op = op % 2 ^ 8 ∧ op / 2 ^ 8 % 2 ^ 8 = 0 ∧ op / 2 ^ 16 = 0 := by decide

theorem test_witness_EncodeDecode_DecodeEncode :
    decode 0xFFFF0003 = .ok (.process 65535) ∧ (Instr.process 65535).WellFormed ∧ (Instr.process 0).WellFormed := by decide

/-- A legal and an illegal pending word, at the block's turn in both its forms. -/
theorem test_witness_CommandStep :
    let s : State := { specState with pending := some 0x00000001 }
    let u : State := { specState with pending := some 0x00000007, inputs := [.block, .read 0x024] }
    s.completes 0x00000001 ∧ decode 0x00000001 = .ok .design ∧
      u.completes 0x00000007 ∧ decode 0x00000007 = .error .unknownOpcode :=
  ⟨⟨rfl, .inl rfl⟩, by decide, ⟨rfl, .inr ⟨_, rfl⟩⟩, by decide⟩

/-- Two accesses while BUSY, then the block's turn; and no input left. -/
theorem test_witness_PendingCommandCompletes :
    let s : State := { State.reset with pending := some 0x00000001, inputs := [.read 0x024, .write 0x010 0, .block] }
    s.inputs = [.read 0x024, .write 0x010 0] ++ [.block] ∧
      (∀ x ∈ [Input.read 0x024, .write 0x010 0], x.isAccess = true) ∧
      { State.reset with pending := some 0x00000001 }.inputs = [] ++ [] := by decide

theorem test_witness_HostAccessSteps :
    { State.reset with inputs := [.read 0x024] }.inputs = .read 0x024 :: [] ∧
    { State.reset with inputs := [.write 0x3FFF 0] }.inputs = .write 0x3FFF 0 :: [] ∧
    { State.reset with inputs := [.reset] }.inputs = .reset :: [] ∧
    { State.reset with inputs := [.block] }.inputs = .block :: [] ∧ State.reset.inputs = [] ∧
    State.reset.pending = none := by decide

/-- With the next state the statement's premise names. -/
theorem test_witness_ExecExpansion :
    let s : State := { State.reset with inputs := execInputs .nop 2 }
    Instr.nop.WellFormed ∧ s.pending = none ∧ s.inputs = execInputs .nop 2 ∧
      exec .nop (s.accept (encode .nop)) = .next { s.accept (encode .nop) with result := .ok } := by
  refine ⟨by decide, by decide, by decide, rfl⟩

/-- AbortRule, PhaseTable, StartRule, ProcessRule, FlushRule: each phase their clauses name. -/
theorem test_witness_phases :
    State.reset.phase = .idle ∧ readyState.phase = .ready ∧ streamState.phase = .stream ∧
    { readyState with phase := .done }.phase = .done ∧ { readyState with phase := .halted }.phase = .halted ∧
    streamState.pending = none ∧ streamState.ovr = false ∧ (1024 : Nat) < 1025 := by decide

/-- SresetRule, SresetVersusReset: BUSY = 1. -/
theorem test_witness_busy : { State.reset with pending := some 0x00000000 }.busy = true := by decide

/-- DesignPasses, TapSymmetry, EveryTapFinite, DesignReadsFilterSpecOnly (its first clause, with a second state whose
other registers differ), IdealResponseRules, ConfigErrorCases. -/
theorem test_witness_valid_designs :
    specState.phase ≠ .stream ∧ specState.filterSpec.validate = 0 ∧ specState.family = 0 ∧ specState.window = 4 ∧
    specState.filterSpec.family = .lowpass ∧
    readyState.phase ≠ .stream ∧ readyState.filterSpec = specState.filterSpec ∧
    bandState.phase ≠ .stream ∧ bandState.filterSpec.validate = 0 ∧ bandState.family = 2 ∧
    { specState with order := 2 }.filterSpec.validate = 0 ∧ { specState with order := 1000 }.filterSpec.validate = 0 := by
  decide

/-- IdealResponseRules: the other families, at the centre and beside it. -/
theorem test_witness_families :
    { specState with family := 1 }.filterSpec.family = .highpass ∧ bandState.filterSpec.family = .bandpass ∧
    { bandState with family := 3 }.filterSpec.family = .bandstop ∧ (4 : Nat) = bandState.filterSpec.order / 2 ∧
    (0 : Nat) ≠ bandState.filterSpec.order / 2 := by decide

/-- DesignFails. -/
theorem test_witness_DesignFails : State.reset.phase ≠ .stream ∧ State.reset.filterSpec.validate ≠ 0 := by decide

/-- ConfigErrorCases, last clause: an F2 in range that is not above F1, equal to it and below it. -/
theorem test_witness_ConfigErrorCases_f2 : ∀ v ∈ [(0x447A0000 : Word), 0x00000001],
    cutoffInRange v bandState.fs ∧ ¬exactLt (exactValue bandState.f1) (exactValue v) := by
  have hb : cutoffBad 0x447A0000 bandState.fs = false ∧ cutoffBad 0x00000001 bandState.fs = false ∧
      (unpack bandState.f1).lt (unpack 0x447A0000) = false ∧ (unpack bandState.f1).lt (unpack 0x00000001) = false := by
    decide +kernel
  intro v hv
  rw [exactValue_eq, exactValue_eq, ← lt_iff]
  have key : cutoffBad v bandState.fs = false ∧ (unpack bandState.f1).lt (unpack v) = false := by
    rcases List.mem_cons.1 hv with rfl | hv
    · exact ⟨hb.1, hb.2.2.1⟩
    · rw [List.mem_singleton.1 hv]; exact ⟨hb.2.1, hb.2.2.2⟩
  refine ⟨?_, by rw [key.2]; decide⟩
  by_contra hc
  have := (cutoffBad_iff v bandState.fs).2 hc
  rw [key.1] at this
  cases this

/-- WindowRules: the least and the greatest order. -/
theorem test_witness_WindowRules :
    (2 % 2 = 0 ∧ 2 ≤ 2 ∧ 2 ≤ 1000) ∧ (1000 % 2 = 0 ∧ 2 ≤ 1000 ∧ 1000 ≤ 1000) ∧ (0 : Nat) < 1 := by decide

/-- SincRule: both zeros, the least subnormal, a NaN. -/
theorem test_witness_SincRule :
    isZero 0x00000000 = true ∧ isZero 0x80000000 = true ∧ isZero 0x00000001 = false ∧ isZero 0x7FC00000 = false := by
  decide

/-- SampleRule. -/
theorem test_witness_SampleRule : streamState.cur < streamState.len := by decide

/-- BlockOutputs, FlushDrainsTail (with `test_streamState_inv` and `test_streamState_taps_finite`); a block of no word, of
one and of 1024. -/
theorem test_witness_BlockOutputs :
    streamState.phase = .stream ∧ isFinite streamState.gain = true ∧ (0 : Nat) ≤ 1024 ∧ (1024 : Nat) ≤ 1024 := by decide

/-- RingHoldsHistory, RunClosedForm, ChunkingInvariance, OutputLength, ZeroFixedPoint, ImpulseResponse (with
`test_readyState_inv` and `test_readyState_taps_finite`): the blocks of two cuts of one stream, an all-zero stream, an
impulse. -/
theorem test_witness_runs :
    readyState.phase = .ready ∧ isFinite readyState.volume = true ∧
    (∀ b ∈ [[(0x3F800000 : Word), 0x00000000], [0x80000000]], b.length ≤ 1024) ∧
    (∀ b ∈ [[(0x3F800000 : Word)], [], [0x00000000, 0x80000000]], b.length ≤ 1024) ∧
    [[(0x3F800000 : Word), 0x00000000], [0x80000000]].flatten =
      [[(0x3F800000 : Word)], [], [0x00000000, 0x80000000]].flatten ∧
    [[(0x3F800000 : Word), 0x00000000], [0x80000000]].flatten = 0x3F800000 :: [0x00000000, 0x80000000] ∧
    (∀ x ∈ [[(0x00000000 : Word)], [0x80000000]].flatten, x = 0x00000000 ∨ x = 0x80000000) := by
  refine ⟨by decide, by decide, by simp, by simp, by simp, by simp, by simp⟩

/-- RunForgetsHistory: a second state after a run, its ring, cursor and OUT_BUF different. -/
theorem test_witness_RunForgetsHistory :
    let s : State := { streamState with phase := .halted, cur := 3, mem := streamState.mem.writeWord 0x2000 0x3F800000 }
    s.phase = .halted ∧ readyState.tapCount = s.tapCount ∧ readyState.volume = s.volume ∧
    ∀ i < readyState.len, ∀ k < 4, readyState.mem.readByte (tapAddr i + k) = s.mem.readByte (tapAddr i + k) := by
  decide +kernel

/-- IllegalWordRule, PreciseErrors. -/
theorem test_witness_illegal :
    illegalWord 0x00000007 ∧ illegalWord 0x00000103 ∧ illegalWord 0x00010001 ∧ State.reset.pending = none ∧
    nextOf (dispatch 0x00000007 State.reset) = some { State.reset with result := .cmdIllegal } ∧
    nextOf (dispatch 0x04010003 State.reset) = some { State.reset with result := .cmdState } ∧
    ((0x04010003 : Word).toNat % 2 ^ 16 = 0x0003 ∧ 1024 < (0x04010003 : Word).toNat / 2 ^ 16) := by
  unfold illegalWord
  decide

/-- NeverAllocError, RunLifecycle, OvrSticky, InvariantKept: a step that is taken; a run that begins and one that ends; an
aligned write dropped, and OVR cleared. -/
theorem test_witness_steps :
    State.reset.result ≠ .allocError ∧ nextOf (step State.reset) = some State.reset ∧
    (nextOf (step { readyState with pending := some 0x00000002 })).map State.phase = some .stream ∧
    (nextOf (step { streamState with pending := some 0x00000005 })).map State.phase = some .halted ∧
    (nextOf (step { State.reset with pending := some 0x00000000, inputs := [.write 0x3FFC 0] })).map State.ovr =
      some true ∧
    (nextOf (step { State.reset with ovr := true, inputs := [.reset] })).map State.ovr = some false := by decide +kernel

/-- StartRule: gains that are not finite. FlushRule: a START that begins a run (with `test_readyState_inv`). -/
theorem test_witness_StartRule_FlushRule :
    isFinite { streamState with gain := 0x7FC00000 }.gain = false ∧
    isFinite { streamState with gain := 0xFF800000 }.gain = false ∧
    isFinite readyState.volume = true ∧ readyState.phase ≠ .stream ∧
    (nextOf (exec .start readyState)).map State.phase = some .stream := by decide +kernel

/-- InvariantKept, its second clause: two steps of a host's program from reset. -/
theorem test_witness_InvariantKept :
    (nextOf (Host.Core.run Sys2Proof.core 2
      { State.reset with inputs := [.write 0x020 0x00000001, .block] })).map State.result = some .configError := by
  decide +kernel

/-- TapsFixedInRun, ConfigurationLatch: a step of a run; GAIN changed by a START. -/
theorem test_witness_latches :
    (nextOf (step { streamState with pending := some 0x00000000 })).map State.phase = some .stream ∧
    (nextOf (step { readyState with pending := some 0x00000002 })).map State.gain = some readyState.volume ∧
    readyState.gain ≠ readyState.volume := by decide +kernel

/-- InBufAccess, ReadOnlyWindows: the first and the last word; no byte of IN_BUF[0] written. -/
theorem test_witness_InBufAccess :
    (0 : Nat) < 1024 ∧ (1023 : Nat) < 1024 ∧ State.reset.pending = none ∧
    ∀ k < 4, State.reset.mem.readByte (0x1000 + 4 * 0 + k) = none := by decide

/-- ReservedAndMisaligned: the ends of both reserved ranges, and misaligned offsets. -/
theorem test_witness_ReservedAndMisaligned :
    ((0x003C : Offset).toNat % 4 = 0 ∧ 0x003C ≤ (0x003C : Offset).toNat ∧ (0x003C : Offset).toNat < 0x1000) ∧
    ((0x0FFC : Offset).toNat % 4 = 0 ∧ 0x003C ≤ (0x0FFC : Offset).toNat ∧ (0x0FFC : Offset).toNat < 0x1000) ∧
    ((0x3FA4 : Offset).toNat % 4 = 0 ∧ 0x3FA4 ≤ (0x3FA4 : Offset).toNat) ∧
    ((0x3FFC : Offset).toNat % 4 = 0 ∧ 0x3FA4 ≤ (0x3FFC : Offset).toNat) ∧
    (0x0001 : Offset).toNat % 4 ≠ 0 ∧ (0x3FFF : Offset).toNat % 4 ≠ 0 := by decide

/-- BusyReads, BusyWrites. -/
theorem test_witness_busy_accesses :
    { State.reset with pending := some 0x00000001 }.pending = some 0x00000001 ∧ (0x024 : Offset).toNat % 4 = 0 ∧
    (0x3FFC : Offset).toNat % 4 = 0 := by decide

/-- CommandAcceptance, RegisterReads, RegisterWrites. -/
theorem test_witness_idle_port : State.reset.pending = none ∧ State.reset.ovr = false := by decide

/-- SinCosRoundOnce: a finite argument, its zeros and an argument with no real value. -/
theorem test_witness_SinCosRoundOnce :
    isFinite 0x3F800000 = true ∧ isZero 0x3F800000 = false ∧ isZero 0x80000000 = true ∧
    isFinite 0x7F800000 = false := by decide

/-- AddRoundsOnce, MulRoundsOnce: finite operands whose exact results are not 0, and are; a divisor of either kind. -/
theorem test_witness_arithmetic :
    isFinite 0x3F800000 = true ∧ isFinite 0xBF800000 = true ∧ isFinite 0x00000000 = true ∧
    isFinite 0x7F7FFFFF = true ∧ unpack 0x7FC00000 = .nan := by decide

/-- The same, in their real values. -/
theorem test_witness_arithmetic_reals :
    wordReal 0x3F800000 + wordReal 0x3F800000 ≠ 0 ∧ wordReal 0x3F800000 + wordReal 0xBF800000 = 0 ∧
    wordReal 0x3F800000 ≠ 0 ∧ wordReal 0x00000000 = 0 := by
  have value : ∀ w neg k, unpack w = .fin neg k → wordReal w = (signedUnits neg k : ℝ) / 2 ^ 149 := fun w neg k h => by
    unfold wordReal
    rw [h]
    rfl
  rw [value 0x3F800000 false (2 ^ 149) (by decide), value 0xBF800000 true (2 ^ 149) (by decide),
    value 0x00000000 false 0 (by decide)]
  norm_num [signedUnits]

/-- V-INF of 95_test_vectors.md and IEEE 754: infinities and zeros as operands. -/
theorem test_infinite_operands :
    sub32 0x7F800000 0x7F800000 = 0x7FC00000 ∧ mul32 0x00000000 0xFF800000 = 0x7FC00000 ∧
    div32 0x3F800000 0xFF800000 = 0x80000000 ∧ div32 0xFF800000 0x3F800000 = 0xFF800000 := by decide

end Sys2Proof.Tests
end

section
/-! The per-sample operation: the true modulo in its range, the ring slot as a natural number, and what one sample writes
(00_scope.md rule R11, 42_convolver.md rules R172 to R175). -/

namespace Sys2Proof.Machine

/-- The true modulo lies in [0, m) (rule R11). -/
theorem trueMod_mem_range (v : Int) {m : Int} (hm : 0 < m) : 0 ≤ trueMod v m ∧ trueMod v m < m := by
  rw [trueMod_eq_emod v m hm]
  exact ⟨Int.emod_nonneg v hm.ne', Int.emod_lt_of_pos v hm⟩

/-- Adding L once to cur − k makes the dividend of R172 a natural number and leaves the remainder. -/
theorem trueMod_cur_sub (cur : Nat) {k len : Nat} (hk : k < len) :
    trueMod ((cur : Int) - k) len = ((cur + len - k) % len : Nat) := by
  have dividend : ((cur + len - k : Nat) : Int) = (cur - k : Int) + len := by omega
  rw [trueMod_eq_emod _ _ (by omega), Int.natCast_mod, dividend, Int.add_emod_right]

/-- A sample changes the ring and the cursor alone, and the cursor advances modulo L. -/
theorem sampleState_frame {s : State} (hL : 0 < s.len) (x : Word) :
    sampleState s x = { s with ring := (sampleState s x).ring, cur := (s.cur + 1) % s.len } := by
  rw [← nextCur_eq s.cur s.len hL]
  rfl

/-- A sample writes the word x, unchanged, to the slot of the cursor (rule R175). -/
@[simp] theorem sampleState_ringWord_cur (s : State) (x : Word) : (sampleState s x).ringWord s.cur = x :=
  (ringWord_setRing s s.cur s.cur x).trans (if_pos rfl)

/-- A sample writes no ring byte outside the slot of the cursor. -/
theorem sampleState_ringByte (s : State) (x : Word) {a : Nat} (h : a < 4 * s.cur ∨ 4 * s.cur + 4 ≤ a) :
    (sampleState s x).ringByte a = s.ringByte a := by
  simp only [State.ringByte, sampleState_ring, sampleState_powerOns, readByte_writeWord_other _ _ h]

/-- Settles O25: the modulo from its Euclidean reading, the sample's writes one by one, and the output by `sampleOut_eq`. -/
theorem sampleRule : Obligations.SampleRule := by
  refine ⟨rfl, rfl, rfl, fun v m hm => ⟨rfl, trueMod_eq_emod v m hm, trueMod_mem_range v hm⟩, fun s x hc => ?_⟩
  have hL : 0 < s.len := Nat.zero_lt_of_lt hc
  exact ⟨fun k hk => trueMod_cur_sub s.cur hk, sampleState_frame hL x, sampleState_ringWord_cur s x,
    fun a ha => sampleState_ringByte s x ha, sampleOut_eq hc x⟩

end Sys2Proof.Machine
end

section
/-! Every step keeps the invariants: the states that begin, carry on and leave a run, then each command, each host access and
the external reset (10_state.md rule R38). -/

namespace Sys2Proof.Machine

/-! ### States with the invariants, by phase -/

/-- Rule R38, item 1: outside IDLE there is a tap. -/
theorem State.Inv.len_pos {s : State} (h : s.Inv) (hp : s.phase ≠ .idle) : 0 < s.len :=
  Nat.pos_of_ne_zero fun hl => hp (h.idle_iff.2 hl)

/-- In IDLE, with no tap, only the storage's own form and the two bounded registers are left to ask for. -/
theorem State.Inv.of_idle {t : State} (hp : t.phase = .idle) (hl : t.len = 0) (hout : t.outCount.toNat ≤ Config.bufWords)
    (hmem : t.mem.wf = true) (hring : t.ring.wf = true) (hmemRange : ∀ c ∈ t.mem, ramOffset c.1)
    (hringRange : ∀ c ∈ t.ring, c.1 < 4 * Config.lMax) (hres : t.result ≠ .allocError) : t.Inv where
  idle_iff := iff_of_true hp hl
  len_legal := .inl hl
  cur_lt hs := by simp [hp] at hs
  out_le := hout
  mem_wf := hmem
  ring_wf := hring
  mem_range := hmemRange
  ring_range := hringRange
  taps_written i hi := by omega
  ring_written hs := by simp [hp] at hs
  result_ne := hres

/-- What the samples of a run keep is, outside IDLE, the whole invariant but for the two bounded registers. -/
theorem Streaming.inv {L : Nat} {t : State} (h : Streaming L t) (hL : legalLen L) (hp : t.phase ≠ .idle)
    (hout : t.outCount.toNat ≤ Config.bufWords) (hres : t.result ≠ .allocError) : t.Inv := by
  obtain ⟨rfl, hcur, hmem, hring, hmemRange, hringRange, htaps, hslots⟩ := h
  exact ⟨iff_of_false hp (Nat.ne_zero_of_lt hcur), hL, fun _ => hcur, hout, hmem, hring, hmemRange, hringRange, htaps,
    fun _ => hslots, hres⟩

/-- What comes next from outside the block is no part of the invariant. -/
theorem State.Inv.withInputs {s : State} (h : s.Inv) (l : List Input) : ({ s with inputs := l } : State).Inv :=
  h.congr rfl rfl rfl rfl rfl rfl h.result_ne

/-! ### The commands -/

theorem State.Inv.raise {s : State} (h : s.Inv) {r : Result} (hr : r ≠ .allocError) : (s.raise r).Inv :=
  h.congr rfl rfl rfl rfl rfl rfl hr

/-- START clears the ring, so that every slot in use is written. -/
theorem streaming_startEffect {s : State} (h : s.Inv) (hp : s.phase ≠ .idle) :
    Streaming s.len (startEffect s) where
  len := rfl
  cur := h.len_pos hp
  mem_wf := h.mem_wf
  ring_wf := clearRing_wf s.len h.ring_wf
  mem_range := h.mem_range
  ring_range := clearRing_range (legalLen_le h.len_legal) h.ring_range
  taps := h.taps_written
  ring := clearRing_holdsWord s.len s.ring

theorem startEffect_inv {s : State} (h : s.Inv) (hp : s.phase ≠ .idle) : (startEffect s).Inv :=
  (streaming_startEffect h hp).inv h.len_legal (by simp) (Nat.zero_le _) (by simp)

theorem processEffect_inv {s : State} (h : s.Inv) (hp : s.phase = .stream) (n : Nat) : (processEffect n s).Inv := by
  rcases Nat.lt_or_ge 1024 n with hn | hn
  · rw [processEffect_over hn]
    exact h.raise (by simp)
  · have samples : Streaming s.len (processSamples n s) :=
      (h.streaming hp).loop (legalLen_le h.len_legal) hn fun t i => t.inWord i
    rw [processEffect_eq hn]
    exact Streaming.inv { samples with len := rfl } h.len_legal (by simp [hp]) ((Nat.mod_le _ _).trans hn) (by simp)

theorem flushEffect_inv {s : State} (h : s.Inv) (hp : s.phase = .stream) : (flushEffect s).Inv := by
  have hL : s.len ≤ 1001 := legalLen_le h.len_legal
  have samples : Streaming s.len (flushSamples s.len s) := (h.streaming hp).loop hL (by omega) fun _ _ => zero32
  rw [flushEffect_eq]
  exact Streaming.inv { samples with len := rfl } h.len_legal (by simp)
    ((Nat.mod_le _ _).trans (hL.trans (by decide))) (by simp)

/-- ABORT leaves a run, and touches neither the taps nor the ring. -/
theorem abort_inv {s : State} (h : s.Inv) (hp : s.phase ≠ .idle) :
    (({ s with phase := .halted } : State).raise .ioError).Inv :=
  { h with
    idle_iff := iff_of_false (by simp) (h.len_pos hp).ne'
    cur_lt := by simp
    ring_written := by simp
    result_ne := by simp }

theorem sresetEffect_inv {s : State} (h : s.Inv) : (sresetEffect s).Inv :=
  .of_idle rfl rfl (Nat.zero_le _) h.mem_wf h.ring_wf h.mem_range h.ring_range (by simp)

theorem designFail_inv {s : State} (h : s.Inv) (mask : BitVec 7) : (designFail s mask).Inv :=
  .of_idle rfl rfl h.out_le h.mem_wf h.ring_wf h.mem_range h.ring_range (by simp)

/-- TAP_COUNT holds N + 1 without a wrap. -/
theorem designPass_len {s : State} (w : Window) (hN : s.filterSpec.order ≤ 1000) :
    (designPass s w).len = s.filterSpec.order + 1 := by
  simp only [State.len, designPass_tapCount, BitVec.toNat_ofNat]
  omega

/-- A DESIGN that passes has a legal N, and its synthesis writes every tap. -/
theorem designPass_inv {s : State} (h : s.Inv) (w : Window) (hv : s.filterSpec.validate = 0) :
    (designPass s w).Inv := by
  obtain ⟨heven, hmin, hmax⟩ := order_of_validate hv
  have hlen := designPass_len w hmax
  exact
    { idle_iff := iff_of_false (by simp) (by omega)
      len_legal := .inr ⟨_, hlen, heven, hmin, hmax⟩
      cur_lt := by simp
      out_le := h.out_le
      mem_wf := synthesize_wf _ w h.mem_wf
      ring_wf := h.ring_wf
      mem_range := synthesize_range w hmax h.mem_range
      ring_range := h.ring_range
      taps_written := fun i hi => synthesize_holdsWord _ w _ heven i (by omega)
      ring_written := by simp
      result_ne := by simp }

theorem designEffect_inv {s : State} (h : s.Inv) : (designEffect s).Inv := by
  unfold designEffect
  split
  · split
    · rename_i hv
      exact designPass_inv h _ hv
    · exact designFail_inv h _
  · exact designFail_inv h _

/-- Every command keeps the invariants: outside its phases it raises CMD_STATE, in them it has its effect. -/
theorem exec_inv {i : Instr} {s t : State} (h : s.Inv) (he : exec i s = .next t) : t.Inv := by
  rw [exec_eq] at he
  cases he
  split
  · rename_i hp
    rw [permitted_iff] at hp
    cases i with
    | nop => exact h.raise (by simp)
    | design => exact designEffect_inv h
    | start => exact startEffect_inv h (by rcases hp with hp | hp | hp <;> simp [hp])
    | process n => exact processEffect_inv h hp n
    | flush => exact flushEffect_inv h hp
    | abort => exact abort_inv h (by rcases hp with hp | hp <;> simp [hp])
    | sreset => exact sresetEffect_inv h
  · exact h.raise (by simp)

theorem dispatch_inv {w : Word} {s t : State} (h : s.Inv) (hd : dispatch w s = .next t) : t.Inv := by
  rcases dispatch_cases hd with ⟨-, rfl⟩ | ⟨i, -, he, -⟩
  · exact h.raise (by simp)
  · exact exec_inv h he

/-! ### The host and the external reset -/

/-- IN_BUF lies within the RAM, and a write to it leaves every written tap written. -/
theorem State.Inv.setIn {s : State} (h : s.Inv) {i : Nat} (hi : i < 1024) (v : Word) : (s.setIn i v).Inv :=
  { h with
    mem_wf := wf_writeWord h.mem_wf _ _
    mem_range := mem_range_writeWord h.mem_range fun b h1 h2 => by
      simp only [inBufAddr, inBufBase, ramOffset, tapsBase, Config.lMax] at *
      omega
    taps_written := fun j hj => holdsWord_writeWord _ _ _ _ (h.taps_written j hj) }

theorem hostWrite_inv {s : State} (h : s.Inv) (a : Offset) (v : Word) : (s.hostWrite a v).Inv := by
  rcases hostWrite_cases s a v with ⟨-, he | he⟩ | ⟨-, ⟨i, hi, he⟩ | ⟨fa, wi, o, f1, f2, fs, vo, p, l, he⟩⟩ <;> rw [he]
  · exact h
  · exact h.congr rfl rfl rfl rfl rfl rfl h.result_ne
  · exact h.setIn (locate_inBuf_lt hi) v
  · exact h.congr rfl rfl rfl rfl rfl rfl h.result_ne

theorem reset_inv : State.reset.Inv :=
  .of_idle rfl rfl (Nat.zero_le _) rfl rfl (List.forall_mem_nil _) (List.forall_mem_nil _) (by decide)

theorem externalReset_inv (s : State) : s.externalReset.Inv :=
  reset_inv.congr rfl rfl rfl rfl rfl rfl reset_inv.result_ne

/-! ### Steps and runs -/

theorem step_inv {s t : State} (h : s.Inv) (hs : step s = .next t) : t.Inv := by
  rcases step_cases hs with ⟨a, rest, -, rfl⟩ | ⟨a, v, rest, -, rfl⟩ | ⟨rest, -, rfl⟩ | ⟨-, -, rfl⟩ |
    ⟨w, u, -, -, hd, rfl⟩
  · exact h.congr rfl rfl rfl rfl rfl rfl h.result_ne
  · exact (hostWrite_inv h a v).withInputs rest
  · exact (externalReset_inv s).withInputs rest
  · exact h.withInputs _
  · have hu : u.Inv := dispatch_inv h hd
    exact hu.congr rfl rfl rfl rfl rfl rfl hu.result_ne

/-- What holds at the start of a run and every step keeps holds at its end. -/
theorem run_induction {P : State → Prop} (hstep : ∀ s t, P s → step s = .next t → P t) {k : Nat} {s t : State} (h : P s)
    (hr : Host.Core.run Sys2Proof.core k s = .next t) : P t := by
  induction k generalizing s with
  | zero => cases hr; exact h
  | succ k ih =>
    obtain ⟨u, hu⟩ := step_next s
    rw [run_step hu] at hr
    exact ih (hstep s u h hu) hr

/-- Settles O48: `step_inv` is the step lemma, and the four items of R38 are read off the invariant at the end of a run. -/
theorem invariantKept : Obligations.InvariantKept := by
  refine ⟨fun _ _ => step_inv, fun l k t hr => ?_⟩
  have h : t.Inv := run_induction (fun _ _ => step_inv) (reset_inv.withInputs l) hr
  exact ⟨h.idle_iff, h.len_legal.resolve_left, h.cur_lt, h.out_le⟩

end Sys2Proof.Machine
end

section
/-! The host port at offsets that name no element of the block: misaligned and reserved ones (20_memory.md rules R61,
R63). -/

namespace Sys2Proof.Machine

/-- Such an offset reads 0, busy or not. -/
theorem hostRead_eq_zero_of_locate {s : State} {a : Offset} (h : locate a = .misaligned ∨ locate a = .reserved) :
    s.hostRead a = 0 := by
  unfold State.hostRead
  rcases h with h | h <;> rw [h] <;> exact ite_self 0

/-- While BUSY = 0, a write to such an offset changes nothing. -/
theorem hostWrite_eq_self_of_locate {s : State} {a : Offset} (hb : s.busy ≠ true)
    (h : locate a = .misaligned ∨ locate a = .reserved) (v : Word) : s.hostWrite a v = s := by
  unfold State.hostWrite
  rw [if_neg hb]
  rcases h with h | h <;> rw [h] <;> rfl

/-- A misaligned write changes nothing: while BUSY = 1 it is dropped without setting OVR. -/
theorem hostWrite_misaligned (s : State) {a : Offset} (ha : a.toNat % 4 ≠ 0) (v : Word) : s.hostWrite a v = s := by
  by_cases hb : s.busy = true
  · rw [hostWrite_dropped hb, if_neg ha]
  · exact hostWrite_eq_self_of_locate hb (.inl (locate_misaligned ha)) v

/-- A write to a reserved offset sets OVR while BUSY = 1, as every aligned write then does, and changes nothing else. -/
theorem hostWrite_reserved (s : State) {a : Offset} (ha : a.toNat % 4 = 0) (hl : locate a = .reserved) (v : Word) :
    s.hostWrite a v = if s.busy then { s with ovr := true } else s := by
  split
  case isTrue hb => rw [hostWrite_dropped hb, if_pos ha]
  case isFalse hb => exact hostWrite_eq_self_of_locate hb (.inr hl) v

/-- Settles O53: `locate` sends the offsets of each clause to `.misaligned` or to `.reserved`. -/
theorem reservedAndMisaligned : Obligations.ReservedAndMisaligned := by
  refine fun s a v => ⟨fun ha => ?_, fun ha hr => ?_⟩
  · exact ⟨hostRead_eq_zero_of_locate (.inl (locate_misaligned ha)), hostWrite_misaligned s ha v⟩
  · have hl : locate a = .reserved := locate_reserved ha hr
    exact ⟨hostRead_eq_zero_of_locate (.inr hl), hostWrite_reserved s ha hl v⟩

end Sys2Proof.Machine
end

section
/-! The command words: the total decode of rule R83 over the numbers in a word, and the words of rule R84. -/

namespace Sys2Proof

open Laws.Encoding (opcode operand)

/-- A word decodes to the command whose OP and operand are the numbers in its fields, where RSV is 0 (rule R83). -/
theorem decode_of_fields {w : Word} (i : Instr) (hrsv : w.toNat / 2 ^ 8 % 2 ^ 8 = 0) (hop : w.toNat % 2 ^ 8 = opcode i)
    (hcnt : w.toNat / 2 ^ 16 = operand i) : decode w = .ok i := by
  rw [decode_eq, hrsv, hop, hcnt]
  cases i <;> rfl

/-- Settles O3: the illegal words by `decode_error_iff`, each row of the table by `decode_of_fields`. -/
theorem decodeRule : Obligations.DecodeRule := by
  rintro w _ _ _ rfl rfl rfl
  refine ⟨(decode_error_iff w).2, fun hrsv hop => decode_of_fields (.process _) hrsv hop rfl, fun hrsv hcnt => ?_⟩
  exact ⟨fun hop => decode_of_fields .nop hrsv hop hcnt, fun hop => decode_of_fields .design hrsv hop hcnt,
    fun hop => decode_of_fields .start hrsv hop hcnt, fun hop => decode_of_fields .flush hrsv hop hcnt,
    fun hop => decode_of_fields .abort hrsv hop hcnt, fun hop => decode_of_fields .sreset hrsv hop hcnt⟩

/-- Settles O2: `encode` is the table, and the number of a PROCESS word is `encode_process_toNat`. -/
theorem encodedWords : Obligations.EncodedWords := by
  have process : ∀ n ≤ 65535, encode (.process n) = (BitVec.ofNat 32 n <<< 16) ||| 0x00000003 ∧
      (encode (.process n)).toNat = n * 2 ^ 16 + 3 :=
    fun n hn => ⟨rfl, encode_process_toNat (by omega)⟩
  exact ⟨rfl, rfl, rfl, process, rfl, rfl, rfl, by decide, by decide⟩

end Sys2Proof
end

section
/-! The phases of the commands: the result each command reports in the phases of rule R110, and CMD_STATE outside them
(60_exceptions.md rule R215). -/

namespace Sys2Proof.Machine

/-- Outside its phases a command changes RESULT to CMD_STATE and nothing else. -/
theorem exec_of_not_permitted {i : Instr} {s : State} (h : ¬permitted i s.phase = true) :
    exec i s = .next { s with result := .cmdState } := by
  rw [exec_eq, if_neg h]
  rfl

/-- DESIGN reports whether the FilterSpec validates (rules R130, R212). -/
theorem designEffect_result (s : State) :
    (designEffect s).result = if s.filterSpec.validate = 0 then .ok else .configError := by
  split
  case isTrue h =>
    obtain ⟨w, hw⟩ := window_of_validate h
    rw [designEffect_pass h hw]
  case isFalse h => rw [designEffect_fail h]

/-- PROCESS reports whether its block fits IN_BUF (rules R180, R216). -/
theorem processEffect_result (n : Nat) (s : State) :
    (processEffect n s).result = if n ≤ 1024 then .ok else .cmdCount := by
  split
  case isTrue h => rw [processEffect_eq h]
  case isFalse h => rw [processEffect_over (Nat.lt_of_not_le h)]

/-- The result of a command in a phase that permits it (rule R111). -/
def ownResult (s : State) : Instr → Result
  | .nop => .ok
  | .design => if s.filterSpec.validate = 0 then .ok else .configError
  | .start => .ok
  | .process n => if n ≤ 1024 then .ok else .cmdCount
  | .flush => .ok
  | .abort => .ioError
  | .sreset => .ok

theorem exec_result_of_permitted {i : Instr} {s : State} (h : permitted i s.phase = true) :
    ∃ t, exec i s = .next t ∧ t.result = ownResult s i := by
  refine ⟨_, exec_eq i s, ?_⟩
  rw [if_pos h]
  cases i with
  | nop => rfl
  | design => exact designEffect_result s
  | start => rfl
  | process n => exact processEffect_result n s
  | flush => rfl
  | abort => rfl
  | sreset => rfl

/-- Settles O37: the first clause lists the phases that `permitted_iff` permits, the second all others. -/
theorem phaseTable : Obligations.PhaseTable := by
  intro i s n
  constructor
  · intro h
    have permits : permitted i s.phase = true := by
      rw [permitted_iff]
      rcases h with rfl | rfl | ⟨rfl, hp⟩ | ⟨rfl, hp⟩ | ⟨rfl, hp⟩ | ⟨rfl, hp⟩ | ⟨rfl, hp⟩
      · trivial
      · trivial
      all_goals exact hp
    exact exec_result_of_permitted permits
  · intro h
    refine exec_of_not_permitted ?_
    rw [permitted_iff]
    rcases h with ⟨rfl, hp⟩ | ⟨rfl, hp | hp⟩ | ⟨rfl, hp⟩ | ⟨rfl, hp⟩ | ⟨rfl, hp | hp | hp⟩ <;> simp [hp]

end Sys2Proof.Machine
end

section
/-! The host port at the registers and at the windows it cannot write, while BUSY = 0 and while BUSY = 1
(40_host_access.md rules R101, R102, R104 to R107, R112). -/

namespace Sys2Proof.Machine

/-! ### Registers while BUSY = 0 -/

/-- Settles O49: `hostRead_register` at each offset; FILTER and STATUS as the numbers of their fields. -/
theorem registerReads : Obligations.RegisterReads := by
  intro s h
  have read := hostRead_register h
  have readNat (r : Register) : (s.hostRead r.offset).toNat = (s.readRegister r).toNat := congrArg _ (read r)
  have status : s.statusWord.toNat = s.lastOp.toNat * 2 ^ 16 + s.result.code.toNat * 2 ^ 8 +
      s.phase.code.toNat * 2 ^ 4 + s.ovr.toNat * 2 := by
    rw [statusWord_toNat, busy_none h, Bool.toNat_false, Nat.add_zero]
  have zext {n : Nat} (x : BitVec n) (hn : n ≤ 32) : (x.setWidth 32).toNat = x.toNat := BitVec.toNat_setWidth_of_le hn
  exact ⟨read .id, read .version, read .caps, (readNat .filter).trans (filterWord_toNat s), read .f1, read .f2,
    read .fs, read .volume, read .cmd, (readNat .status).trans status,
    (readNat .cfgErr).trans (zext s.cfgErr (by decide)), (readNat .tapCount).trans (zext s.tapCount (by decide)),
    (readNat .outCount).trans (zext s.outCount (by decide)), read .samplesIn, read .samplesOut,
    by decide, by decide⟩

/-- What a write of FILTER stores reads back with every reserved bit 0. -/
theorem hostRead_filter_hostWrite {s : State} (h : s.pending = none) (v : Word) :
    (s.hostWrite Register.filter.offset v).hostRead Register.filter.offset =
      v.extractLsb' 16 16 ++ 0#9 ++ v.extractLsb' 4 3 ++ 0#2 ++ v.extractLsb' 0 2 := by
  rw [hostWrite_register h]
  have pending : (s.writeRegister v .filter).pending = none := h
  exact hostRead_register pending .filter

/-- Settles O50: `hostWrite_register` at each offset but CMD's; the ORDER of FILTER is all of bits [31:16]. -/
theorem registerWrites : Obligations.RegisterWrites := by
  intro s v h
  have write (r : Register) : s.hostWrite r.offset v = s.writeRegister v r := hostWrite_register h r v
  have family : (v.extractLsb' 0 2).toNat = v.toNat % 4 := BitVec.extractLsb'_toNat 0 2 v
  have window : (v.extractLsb' 4 3).toNat = v.toNat / 2 ^ 4 % 8 := by
    rw [BitVec.extractLsb'_toNat, Nat.shiftRight_eq_div_pow]
  have order : (v.extractLsb' 16 16).toNat = v.toNat / 2 ^ 16 := countField_toNat v
  have readOnly : ∀ a ∈ [0x000, 0x004, 0x008, 0x024, 0x028, 0x02C, 0x030, 0x034, 0x038], s.hostWrite a v = s := by
    simp only [List.forall_mem_cons]
    exact ⟨write .id, write .version, write .caps, write .status, write .cfgErr, write .tapCount, write .outCount,
      write .samplesIn, write .samplesOut, List.forall_mem_nil _⟩
  exact ⟨⟨_, _, _, write .filter, family, window, order⟩,
    write .f1, write .f2, write .fs, write .volume, readOnly, hostRead_filter_hostWrite h 0x000F7FFE⟩

/-! ### The TAPS and OUT_BUF windows -/

theorem tapsReadable_iff (p : Phase) : p.tapsReadable = true ↔ p = .ready ∨ p = .done ∨ p = .halted := by
  cases p <;> simp [Phase.tapsReadable]

/-- The TAPS window ends at index 1000 (20_memory.md rule R61). -/
theorem locate_tap_reserved {i : Nat} (hi : i < 1024) (h : 1000 < i) : locate (tapOffset i) = .reserved := by
  have ha := tapOffset_toNat hi
  exact locate_reserved (by omega) (.inr (by omega))

theorem hostRead_tapOffset {s : State} (h : s.pending = none) {i : Nat} (hi : i < 1024) :
    s.hostRead (tapOffset i) =
      if s.phase.tapsReadable = true ∧ i < s.len ∧ i ≤ 1000 then s.tapWord i else 0 := by
  rcases Nat.lt_or_ge 1000 i with h1 | h1
  · rw [hostRead_eq_zero_of_locate (.inr (locate_tap_reserved hi h1)), if_neg (by omega)]
  · simp only [hostRead_tap h h1, h1, and_true]

theorem hostWrite_tapOffset {s : State} (h : s.pending = none) {i : Nat} (hi : i < 1024) (v : Word) :
    s.hostWrite (tapOffset i) v = s := by
  rw [hostWrite_idle h]
  rcases Nat.lt_or_ge 1000 i with h1 | h1
  · rw [locate_tap_reserved hi h1]
    rfl
  · rw [locate_tap h1]
    rfl

/-- Settles O52: the indices past 1000 are reserved offsets, every other one is in its window. -/
theorem readOnlyWindows : Obligations.ReadOnlyWindows := by
  intro s i v hi h
  refine ⟨?_, hostWrite_tapOffset h hi v, ?_, ?_⟩
  · simp only [hostRead_tapOffset h hi, tapsReadable_iff]
    rfl
  · rw [hostRead_idle h, locate_outBuf hi]
    rfl
  · rw [hostWrite_idle h, locate_outBuf hi]
    rfl

/-! ### While BUSY = 1, and the acceptance of a command -/

theorem hostRead_busy_register {s : State} {w : Word} (h : s.pending = some w) {r : Register}
    (hr : r.readableWhileBusy = true) : s.hostRead r.offset = s.readRegister r := by
  rw [hostRead_busy h, locate_register]
  exact if_pos hr

theorem hostRead_busy_other {s : State} {w : Word} (h : s.pending = some w) {a : Offset}
    (ha : ∀ r : Register, r.readableWhileBusy = true → a ≠ r.offset) : s.hostRead a = 0 := by
  rw [hostRead_busy h]
  cases hl : locate a with
  | register r => exact if_neg fun hr => ha r hr (locate_register_iff hl)
  | misaligned => rfl
  | inBuf i => rfl
  | outBuf i => rfl
  | tap i => rfl
  | reserved => rfl

/-- Settles O54: the four registers of rule R105, then no other offset names one of them. -/
theorem busyReads : Obligations.BusyReads := by
  intro s a w h _
  have status : s.hostRead 0x024 = s.statusWord := hostRead_busy_register h (r := .status) rfl
  split_ifs with hid hversion hcaps hstatus
  · exact hid ▸ hostRead_busy_register h (r := .id) rfl
  · exact hversion ▸ hostRead_busy_register h (r := .version) rfl
  · exact hcaps ▸ hostRead_busy_register h (r := .caps) rfl
  · rw [hstatus, status, statusWord_eq, busy_some h]
    rfl
  · refine hostRead_busy_other h fun r hr => ?_
    cases r with
    | id => exact hid
    | version => exact hversion
    | caps => exact hcaps
    | status => exact hstatus
    | _ => cases hr

/-- Settles O55: an aligned write is dropped as `hostWrite_dropped` says. -/
theorem busyWrites : Obligations.BusyWrites :=
  fun _ a v _ h ha => (hostWrite_dropped (busy_some h) a v).trans (if_pos ha)

theorem hostWrite_cmd {s : State} (h : s.pending = none) (w : Word) : s.hostWrite 0x020 w = s.accept w :=
  hostWrite_register h .cmd w

/-- An accepted command shows in STATUS at once, beside the fields that were there. -/
theorem hostRead_status_accept (s : State) (w : Word) : (s.accept w).hostRead 0x024 = (s.accept w).statusWord :=
  hostRead_busy_register (w := w) rfl (r := .status) rfl

/-- STATUS of a pending DESIGN with OVR = 0, for every PHASE and RESULT field. -/
theorem status_fields_of_design : ∀ (p : BitVec 3) (r : BitVec 4),
    0#8 ++ 0x01#8 ++ 0#4 ++ r ++ 0#1 ++ p ++ 0#2 ++ BitVec.ofBool false ++ BitVec.ofBool true =
      (0x00010001 : Word) ||| (p.setWidth 32 <<< 4) ||| (r.setWidth 32 <<< 8) := by decide

/-- Settles O56: the write is `State.accept`, and STATUS is read from the accepted state. -/
theorem commandAcceptance : Obligations.CommandAcceptance := by
  intro s w h
  have status : s.ovr = false → (s.hostWrite 0x020 0x00000001).hostRead 0x024 =
      0x00010001 ||| (s.phase.code.setWidth 32 <<< 4) ||| (s.result.code.setWidth 32 <<< 8) := by
    intro hovr
    rw [hostWrite_cmd h, hostRead_status_accept, State.statusWord, State.accept_ovr, hovr]
    exact status_fields_of_design s.phase.code s.result.code
  refine ⟨?_, ?_, ?_, status⟩ <;> rw [hostWrite_cmd h]
  · rfl
  · exact opField_toNat w
  · rfl

end Sys2Proof.Machine
end

section
/-! The validation of a FilterSpec: its mask bit by bit on exact values, and a DESIGN it fails (41_designer.md rules R131,
R155). -/

namespace Sys2Proof.Machine

/-! ### Each check, on exact values -/

/-- The recognised window codes are 0 to 4 (30_encoding.md rule R88). -/
theorem windowOf_isNone_iff : ∀ c : BitVec 3, (windowOf c).isNone = true ↔ 4 < c.toNat := by decide

theorem fsBad_iff (f : FilterSpec) :
    f.fsBad = true ↔ ¬(isFinite f.fs = true ∧ exactLt (some 0) (exactValue f.fs)) := by
  rw [exactValue_eq, zero_exact, ← lt_iff, ← Bool.and_eq_true, FilterSpec.fsBad, Bool.not_eq_true', Bool.not_eq_true]

theorem f2Range_iff (s : State) :
    s.filterSpec.f2Range = true ↔ (s.family = 2 ∨ s.family = 3) ∧ ¬cutoffInRange s.f2 s.fs := by
  rw [FilterSpec.f2Range, Bool.and_eq_true, isBand_iff, cutoffBad_iff]
  rfl

theorem fOrder_iff (s : State) :
    s.filterSpec.fOrder = true ↔
      (s.family = 2 ∨ s.family = 3) ∧ ¬exactLt (exactValue s.f1) (exactValue s.f2) := by
  rw [FilterSpec.fOrder, Bool.and_eq_true, isBand_iff, exactValue_eq, exactValue_eq, ← lt_iff, Bool.not_eq_true',
    Bool.not_eq_true]
  rfl

/-- Settles O16: each bit of the mask is its check (`validate_bits`), each check a comparison of exact values. -/
theorem validateMask : Obligations.ValidateMask := by
  intro s
  obtain ⟨b0, b1, b2, b3, b4, b5, b6⟩ := validate_bits s.filterSpec
  rw [b0, b1, b2, b3, b4, b5, b6]
  exact ⟨windowOf_isNone_iff s.window, decide_eq_true_iff, decide_eq_true_iff, fsBad_iff s.filterSpec,
    cutoffBad_iff s.f1 s.fs, f2Range_iff s, fOrder_iff s⟩

/-! ### FilterSpecs that fail a check or two -/

/-- The mask of a FilterSpec, its seven checks given. -/
theorem validate_of_checks (f : FilterSpec) {b0 b1 b2 b3 b4 b5 b6 : Bool} (h0 : f.windowBad = b0) (h1 : f.orderOdd = b1)
    (h2 : f.orderRange = b2) (h3 : f.fsBad = b3) (h4 : f.f1Range = b4) (h5 : f.f2Range = b5) (h6 : f.fOrder = b6) :
    f.validate = BitVec.ofBool b6 ++ BitVec.ofBool b5 ++ BitVec.ofBool b4 ++ BitVec.ofBool b3 ++ BitVec.ofBool b2 ++
      BitVec.ofBool b1 ++ BitVec.ofBool b0 := by
  subst_vars
  rfl

/-- F1 = 0 is not above 0, so it fails F1_RANGE. -/
theorem cutoffBad_zero (fs : Word) : cutoffBad 0 fs = true := by
  have zero : Num.zero.lt (unpack 0) = false := by decide
  unfold cutoffBad
  rw [zero]
  rfl

/-- F1 = 0 lies below every F2 in range, so it does not fail F_ORDER. -/
theorem fOrder_of_f1_zero {f : FilterSpec} (h : f.f2Range = false) (h1 : f.f1 = 0) : f.fOrder = false := by
  have zero : unpack 0 = Num.zero := by decide
  unfold FilterSpec.f2Range cutoffBad at h
  unfold FilterSpec.fOrder
  rw [h1, zero]
  cases hband : f.family.isBand with
  | false => rfl
  | true =>
    have above : Num.zero.lt (unpack f.f2) = true := by
      rw [hband, Bool.true_and, Bool.not_eq_false', Bool.and_eq_true] at h
      exact h.1
    rw [above]
    rfl

section
variable (f : FilterSpec) (h : f.validate = 0)
include h

theorem validate_odd_order {n : ℕ} (hodd : n % 2 = 1) (hn : 2 ≤ n ∧ n ≤ 1000) :
    { f with order := n }.validate = 0x02 := by
  obtain ⟨h0, -, -, h3, h4, h5, h6⟩ := (validate_zero_iff f).1 h
  have inRange : ¬(n < 2 ∨ 1000 < n) := by omega
  exact validate_of_checks { f with order := n } h0 (decide_eq_true hodd) (decide_eq_false inRange) h3 h4 h5 h6

theorem validate_odd_order_outside {n : ℕ} (hodd : n % 2 = 1) (hn : n < 2 ∨ 1000 < n) :
    { f with order := n }.validate = 0x06 := by
  obtain ⟨h0, -, -, h3, h4, h5, h6⟩ := (validate_zero_iff f).1 h
  exact validate_of_checks { f with order := n } h0 (decide_eq_true hodd) (decide_eq_true hn) h3 h4 h5 h6

theorem validate_f1_zero : { f with f1 := 0 }.validate = 0x10 := by
  obtain ⟨h0, h1, h2, h3, -, h5, -⟩ := (validate_zero_iff f).1 h
  exact validate_of_checks { f with f1 := 0 } h0 h1 h2 h3 (cutoffBad_zero f.fs) h5 (fOrder_of_f1_zero h5 rfl)

theorem validate_f2_not_above {v : Word} (hband : f.family.isBand = true) (hin : cutoffInRange v f.fs)
    (hlt : ¬exactLt (exactValue f.f1) (exactValue v)) : { f with f2 := v }.validate = 0x40 := by
  obtain ⟨h0, h1, h2, h3, h4, -, -⟩ := (validate_zero_iff f).1 h
  have inRange : cutoffBad v f.fs = false := by
    rw [← Bool.not_eq_true, cutoffBad_iff]
    exact not_not_intro hin
  have notBelow : (unpack f.f1).lt (unpack v) = false := by
    rw [← Bool.not_eq_true, lt_iff]
    exact hlt
  refine validate_of_checks { f with f2 := v } h0 h1 h2 h3 h4 (b5 := false) (b6 := true) ?_ ?_
  · show (f.family.isBand && cutoffBad v f.fs) = false
    rw [inRange, Bool.and_false]
  · show (f.family.isBand && !(unpack f.f1).lt (unpack v)) = true
    rw [hband, notBelow]
    rfl

end

/-! ### A DESIGN whose validation fails -/

/-- A DESIGN outside STREAM whose FilterSpec has a nonzero mask (60_exceptions.md rule R212). -/
theorem exec_design_fail (s : State) {mask : BitVec 7} (hp : s.phase ≠ .stream) (hm : mask ≠ 0)
    (hv : s.filterSpec.validate = mask) :
    exec .design s = .next { s with cfgErr := mask, tapCount := 0, phase := .idle, result := .configError } := by
  subst hv
  rw [exec_eq, if_pos ((permitted_iff .design s.phase).2 hp)]
  exact congrArg _ (designEffect_fail hm)

/-- Settles O17: each case is a DESIGN that fails, with the mask its FilterSpec has. -/
theorem configErrorCases : Obligations.ConfigErrorCases := by
  intro s hp hv
  refine ⟨?_, ?_, ?_, fun v hfam hin hlt => ?_⟩
  · exact exec_design_fail { s with order := 127 } hp (by decide)
      (validate_odd_order s.filterSpec hv (n := 127) (by decide) (by decide))
  · exact exec_design_fail { s with order := 1 } hp (by decide)
      (validate_odd_order_outside s.filterSpec hv (n := 1) (by decide) (by decide))
  · exact exec_design_fail { s with f1 := 0 } hp (by decide) (validate_f1_zero s.filterSpec hv)
  · have band : s.filterSpec.family.isBand = true := (isBand_iff s).2 (.inl hfam)
    exact exec_design_fail { s with f2 := v } hp (by decide) (validate_f2_not_above s.filterSpec hv band hin hlt)

end Sys2Proof.Machine
end

section
/-! The taps are symmetric about the centre: in the real reading every window and every ideal response is, and in binary32
the synthesis mirrors the lower half (41_designer.md rules R150 to R152). -/

namespace Sys2Proof.Machine

/-! ### The real reading -/

theorem realSinc_neg (t : ℝ) : realSinc (-t) = realSinc t := by
  unfold realSinc
  rw [mul_neg, Real.sin_neg, neg_div_neg_eq]
  simp only [neg_eq_zero]

theorem realBandTerm_neg (ft d : ℝ) : realBandTerm ft (-d) = realBandTerm ft d := by
  unfold realBandTerm
  rw [mul_neg, mul_neg, Real.sin_neg, neg_div_neg_eq]

/-- The cosine of k whole turns less an angle, as the window formulas write it. -/
theorem cos_mirror (k n : ℕ) (hn : 0 < n) (x : ℝ) :
    Real.cos (k * (2 * Real.pi) * (n - x) / n) = Real.cos (k * (2 * Real.pi) * x / n) := by
  have hn' : (n : ℝ) ≠ 0 := by exact_mod_cast hn.ne'
  have angle : k * (2 * Real.pi) * (n - x) / n = k * (2 * Real.pi) - k * (2 * Real.pi) * x / n := by
    field_simp
  rw [angle, Real.cos_nat_mul_two_pi_sub]

theorem realWindow_mirror (w : Window) {n : ℕ} (hn : 0 < n) (x : ℝ) : realWindow w n (n - x) = realWindow w n x := by
  have once := cos_mirror 1 n hn x
  have twice := cos_mirror 2 n hn x
  rw [Nat.cast_one, one_mul] at once
  rw [show ((2 : ℕ) : ℝ) * (2 * Real.pi) = 4 * Real.pi by push_cast; ring] at twice
  cases w with
  | hamming => simp only [realWindow, once]
  | hanning => simp only [realWindow, once]
  | bartlett =>
    have distance : |(n : ℝ) - x - n / 2| = |x - n / 2| := by
      rw [← abs_neg]
      congr 1
      ring
    simp only [realWindow, distance]
  | blackman => simp only [realWindow, once, twice]
  | rectangular => rfl

theorem realClosedForm_mirror (f : Family) (n : ℕ) (ft1 ft2 x : ℝ) :
    realClosedForm f n ft1 ft2 (n - x) = realClosedForm f n ft1 ft2 x := by
  have distance : (n : ℝ) - x - n / 2 = -(x - n / 2) := by ring
  have argument : (2 * ((n : ℝ) - x) - n) * ft1 = -((2 * x - n) * ft1) := by ring
  cases f <;> simp only [realClosedForm, distance, argument, realSinc_neg, realBandTerm_neg]

theorem realIdeal_mirror (f : Family) (n : ℕ) (ft1 ft2 x : ℝ) :
    realIdeal f n ft1 ft2 (n - x) = realIdeal f n ft1 ft2 x := by
  have centre : (n : ℝ) - x = n / 2 ↔ x = n / 2 := by constructor <;> intro h <;> linarith
  simp only [realIdeal, centre, realClosedForm_mirror]

/-! ### The taps of a DESIGN -/

/-- A DESIGN outside STREAM whose FilterSpec validates. -/
theorem exec_design_pass {s : State} {w : Window} (hp : s.phase ≠ .stream) (hv : s.filterSpec.validate = 0)
    (hw : s.filterSpec.window = some w) : exec .design s = .next (designPass s w) := by
  rw [exec_eq, if_pos ((permitted_iff .design s.phase).2 hp)]
  exact congrArg _ (designEffect_pass hv hw)

/-- Every word of TAPS[0..N] is the tap of its mirror image in the lower half. -/
theorem designPass_tapWord {s : State} (w : Window) (hv : s.filterSpec.validate = 0) {x : ℕ} (hx : x ≤ s.order.toNat) :
    (designPass s w).tapWord x = designTap s.filterSpec w (min x (s.order.toNat - x)) :=
  synthesize_readWord s.filterSpec w s.mem _ (order_of_validate hv).1 x hx

/-- Settles O19: `synthesize` mirrors the lower half bit for bit; the real window and the real ideal response are each
their own mirror image. -/
theorem tapSymmetry : Obligations.TapSymmetry := by
  refine ⟨fun s hp hv => ?_, fun f w n ft1 ft2 x hn => ?_⟩
  · obtain ⟨w, hw⟩ := window_of_validate hv
    obtain ⟨heven, -, hmax⟩ := order_of_validate hv
    refine ⟨designPass s w, exec_design_pass hp hv hw, designPass_len w hmax, fun x hx => ⟨?_, ?_⟩⟩
    · have mirror : min (s.order.toNat - x) (s.order.toNat - (s.order.toNat - x)) = min x (s.order.toNat - x) := by omega
      rw [designPass_tapWord w hv hx, designPass_tapWord w hv (Nat.sub_le _ _), mirror]
    · exact synthesize_holdsWord s.filterSpec w s.mem heven x hx
  · simp only [realTap, realWindow_mirror w hn, realIdeal_mirror]

end Sys2Proof.Machine
end

section
/-! The five windows and their end values, in binary32 and in the real reading (41_designer.md rules R132 to R137). -/

namespace Sys2Proof.Machine

/-! ### The end values in binary32 -/

theorem div32_zero_toF32 {n : ℕ} (h0 : 0 < n) (h : n ≤ 2 ^ 24) : div32 0 (toF32 n) = 0 :=
  div32_zero_left (s := false) (t := false) (by decide) (unpack_toF32 n h0 h) (Nat.mul_pos h0 pos_units).ne'

theorem div32_toF32_self {n : ℕ} (h0 : 0 < n) (h : n ≤ 2 ^ 24) : div32 (toF32 n) (toF32 n) = one32 :=
  div32_self (unpack_toF32 n h0 h) (Nat.mul_pos h0 pos_units).ne'

/-- The cosine of +0 is 1.0. -/
theorem cos32_zero : cos32 0 = one32 := by decide +kernel

section
variable {n : ℕ} (h0 : 0 < n) (h : n ≤ 2 ^ 24)
include h0 h

/-- For x = 0 both window arguments are +0 (rule R132). -/
theorem windowArg1_zero : windowArg1 n 0 = 0 := by
  have product : mul32 twoPi32 (toF32 (0 : ℕ)) = 0 := by decide
  rw [windowArg1, product, div32_zero_toF32 h0 h]

theorem windowArg2_zero : windowArg2 n 0 = 0 := by
  have product : mul32 fourPi32 (toF32 (0 : ℕ)) = 0 := by decide
  rw [windowArg2, product, div32_zero_toF32 h0 h]

theorem hammingAt_zero : hammingAt n 0 = 0x3DA3D70C := by
  rw [hammingAt, windowArg1_zero h0 h, cos32_zero]
  decide

theorem hanningAt_zero : hanningAt n 0 = 0 := by
  rw [hanningAt, windowArg1_zero h0 h, cos32_zero]
  decide

theorem blackmanAt_zero : blackmanAt n 0 = 0xB2800000 := by
  rw [blackmanAt, windowArg1_zero h0 h, windowArg2_zero h0 h, cos32_zero]
  decide

theorem bartlettAt_zero : bartlettAt n 0 = 0 := by
  have distance : (2 * ((0 : ℕ) : ℤ) - n).natAbs = n := by omega
  rw [bartlettAt, distance, div32_toF32_self h0 h]
  decide

theorem bartlettAt_centre (heven : n % 2 = 0) : bartlettAt n (n / 2) = one32 := by
  have distance : (2 * ((n / 2 : ℕ) : ℤ) - n).natAbs = 0 := by omega
  have zero : toF32 (0 : ℕ) = 0 := by decide
  rw [bartlettAt, distance, zero, div32_zero_toF32 h0 h]
  decide

end

/-! ### The end values in the real reading -/

section
variable {n : ℕ} (hn : 0 < n)
include hn

/-- At the centre the window arguments are half a turn and a whole turn. -/
theorem cos_window_centre :
    Real.cos (2 * Real.pi * (n / 2) / n) = -1 ∧ Real.cos (4 * Real.pi * (n / 2) / n) = 1 := by
  have hn' : (n : ℝ) ≠ 0 := by exact_mod_cast hn.ne'
  have half : 2 * Real.pi * ((n : ℝ) / 2) / n = Real.pi := by field_simp
  have whole : 4 * Real.pi * ((n : ℝ) / 2) / n = 2 * Real.pi := by field_simp; norm_num
  rw [half, whole]
  exact ⟨Real.cos_pi, Real.cos_two_pi⟩

theorem realWindow_zero :
    realWindow .hamming n 0 = 0.08 ∧ realWindow .hanning n 0 = 0 ∧ realWindow .bartlett n 0 = 0 ∧
      realWindow .blackman n 0 = 0 := by
  have hn' : (n : ℝ) ≠ 0 := by exact_mod_cast hn.ne'
  have distance : |(0 : ℝ) - n / 2| = n / 2 := by rw [zero_sub, abs_neg, abs_of_nonneg (by positivity)]
  simp only [realWindow, distance, mul_zero, zero_div, Real.cos_zero]
  refine ⟨by norm_num, by norm_num, ?_, by norm_num⟩
  field_simp
  norm_num

theorem realWindow_centre :
    realWindow .hamming n (n / 2) = 1 ∧ realWindow .hanning n (n / 2) = 1 ∧ realWindow .bartlett n (n / 2) = 1 ∧
      realWindow .blackman n (n / 2) = 1 := by
  obtain ⟨half, whole⟩ := cos_window_centre hn
  simp only [realWindow, half, whole, sub_self, abs_zero]
  norm_num

end

/-- Settles O20: the expressions are the definitions, the end values are the lemmas above. -/
theorem windowRules : Obligations.WindowRules := by
  refine ⟨fun n x => ⟨rfl, rfl, ?_, rfl, rfl⟩, fun n heven hmin hmax => ?_, fun n x => ⟨rfl, rfl, rfl, rfl, rfl⟩,
    fun n hn => ?_⟩
  · rw [Int.abs_eq_natAbs]
    rfl
  · have h0 : 0 < n := by omega
    have h : n ≤ 2 ^ 24 := by omega
    exact ⟨hammingAt_zero h0 h, hanningAt_zero h0 h, bartlettAt_zero h0 h, bartlettAt_centre h0 h heven,
      blackmanAt_zero h0 h⟩
  · obtain ⟨hamming0, hanning0, bartlett0, blackman0⟩ := realWindow_zero hn
    obtain ⟨hamming1, hanning1, bartlett1, blackman1⟩ := realWindow_centre hn
    exact ⟨hamming0, hamming1, hanning0, hanning1, bartlett0, bartlett1, blackman0, blackman1⟩

end Sys2Proof.Machine
end

section
/-! Flipping the sign of an operand (00_scope.md rule R10), and the normalised sinc (41_designer.md rule R138). -/

namespace Sys2Proof.Machine

/-! ### The flipped sign, on what a word stands for -/

/-- The value of the other sign; a NaN stays one. -/
def Num.neg : Num → Num
  | .nan => .nan
  | .inf s => .inf (!s)
  | .fin s k => .fin (!s) k

@[simp] theorem Num.neg_nan : Num.nan.neg = .nan := rfl
@[simp] theorem Num.neg_inf (s : Bool) : (Num.inf s).neg = .inf (!s) := rfl
@[simp] theorem Num.neg_fin (s : Bool) (k : ℕ) : (Num.fin s k).neg = .fin (!s) k := rfl
@[simp] theorem Num.neg_neg (a : Num) : a.neg.neg = a := by cases a <;> simp

/-- `neg32` flips the sign of what its operand stands for. -/
theorem unpack_neg32_eq (w : Word) : unpack (neg32 w) = (unpack w).neg := by
  have hlt := w.isLt
  have mag : (neg32 w).toNat % 2 ^ 31 = w.toNat % 2 ^ 31 := by rw [neg32_toNat]; split <;> omega
  have sign : decide (2 ^ 31 ≤ (neg32 w).toNat) = !decide (2 ^ 31 ≤ w.toNat) := by
    rw [← decide_not, decide_eq_decide, neg32_toNat]
    split <;> omega
  simp only [unpack, mag, sign]
  split
  · split <;> rfl
  · split <;> rfl

theorem isZero_neg32 (t : Word) : isZero (neg32 t) = isZero t := by
  unfold isZero
  rw [unpack_neg32_eq]
  cases unpack t <;> rfl

/-- Rounding is symmetric about 0. -/
theorem unpack_roundTo_not (neg : Bool) (num den : ℕ) :
    unpack (roundTo (!neg) num den) = (unpack (roundTo neg num den)).neg := by
  unfold roundTo
  rcases Nat.lt_or_eq_of_le (show roundPattern num den ≤ infPattern from Nat.min_le_right _ _) with h | h
  · rw [unpack_pack _ h, unpack_pack _ h]
    rfl
  · rw [h]
    exact (unpack_infWord _).trans (congrArg Num.neg (unpack_infWord neg)).symm

/-- `mul32` is odd in its second operand. -/
theorem unpack_mul32_neg32 (a b : Word) : unpack (mul32 a (neg32 b)) = (unpack (mul32 a b)).neg := by
  unfold mul32
  rw [unpack_neg32_eq]
  cases unpack a with
  | nan => cases unpack b <;> simp
  | inf s =>
    cases unpack b with
    | nan => simp
    | inf t => simp [unpack_infWord]
    | fin t l =>
      by_cases hl : l = 0
      · simp [hl]
      · simp [hl, unpack_infWord]
  | fin s k =>
    cases unpack b with
    | nan => simp
    | inf t =>
      by_cases hk : k = 0
      · simp [hk]
      · simp [hk, unpack_infWord]
    | fin t l =>
      simp only [Num.neg_fin, Bool.bne_not]
      exact unpack_roundTo_not (s != t) _ _

/-- `sin32` is odd. -/
theorem unpack_sin32_neg {p q : Word} (h : unpack q = (unpack p).neg) : unpack (sin32 q) = (unpack (sin32 p)).neg := by
  unfold sin32
  rw [h]
  cases unpack p with
  | nan => simp
  | inf s => simp
  | fin s k =>
    by_cases hk : k = 0
    · simp [hk, unpack_zero]
    · cases s <;> simp [hk, unpack_neg32_eq]

/-- A quotient does not change when both operands change their sign. -/
theorem div32_neg_neg {a b a' b' : Word} (ha : unpack a' = (unpack a).neg) (hb : unpack b' = (unpack b).neg) :
    div32 a' b' = div32 a b := by
  unfold div32
  rw [ha, hb]
  cases unpack a <;> cases unpack b <;> simp

/-! ### The sinc -/

theorem sinc32_of_isZero {t : Word} (h : isZero t = true) : sinc32 t = one32 := if_pos h

theorem sinc32_of_not_isZero {t : Word} (h : isZero t = false) :
    sinc32 t = div32 (sin32 (mul32 pi32 t)) (mul32 pi32 t) := if_neg (by simp [h])

/-- The sinc is even for every word: sine and divisor change their signs together. -/
theorem sinc32_neg (t : Word) : sinc32 (neg32 t) = sinc32 t := by
  cases h : isZero t with
  | true => rw [sinc32_of_isZero h, sinc32_of_isZero ((isZero_neg32 t).trans h)]
  | false =>
    have odd := unpack_mul32_neg32 pi32 t
    rw [sinc32_of_not_isZero h, sinc32_of_not_isZero ((isZero_neg32 t).trans h)]
    exact div32_neg_neg (unpack_sin32_neg odd) odd

/-- A value of one unit or more does not round to a zero. -/
theorem roundPattern_pos {num den : ℕ} (hd : 0 < den) (h : den ≤ num) : 0 < roundPattern num den := by
  have inf : 0 < infPattern := by decide
  refine lt_min ?_ inf
  rcases pattern_parts num den hd with ⟨h0, -⟩ | ⟨-, hm, -⟩
  · have near := roundHalfEven_range (lo := 1) (hi := num + 1) hd (by omega)
      (Nat.lt_of_lt_of_le (Nat.lt_succ_self num) (Nat.le_mul_of_pos_right _ hd))
    rw [h0, pow_zero, Nat.mul_one]
    omega
  · omega

theorem isZero_pack {neg : Bool} {mag : ℕ} (hm : mag < 2 ^ 31) (h0 : 0 < mag) : isZero (pack neg mag) = false := by
  rw [← Bool.not_eq_true, isZero_iff]
  rintro ⟨s, hs⟩
  have := congrArg BitVec.toNat hs
  rw [pack_toNat _ hm, pack_toNat _ (by decide)] at this
  cases neg <;> cases s <;> simp at this <;> omega

theorem isZero_roundTo {neg : Bool} {num den : ℕ} (hd : 0 < den) (h : den ≤ num) :
    isZero (roundTo neg num den) = false :=
  isZero_pack (lt_of_le_of_lt (Nat.min_le_right _ _) (by decide)) (roundPattern_pos hd h)

theorem isZero_of_units {w : Word} {s : Bool} {k : ℕ} (h : unpack w = .fin s k) : isZero w = decide (k = 0) := by
  unfold isZero
  rw [h]

theorem unpack_pi32 : unpack pi32 = .fin false (0xC90FDB * 2 ^ 127) := by decide

/-- |PI32·t| > |t|, so the divisor of the sinc is no zero (rule R138). -/
theorem isZero_mul32_pi32 {t : Word} (h : isZero t = false) : isZero (mul32 pi32 t) = false := by
  cases ht : unpack t with
  | nan =>
    have product : mul32 pi32 t = canonicalNaN := by unfold mul32; rw [unpack_pi32, ht]
    rw [product]
    decide
  | inf s =>
    have product : mul32 pi32 t = infWord s := by unfold mul32; rw [unpack_pi32, ht]; simp
    rw [product]
    cases s <;> decide
  | fin s k =>
    have hk : k ≠ 0 := by
      rw [isZero_of_units ht] at h
      exact of_decide_eq_false h
    unfold mul32
    rw [unpack_pi32, ht]
    exact isZero_roundTo (by decide) (by omega)

/-- Settles O21: each branch of the sinc, its divisor, its evenness, and the real sinc by its definition. -/
theorem sincRule : Obligations.SincRule :=
  ⟨fun _ => sinc32_of_isZero, fun _ h => ⟨sinc32_of_not_isZero h, isZero_mul32_pi32 h⟩, sinc32_neg, if_pos rfl,
    fun _ ht => if_neg ht⟩

end Sys2Proof.Machine
end

section
/-! Binary32 results that stay finite: a product, a quotient and a sine round values far below the overflow bound
(00_scope.md rule R10). -/

namespace Sys2Proof.Machine

/-- The sign and the magnitude of a finite value. -/
theorem signedUnits_real (s : Bool) (k : ℕ) : (signedUnits s k : ℝ) = (if s then -1 else 1) * k := by
  cases s <;> simp [signedUnits]

theorem sign_mul (s t : Bool) :
    (if (s != t) = true then (-1 : ℝ) else 1) = (if s = true then -1 else 1) * if t = true then -1 else 1 := by
  cases s <;> cases t <;> simp

theorem units_pos {w : Word} {s : Bool} {k : ℕ} (h : unpack w = .fin s k) (h0 : isZero w = false) : 0 < k := by
  rw [isZero_of_units h] at h0
  exact Nat.pos_of_ne_zero (of_decide_eq_false h0)

/-- `mul32` rounds the product of nonzero finite operands once. -/
theorem mul32_rounds {a b : Word} (ha : isFinite a = true) (hb : isFinite b = true) (ha0 : isZero a = false)
    (hb0 : isZero b = false) : RoundsTo (wordReal a * wordReal b) (mul32 a b) := by
  obtain ⟨s, k, ha⟩ := (isFinite_iff a).1 ha
  obtain ⟨t, l, hb⟩ := (isFinite_iff b).1 hb
  have rounds := roundTo_rounds (s != t) (k * l) (2 ^ 149) (Nat.mul_pos (units_pos ha ha0) (units_pos hb hb0)) pos_units
  have product : mul32 a b = roundTo (s != t) (k * l) (2 ^ 149) := by unfold mul32; rw [ha, hb]
  rw [product, wordReal_of_unpack ha, wordReal_of_unpack hb, signedUnits_real, signedUnits_real]
  rw [sign_mul] at rounds
  convert rounds using 1
  push_cast
  ring

/-- `div32` rounds the quotient of nonzero finite operands once. -/
theorem div32_rounds {a b : Word} (ha : isFinite a = true) (hb : isFinite b = true) (ha0 : isZero a = false)
    (hb0 : isZero b = false) : RoundsTo (wordReal a / wordReal b) (div32 a b) := by
  obtain ⟨s, k, ha⟩ := (isFinite_iff a).1 ha
  obtain ⟨t, l, hb⟩ := (isFinite_iff b).1 hb
  have hl := units_pos hb hb0
  have rounds := roundTo_rounds (s != t) (k * 2 ^ 149) l (Nat.mul_pos (units_pos ha ha0) pos_units) hl
  have quotient : div32 a b = roundTo (s != t) (k * 2 ^ 149) l := by
    unfold div32
    rw [ha, hb]
    exact if_neg hl.ne'
  rw [quotient, wordReal_of_unpack ha, wordReal_of_unpack hb, signedUnits_real, signedUnits_real]
  rw [sign_mul] at rounds
  have hl' : (l : ℝ) ≠ 0 := by exact_mod_cast hl.ne'
  convert rounds using 1
  have hu : (2 : ℝ) ^ 149 ≠ 0 := by positivity
  rw [Nat.cast_mul, Nat.cast_pow, Nat.cast_ofNat]
  generalize (2 : ℝ) ^ 149 = u at hu
  cases t
  · simp only [Bool.false_eq_true, if_false]
    field_simp
  · simp only [if_true]
    field_simp

theorem abs_wordReal {w : Word} {s : Bool} {k : ℕ} (h : unpack w = .fin s k) : |wordReal w| = k / 2 ^ 149 := by
  rw [wordReal_of_unpack h, signedUnits_real]
  cases s <;> simp [abs_div]

/-- The finite words of value 0 are the two zeros. -/
theorem isZero_eq_false_iff {w : Word} (h : isFinite w = true) : isZero w = false ↔ wordReal w ≠ 0 := by
  obtain ⟨s, k, hu⟩ := (isFinite_iff w).1 h
  rw [isZero_of_units hu, decide_eq_false_iff_not, ← abs_ne_zero, abs_wordReal hu]
  exact not_congr (by simp)

/-- A finite word of at most the magnitude B. -/
def Bounded (w : Word) (B : ℝ) : Prop := isFinite w = true ∧ |wordReal w| ≤ B

theorem Bounded.mono {w : Word} {B C : ℝ} (h : Bounded w B) (hBC : B ≤ C) : Bounded w C := ⟨h.1, h.2.trans hBC⟩

theorem bounded_of_units {w : Word} {s : Bool} {k : ℕ} {B : ℝ} (h : unpack w = .fin s k) (hB : (k : ℝ) / 2 ^ 149 ≤ B) :
    Bounded w B :=
  ⟨(isFinite_iff w).2 ⟨s, k, h⟩, (abs_wordReal h).trans_le hB⟩

theorem bounded_pack_zero (s : Bool) {B : ℝ} (hB : 0 ≤ B) : Bounded (pack s 0) B :=
  bounded_of_units (unpack_zero s) (by simpa using hB)

/-- A value is rounded to no more than twice its magnitude, because 0 is a word too. -/
theorem RoundsTo.bounded {x B : ℝ} {w : Word} (h : RoundsTo x w) (hx : |x| ≤ B) (hB : B < overflowBound) :
    Bounded w (2 * B) := by
  have lt : |x| < overflowBound := hx.trans_lt hB
  have zero : wordReal (pack false 0) = 0 := by rw [wordReal_of_unpack (unpack_zero false), signedUnits_real]; simp
  have near := h.nearest lt (pack false 0) (by decide)
  rw [zero, zero_sub, abs_neg] at near
  have triangle := abs_add_le (wordReal w - x) x
  rw [sub_add_cancel] at triangle
  exact ⟨h.finite lt, by linarith⟩

theorem Bounded.mul {a b : Word} {A B : ℝ} (ha : Bounded a A) (hb : Bounded b B) (hAB : A * B < overflowBound) :
    Bounded (mul32 a b) (2 * (A * B)) := by
  have bound : |wordReal a * wordReal b| ≤ A * B := by
    rw [abs_mul]
    exact mul_le_mul ha.2 hb.2 (abs_nonneg _) ((abs_nonneg _).trans ha.2)
  have hAB0 : 0 ≤ A * B := (abs_nonneg _).trans bound
  have zero {w : Word} (h : isZero w = true) : Bounded w (2 * (A * B)) := by
    obtain ⟨s, rfl⟩ := (isZero_iff w).1 h
    exact bounded_pack_zero s (by linarith)
  cases ha0 : isZero a with
  | true => exact zero (mul32_comm a b ▸ mul32_zero hb.1 ha0)
  | false =>
    cases hb0 : isZero b with
    | true => exact zero (mul32_zero ha.1 hb0)
    | false => exact (mul32_rounds ha.1 hb.1 ha0 hb0).bounded bound hAB

theorem bounded_div32 {a b : Word} {C : ℝ} (ha : isFinite a = true) (hb : isFinite b = true) (hb0 : isZero b = false)
    (hC : |wordReal a| ≤ C * |wordReal b|) (hO : C < overflowBound) : Bounded (div32 a b) (2 * C) := by
  have hb' : 0 < |wordReal b| := abs_pos.2 ((isZero_eq_false_iff hb).1 hb0)
  have bound : |wordReal a / wordReal b| ≤ C := by
    rw [abs_div]
    exact (div_le_iff₀ hb').2 hC
  have hC0 : 0 ≤ C := (abs_nonneg _).trans bound
  cases ha0 : isZero a with
  | true =>
    obtain ⟨s, rfl⟩ := (isZero_iff a).1 ha0
    obtain ⟨t, l, hu⟩ := (isFinite_iff b).1 hb
    rw [div32_zero_left (unpack_zero s) hu (units_pos hu hb0).ne']
    exact bounded_pack_zero _ (by linarith)
  | false => exact (div32_rounds ha hb ha0 hb0).bounded bound hO

theorem Bounded.neg {w : Word} {B : ℝ} (h : Bounded w B) : Bounded (neg32 w) B := by
  obtain ⟨s, k, hu⟩ := (isFinite_iff w).1 h.1
  exact bounded_of_units (unpack_neg32 hu) (abs_wordReal hu ▸ h.2)

/-- A sine is no larger than its argument, and rounding at most doubles it. -/
theorem bounded_sin32 {p : Word} (hp : isFinite p = true) : Bounded (sin32 p) (2 * |wordReal p|) := by
  obtain ⟨s, k, hu⟩ := (isFinite_iff p).1 hp
  have angle : |wordReal p| = |angleReal k| := by
    rw [abs_wordReal hu, angleReal, abs_of_nonneg (by positivity)]
  unfold sin32
  rw [hu, angle]
  by_cases hk : k = 0
  · simp only [hk, if_true]
    exact bounded_pack_zero s (by positivity)
  · have small : |Real.sin (angleReal k)| < overflowBound :=
      ((Real.abs_sin_le_one _).trans one_le_two).trans_lt two_lt_overflow
    have sine : Bounded (sinUnits k) (2 * |angleReal k|) :=
      ((sinUnits_rounds hk).bounded le_rfl small).mono (by linarith [Real.abs_sin_le_abs (x := angleReal k)])
    simp only [hk, if_false]
    cases s
    · exact sine
    · exact sine.neg

/-- Integers up to 2^24 are converted exactly. -/
theorem unpack_toF32_int {i : ℤ} (h : i.natAbs ≤ 2 ^ 24) : unpack (toF32 i) = .fin (decide (i < 0)) (i.natAbs * 2 ^ 149) := by
  obtain ⟨n, rfl | rfl⟩ := Int.eq_nat_or_neg i
  · rcases Nat.eq_zero_or_pos n with rfl | h0
    · decide
    · rw [unpack_toF32 n h0 (by omega), Int.natAbs_natCast, decide_eq_false (by omega)]
  · rcases Nat.eq_zero_or_pos n with rfl | h0
    · decide
    · have negative : toF32 (-n) = roundTo (!false) (n * 2 ^ 149) 1 := by
        rw [toF32, Int.natAbs_neg, Int.natAbs_natCast, decide_eq_true (by omega), Bool.not_false]
      have positive : toF32 n = roundTo false (n * 2 ^ 149) 1 := by
        rw [toF32, Int.natAbs_natCast, decide_eq_false (by omega)]
      rw [negative, unpack_roundTo_not, ← positive, unpack_toF32 n h0 (by omega), Int.natAbs_neg, Int.natAbs_natCast,
        decide_eq_true (by omega)]
      rfl

theorem bounded_toF32 {i : ℤ} {n : ℕ} (hi : i.natAbs ≤ n) (h : n ≤ 2 ^ 24) : Bounded (toF32 i) n := by
  refine bounded_of_units (unpack_toF32_int (hi.trans h)) ?_
  rw [Nat.cast_mul, Nat.cast_pow, Nat.cast_ofNat, mul_div_cancel_right₀ _ (by positivity)]
  exact_mod_cast hi

end Sys2Proof.Machine
end

section
/-! The ideal responses of the four families (41_designer.md rules R138 to R144), and the taps of a rectangular lowpass
(rule R153). -/

namespace Sys2Proof.Machine

/-! ### The responses at the centre and beside it -/

/-- The distance from the centre is 0 at the centre alone (rule R139). -/
theorem tapDistance_eq_zero_iff (n x : ℕ) : tapDistance n x = 0 ↔ x = n / 2 := by
  unfold tapDistance
  omega

section
variable {f : FilterSpec} {x : ℕ}

theorem idealAt_lowpass (h : f.family = .lowpass) : idealAt f x = lowpassAt f x := by rw [idealAt, h]

theorem idealAt_highpass (h : f.family = .highpass) :
    idealAt f x = if x = f.order / 2 then sub32 one32 (mul32 two32 f.ft1)
      else mul32 (neg32 (mul32 two32 f.ft1)) (sinc32 (f.sincArg x)) := by
  rw [idealAt, h]
  rfl

theorem idealAt_bandpass (h : f.family = .bandpass) :
    idealAt f x = if x = f.order / 2 then mul32 two32 (sub32 f.ft2 f.ft1)
      else sub32 (bandTerm f.ft2 (tapDistance f.order x)) (bandTerm f.ft1 (tapDistance f.order x)) := by
  rw [idealAt, h]
  simp only [bandpassAt, tapDistance_eq_zero_iff]

theorem idealAt_bandstop (h : f.family = .bandstop) :
    idealAt f x = if x = f.order / 2 then sub32 one32 (mul32 two32 (sub32 f.ft2 f.ft1))
      else sub32 (bandTerm f.ft1 (tapDistance f.order x)) (bandTerm f.ft2 (tapDistance f.order x)) := by
  rw [idealAt, h]
  simp only [bandstopAt, tapDistance_eq_zero_iff]

end

/-! ### The real reading -/

theorem realIdeal_centre (f : Family) (n : ℕ) (ft1 ft2 : ℝ) : realIdeal f n ft1 ft2 (n / 2) = realCentre f ft1 ft2 :=
  if_pos rfl

theorem realIdeal_beside (f : Family) {n : ℕ} {x : ℝ} (ft1 ft2 : ℝ) (h : x ≠ n / 2) :
    realIdeal f n ft1 ft2 x = realClosedForm f n ft1 ft2 x := if_neg h

/-- The lowpass needs no case for the centre, where sinc(0) = 1 (rule R144). -/
theorem realIdeal_lowpass (n : ℕ) (ft1 ft2 x : ℝ) :
    realIdeal .lowpass n ft1 ft2 x = 2 * ft1 * realSinc ((2 * x - n) * ft1) := by
  by_cases h : x = n / 2
  · have argument : (2 * x - n) * ft1 = 0 := by rw [h]; ring
    have centre : realSinc 0 = 1 := if_pos rfl
    rw [argument, centre, mul_one, h]
    exact realIdeal_centre .lowpass n ft1 ft2
  · exact realIdeal_beside .lowpass ft1 ft2 h

/-! ### The lowpass of a valid FilterSpec is finite -/

/-- What an FS in range and a cutoff in (0, FS/2) are, as real values (rule R131). -/
theorem cutoff_reals {c fs : Word} (hfs : isFinite fs = true) (h : cutoffBad c fs = false) :
    isFinite c = true ∧ 0 < wordReal c ∧ 2 * wordReal c < wordReal fs := by
  obtain ⟨t, l, hu⟩ := (isFinite_iff fs).1 hfs
  unfold cutoffBad at h
  rw [Bool.not_eq_false', Bool.and_eq_true, hu] at h
  obtain ⟨hpos, hlt⟩ := h
  cases hc : unpack c with
  | nan => simp [hc, Num.twice, Num.lt] at hlt
  | inf s => cases s <;> simp [hc, Num.zero, Num.twice, Num.lt] at hpos hlt
  | fin s k =>
    have pos : 0 < signedUnits s k := by simpa [hc, Num.zero, Num.lt, signedUnits] using hpos
    have double : signedUnits s (2 * k) = 2 * signedUnits s k := by cases s <;> simp [signedUnits]
    have lt : 2 * signedUnits s k < signedUnits t l := by simpa [hc, Num.twice, Num.lt, double] using hlt
    have pos' : (0 : ℝ) < signedUnits s k := by exact_mod_cast pos
    have lt' : (2 : ℝ) * signedUnits s k < signedUnits t l := by exact_mod_cast lt
    refine ⟨(isFinite_iff c).2 ⟨s, k, hc⟩, ?_, ?_⟩
    · rw [wordReal_of_unpack hc]
      positivity
    · rw [wordReal_of_unpack hc, wordReal_of_unpack hu, ← mul_div_assoc]
      exact div_lt_div_of_pos_right lt' (by positivity)

/-- A normalised cutoff is below 1/2, so its rounded quotient is at most 1 (rule R139). -/
theorem bounded_cutoff_ratio {c fs : Word} (hfs : isFinite fs = true) (h : cutoffBad c fs = false) :
    Bounded (div32 c fs) 1 := by
  obtain ⟨hc, hpos, hlt⟩ := cutoff_reals hfs h
  have hfs0 : 0 < wordReal fs := by linarith
  have ratio : |wordReal c| ≤ 1 / 2 * |wordReal fs| := by
    rw [abs_of_pos hpos, abs_of_pos hfs0]
    linarith
  have quotient := bounded_div32 hc hfs ((isZero_eq_false_iff hfs).2 hfs0.ne') ratio (by linarith [two_lt_overflow])
  exact quotient.mono (by norm_num)

theorem isFinite_fs_of_validate {f : FilterSpec} (h : f.validate = 0) : isFinite f.fs = true := by
  obtain ⟨-, -, -, hfs, -⟩ := (validate_zero_iff f).1 h
  unfold FilterSpec.fsBad at hfs
  rw [Bool.not_eq_false', Bool.and_eq_true] at hfs
  exact hfs.1

theorem bounded_ft1 {f : FilterSpec} (h : f.validate = 0) : Bounded f.ft1 1 := by
  obtain ⟨-, -, -, -, hf1, -⟩ := (validate_zero_iff f).1 h
  exact bounded_cutoff_ratio (isFinite_fs_of_validate h) hf1

/-- The magnitudes of the designer are far below the overflow bound. -/
theorem lt_overflow {x : ℝ} (h : x ≤ 2 ^ 64) : x < overflowBound := h.trans_lt (by unfold overflowBound; norm_num)

theorem bounded_one32 : Bounded one32 1 :=
  bounded_of_units (s := false) (k := 2 ^ 149) (by decide) (by norm_num)

theorem bounded_two32 : Bounded two32 2 :=
  bounded_of_units (s := false) (k := 2 ^ 150) (by decide) (by norm_num)

theorem bounded_pi32 : Bounded pi32 4 := bounded_of_units unpack_pi32 (by norm_num)

/-- The sinc of a moderate argument: |sin p| ≤ |p|, and each of two roundings at most doubles. -/
theorem bounded_sinc32 {t : Word} {T : ℝ} (ht : Bounded t T) (hT : T ≤ 2 ^ 32) : Bounded (sinc32 t) 4 := by
  cases h0 : isZero t with
  | true => rw [sinc32_of_isZero h0]; exact bounded_one32.mono (by norm_num)
  | false =>
    have product := bounded_pi32.mul ht (lt_overflow (by norm_num; linarith))
    have sine := bounded_sin32 product.1
    rw [sinc32_of_not_isZero h0]
    exact (bounded_div32 sine.1 product.1 (isZero_mul32_pi32 h0) sine.2 two_lt_overflow).mono (by norm_num)

section
variable {f : FilterSpec} (h : f.validate = 0)
include h

theorem bounded_double_ft1 : Bounded (mul32 two32 f.ft1) 4 :=
  (bounded_two32.mul (bounded_ft1 h) (lt_overflow (by norm_num))).mono (by norm_num)

theorem isFinite_lowpassAt {x : ℕ} (hx : x ≤ f.order / 2) : isFinite (lowpassAt f x) = true := by
  obtain ⟨-, -, hN⟩ := order_of_validate h
  have index : Bounded (toF32 (2 * (x : ℤ) - f.order)) (1000 : ℕ) := bounded_toF32 (by omega) (by norm_num)
  have argument : Bounded (f.sincArg x) _ := index.mul (bounded_ft1 h) (lt_overflow (by norm_num))
  have sinc := bounded_sinc32 argument (by norm_num)
  exact ((bounded_double_ft1 h).mul sinc (lt_overflow (by norm_num))).1

/-- At the centre the argument of the sinc is a zero, so the lowpass is 2·ft1 exactly (rule R140). -/
theorem lowpassAt_centre : lowpassAt f (f.order / 2) = mul32 two32 f.ft1 := by
  obtain ⟨heven, -, -⟩ := order_of_validate h
  have index : isZero (toF32 (2 * ((f.order / 2 : ℕ) : ℤ) - f.order)) = true := by
    rw [show 2 * ((f.order / 2 : ℕ) : ℤ) - f.order = 0 by omega]
    decide
  have argument : isZero (f.sincArg (f.order / 2)) = true := by
    rw [FilterSpec.sincArg, mul32_comm]
    exact mul32_zero (bounded_ft1 h).1 index
  rw [lowpassAt, sinc32_of_isZero argument]
  exact mul32_one (bounded_double_ft1 h).1

end

/-- With the Rectangular window a tap is the lowpass response itself: mul32(ONE, v) = v (rule R153). -/
theorem designTap_rectangular_lowpass {f : FilterSpec} (h : f.validate = 0) (hfam : f.family = .lowpass) {x : ℕ}
    (hx : x ≤ f.order / 2) : designTap f .rectangular x = lowpassAt f x := by
  rw [designTap, idealAt_lowpass hfam, mul32_comm]
  exact mul32_one (isFinite_lowpassAt h hx)

theorem exec_design_rectangular_lowpass {s : State} (hp : s.phase ≠ .stream) (hv : s.filterSpec.validate = 0)
    (hfam : s.family = 0) (hwin : s.window = 4) :
    ∃ t, exec .design s = .next t ∧ ∀ x ≤ s.order.toNat / 2, t.tapWord x = lowpassAt s.filterSpec x := by
  have window : s.filterSpec.window = some .rectangular := by rw [State.filterSpec, hwin]; rfl
  have family : s.filterSpec.family = .lowpass := by rw [State.filterSpec, hfam]; rfl
  refine ⟨_, exec_design_pass hp hv window, fun x hx => ?_⟩
  rw [designPass_tapWord _ hv (by omega), Nat.min_eq_left (by omega)]
  exact designTap_rectangular_lowpass hv family hx

/-- Settles O22: each family's response by its branch, the lowpass centre, the real responses, and the rectangular lowpass. -/
theorem idealResponseRules : Obligations.IdealResponseRules := by
  refine ⟨fun f x => ?_, fun f hv hfam => (idealAt_lowpass hfam).trans (lowpassAt_centre hv), fun n ft1 ft2 x => ?_,
    fun s => exec_design_rectangular_lowpass⟩
  · exact ⟨idealAt_lowpass, fun hfam hx => (idealAt_highpass hfam).trans (if_neg hx),
      fun hfam hx => (idealAt_highpass hfam).trans (if_pos hx),
      fun hfam hx => (idealAt_bandpass hfam).trans (if_neg hx),
      fun hfam hx => (idealAt_bandpass hfam).trans (if_pos hx),
      fun hfam hx => (idealAt_bandstop hfam).trans (if_neg hx),
      fun hfam hx => (idealAt_bandstop hfam).trans (if_pos hx)⟩
  · exact ⟨realIdeal_lowpass n ft1 ft2 x, realIdeal_centre .highpass n ft1 ft2, realIdeal_centre .bandpass n ft1 ft2,
      realIdeal_centre .bandstop n ft1 ft2, fun hx => ⟨realIdeal_beside .highpass ft1 ft2 hx,
        realIdeal_beside .bandpass ft1 ft2 hx, realIdeal_beside .bandstop ft1 ft2 hx⟩⟩

end Sys2Proof.Machine
end

section
/-! START, PROCESS and FLUSH as commands: their outcome in and outside their phases, the samples they take one by one, and
what they leave alone (42_convolver.md rules R170, R180 to R184). -/

namespace Sys2Proof.Machine

theorem exec_start {s : State} (hp : s.phase = .ready ∨ s.phase = .done ∨ s.phase = .halted) :
    exec .start s = .next (startEffect s) := by
  rw [exec_eq, if_pos ((permitted_iff .start s.phase).2 hp)]

theorem exec_process (n : Nat) {s : State} (hp : s.phase = .stream) :
    exec (.process n) s = .next (processEffect n s) := by
  rw [exec_eq, if_pos ((permitted_iff (.process n) s.phase).2 hp)]

theorem exec_flush {s : State} (hp : s.phase = .stream) : exec .flush s = .next (flushEffect s) := by
  rw [exec_eq, if_pos ((permitted_iff .flush s.phase).2 hp)]

/-- START leaves +0 in every slot in use (rule R170). -/
theorem startEffect_ringWord (s : State) {i : Nat} (hi : i < s.len) : (startEffect s).ringWord i = 0x00000000 :=
  (readWord_clearRing s.len s.ring _ i).trans (if_pos hi)

/-- Clearing L slots writes no ring byte from slot L on. -/
theorem readByte_clearRing (len : Nat) (r : Memory) {a : Nat} (ha : 4 * len ≤ a) :
    (clearRing len r).readByte a = r.readByte a :=
  loopUp_induction (P := fun _ (m : Memory) => m.readByte a = r.readByte a) rfl fun i hi m hm =>
    (readByte_writeWord_other m zero32 (by omega)).trans hm

theorem startEffect_ringByte (s : State) {a : Nat} (ha : 4 * s.len ≤ a) :
    (startEffect s).ringByte a = s.ringByte a :=
  congrArg (·.getD (Config.powerOnRingByte s.powerOns a)) (readByte_clearRing s.len s.ring ha)

/-- A factor that is a NaN or an infinity makes the product one. -/
theorem isFinite_mul32_right {a b : Word} (hb : isFinite b = false) : isFinite (mul32 a b) = false := by
  have nan : isFinite canonicalNaN = false := by decide
  have inf (neg : Bool) : isFinite (infWord neg) = false := by cases neg <;> decide
  cases hu : unpack b with
  | nan => cases ha : unpack a <;> simpa [mul32, ha, hu] using nan
  | inf t =>
    cases ha : unpack a with
    | nan => simpa [mul32, ha, hu] using nan
    | inf s => simpa [mul32, ha, hu] using inf _
    | fin s k =>
      by_cases hk : k = 0
      · simpa [mul32, ha, hu, hk] using nan
      · simpa [mul32, ha, hu, hk] using inf _
  | fin t l => rw [(isFinite_iff b).2 ⟨t, l, hu⟩] at hb; cases hb

/-- Settles O24: the output ends in a product by the gain; the rest is `startEffect` in the phases that permit it. -/
theorem startRule : Obligations.StartRule := by
  refine ⟨fun s x hg => isFinite_mul32_right hg, fun s => ⟨fun hp => ?_, fun hp => ?_⟩⟩
  · exact ⟨_, exec_start hp, startEffect_eq s, fun i hi => startEffect_ringWord s hi, fun a ha => startEffect_ringByte s ha⟩
  · exact exec_of_not_permitted (by rcases hp with hp | hp <;> simp [hp, permitted])

/-- A 32-bit counter grows modulo 2^32 (rule R31). -/
theorem counter_toNat (c : Word) (n : Nat) : (c + BitVec.ofNat 32 n).toNat = (c.toNat + n) % 2 ^ 32 := by
  rw [BitVec.toNat_add, BitVec.toNat_ofNat, Nat.add_mod_mod]

/-- OUT_COUNT is wide enough for a full block. -/
theorem outCount_toNat {n : Nat} (hn : n ≤ 1024) : (BitVec.ofNat 11 n).toNat = n :=
  Nat.mod_eq_of_lt (by omega)

/-- PROCESS 0 takes no sample (rule R182). -/
theorem processEffect_zero (s : State) : processEffect 0 s = { s with outCount := 0, result := .ok } := by
  have samples : processSamples 0 s = s := rfl
  rw [processEffect_eq (Nat.zero_le _), samples, BitVec.add_zero, BitVec.add_zero]
  rfl

/-- Settles O26: the states between the samples are those of `processSamples`. -/
theorem processRule : Obligations.ProcessRule := by
  refine fun s n => ⟨fun hp => exec_of_not_permitted fun h => hp ((permitted_iff _ _).1 h), fun hp hn => ?_,
    fun hp hn => ?_, fun hp hn => ?_⟩
  · rw [exec_process n hp, processEffect_over hn]
  · rw [exec_process n hp, hn, processEffect_zero]
  · refine ⟨fun i => processSamples i s, _, exec_process n hp, rfl, fun i _ => rfl, ?_, ?_, ?_, ?_,
      fun a ha => processEffect_ramByte hn s a ha⟩
    · rw [processEffect_eq hn]
    · rw [processEffect_eq hn, outCount_toNat hn]
    · rw [processEffect_eq hn, counter_toNat]
    · rw [processEffect_eq hn, counter_toNat]

/-- FLUSH takes L zero samples: the states between them are those of `flushSamples` (rules R183, R184). -/
theorem flush_in_stream {s : State} (hp : s.phase = .stream) :
    ∃ (u : ℕ → State) (t : State), exec .flush s = .next t ∧ u 0 = s ∧
      (∀ i < s.len, u (i + 1) = (sampleState (u i) 0x00000000).setOut i (sampleOut (u i) 0x00000000)) ∧
      t = { s with
              mem := (u s.len).mem, ring := (u s.len).ring, cur := (u s.len).cur, outCount := t.outCount,
              samplesOut := t.samplesOut, phase := .done, result := .ok } ∧
      t.outCount.toNat = s.len ∧
      t.samplesOut.toNat = (s.samplesOut.toNat + s.len) % 2 ^ 32 ∧
      ∀ a, (a < 0x2000 ∨ 0x2000 + 4 * s.len ≤ a) → t.ramByte a = s.ramByte a := by
  refine ⟨fun i => flushSamples i s, _, exec_flush hp, rfl, fun i _ => rfl, ?_, ?_, ?_,
    fun a ha => flushEffect_ramByte s a ha⟩
  · rw [flushEffect_eq]
  · rw [flushEffect_eq]
    exact Nat.mod_eq_of_lt s.tapCount.isLt
  · rw [flushEffect_eq, counter_toNat]

end Sys2Proof.Machine
end

section
/-! A run from START: what holds once m samples of its input stream have been taken, how a block and the flush go on from
there, and the closed form of the whole output stream (42_convolver.md rules R171, R185 to R187). -/

namespace Sys2Proof.Machine

/-- The k-th newest of the first m samples of x; +0 where fewer than k have come (rule R171). -/
def recentSample (x : Nat → Word) (m k : Nat) : Word := if k ≤ m then x (m - k) else zero32

/-- State t is in the run that START began in s, the first m samples of x taken. -/
structure RunAt (s : State) (x : Nat → Word) (m : Nat) (t : State) : Prop where
  phase : t.phase = .stream
  len : t.len = s.len
  gain : t.gain = s.volume
  taps : ∀ k, t.tapWord k = s.tapWord k
  cur_lt : t.cur < s.len
  ring : ∀ k, 1 ≤ k → k ≤ s.len → t.ringWord ((t.cur + s.len - k) % s.len) = recentSample x m k
  samplesIn : t.samplesIn = BitVec.ofNat 32 m
  samplesOut : t.samplesOut = BitVec.ofNat 32 m

/-- Outputs m to m + n − 1 of the run that START begins in s, in the closed form (rule R185). -/
def runOutputs (s : State) (x : Nat → Word) (m n : Nat) : List Word :=
  (List.range n).map fun i => closedOut s.len s.tapWord s.volume x (m + i)

theorem runOutputs_append (s : State) (x : Nat → Word) (m n n' : Nat) :
    runOutputs s x m n ++ runOutputs s x (m + n) n' = runOutputs s x m (n + n') := by
  simp only [runOutputs, List.range_add, List.map_append, List.map_map, Function.comp_def, Nat.add_assoc]

/-- In the phases that permit START there is a tap (rule R38, item 1). -/
theorem State.Inv.len_pos_of_startable {s : State} (h : s.Inv) (hp : s.phase = .ready ∨ s.phase = .done ∨ s.phase = .halted) :
    0 < s.len := h.len_pos (by rcases hp with hp | hp | hp <;> simp [hp])

/-- START begins a run with no sample taken: the ring holds +0 in every slot in use (rule R170). -/
theorem runAt_startEffect {s : State} (hL : 0 < s.len) (x : Nat → Word) : RunAt s x 0 (startEffect s) where
  phase := rfl
  len := rfl
  gain := rfl
  taps _ := rfl
  cur_lt := hL
  ring k hk _ := (startEffect_ringWord s (Nat.mod_lt _ hL)).trans (if_neg (by omega)).symm
  samplesIn := rfl
  samplesOut := rfl

section
variable {n : Nat} (hn : n ≤ 1024)
include hn

theorem processSamples_powerOns (t : State) : (processSamples n t).powerOns = t.powerOns := by
  rw [processSamples_eq hn, blockState_powerOns]

theorem processEffect_tapWord (t : State) (k : Nat) : (processEffect n t).tapWord k = t.tapWord k := by
  rw [← blockState_tapWord t.inWord hn t k, ← processSamples_eq hn, processEffect_eq hn]
  simp only [State.tapWord, State.ramWord, processSamples_powerOns hn]

theorem processEffect_ringWord (t : State) (i : Nat) :
    (processEffect n t).ringWord i = (blockState t.inWord n t).ringWord i := by
  rw [← processSamples_eq hn, processEffect_eq hn]
  simp only [State.ringWord, processSamples_powerOns hn]

theorem processEffect_cur {t : State} (hc : t.cur < t.len) : (processEffect n t).cur = (t.cur + n) % t.len := by
  rw [processEffect_eq hn, processSamples_eq hn, blockState_cur t.inWord n hc]

end

section
variable {s t : State} {x : Nat → Word} {m : Nat} (h : RunAt s x m t)
include h

/-- Output i of a block that goes on with the stream is output m + i of the run. -/
theorem RunAt.blockOut {b : Nat → Word} {i : Nat} (hb : ∀ j ≤ i, b j = x (m + j)) :
    t.blockOut b i = closedOut s.len s.tapWord s.volume x (m + i) := by
  unfold State.blockOut closedOut closedAcc
  rw [h.len, h.gain]
  congr 1
  refine loopUp_congr _ fun k hk acc => ?_
  rw [h.taps k]
  congr 2
  unfold State.history
  split
  case isTrue hki => rw [hb _ (Nat.sub_le i k), if_pos (by omega), Nat.add_sub_assoc hki]
  case isFalse hki =>
    have before : t.cur + i + s.len - k = t.cur + s.len - (k - i) := by omega
    rw [h.len, before, h.ring (k - i) (by omega) (by omega), recentSample]
    exact if_congr (by omega) (by congr 1; omega) rfl

/-- The host's loading of IN_BUF is no part of the run. -/
theorem RunAt.load {b : List Word} (hb : b.length ≤ 1024) : RunAt s x m (loadInputFrom 0 b t) := by
  have taps (k : Nat) := loadInputFrom_tapWord 0 b t (by omega) k
  obtain ⟨mem, hmem⟩ := loadInputFrom_frame 0 b t
  rw [hmem] at taps ⊢
  exact { h with taps := fun k => (taps k).trans (h.taps k) }

section
variable {n : Nat} (hn : n ≤ 1024) (hx : ∀ i < n, t.inWord i = x (m + i))
include hn hx

/-- After a block the ring holds the most recent samples of the stream with the block (rule R171). -/
theorem RunAt.ring_process {k : Nat} (h1 : 1 ≤ k) (hk : k ≤ s.len) :
    (processEffect n t).ringWord (((processEffect n t).cur + s.len - k) % s.len) = recentSample x (m + n) k := by
  have hcur : t.cur < t.len := h.len ▸ h.cur_lt
  have slot : ((t.cur + n) % s.len + s.len - k) % s.len = (t.cur + n + s.len - k) % s.len := by
    rw [Nat.add_sub_assoc hk, Nat.mod_add_mod, ← Nat.add_sub_assoc hk]
  have block := blockState_ring t.inWord n hcur k h1 (h.len ▸ hk)
  rw [h.len] at block
  rw [processEffect_cur hn hcur, processEffect_ringWord hn, h.len, slot, block]
  unfold recentSample
  split
  case isTrue hkn => rw [hx _ (by omega), if_pos (by omega), Nat.add_sub_assoc hkn]
  case isFalse hkn =>
    have before : t.cur + n + s.len - k = t.cur + s.len - (k - n) := by omega
    rw [before, h.ring (k - n) (by omega) (by omega), recentSample]
    exact if_congr (by omega) (by congr 1; omega) rfl

/-- PROCESS n takes n more samples of the stream. -/
theorem RunAt.process : RunAt s x (m + n) (processEffect n t) where
  phase := by rw [processEffect_eq hn]; exact h.phase
  len := by rw [processEffect_eq hn]; exact h.len
  gain := by rw [processEffect_eq hn]; exact h.gain
  taps k := (processEffect_tapWord hn t k).trans (h.taps k)
  cur_lt := by
    rw [processEffect_cur hn (h.len ▸ h.cur_lt), h.len]
    exact Nat.mod_lt _ (Nat.zero_lt_of_lt h.cur_lt)
  ring k h1 hk := h.ring_process hn hx h1 hk
  samplesIn := by rw [processEffect_eq hn, h.samplesIn, BitVec.ofNat_add]
  samplesOut := by rw [processEffect_eq hn, h.samplesOut, BitVec.ofNat_add]

theorem RunAt.process_outputs : (processEffect n t).outputs = runOutputs s x m n := by
  have count : (processEffect n t).outCount.toNat = n := by rw [processEffect_eq hn, outCount_toNat hn]
  refine outputs_eq _ n count _ fun i hi => ?_
  rw [processEffect_outWord hn (h.len ▸ h.cur_lt) i hi]
  exact h.blockOut fun j hj => hx j (by omega)

end

/-- A block that the host loads and processes: m + |b| samples taken, and |b| outputs of the closed form read back. -/
theorem RunAt.block {b : List Word} (hb : b.length ≤ 1024) (hx : ∀ i < b.length, sampleAt b i = x (m + i)) :
    ∃ u, exec (.process b.length) (loadInputFrom 0 b t) = .next u ∧ RunAt s x (m + b.length) u ∧
      u.outputs = runOutputs s x m b.length := by
  have loaded : RunAt s x m (loadInputFrom 0 b t) := h.load hb
  have inputs : ∀ i < b.length, (loadInputFrom 0 b t).inWord i = x (m + i) := fun i hi => by
    rw [loadInputFrom_inWord, if_pos (by omega)]
    exact hx i hi
  exact ⟨_, exec_process _ loaded.phase, loaded.process hb inputs, loaded.process_outputs hb inputs⟩

/-- FLUSH, where the stream goes on with zeros, emits the last L outputs of the run (rules R183, R185). -/
theorem RunAt.flush_outputs (hL : s.len ≤ 1024) (hx : ∀ i < s.len, x (m + i) = zero32) :
    (flushEffect t).outputs = runOutputs s x m s.len := by
  have count : (flushEffect t).outCount.toNat = s.len := by
    rw [flushEffect_eq, h.len]
    exact outCount_toNat hL
  refine outputs_eq _ s.len count _ fun i hi => ?_
  rw [flushEffect_outWord (h.len ▸ hL) (h.len ▸ h.cur_lt) i (h.len ▸ hi)]
  exact h.blockOut fun j hj => (hx j (by omega)).symm

end

/-- Blocks that go on with the stream, one after another. -/
theorem RunAt.blocks {s : State} {x : Nat → Word} {blocks : List (List Word)} (hb : ∀ b ∈ blocks, b.length ≤ 1024) :
    ∀ {m : Nat} {t : State}, RunAt s x m t → (∀ i < blocks.flatten.length, sampleAt blocks.flatten i = x (m + i)) →
      ∃ u, feedBlocks blocks t = some (u, runOutputs s x m blocks.flatten.length) ∧
        RunAt s x (m + blocks.flatten.length) u := by
  induction blocks with
  | nil => exact fun {m t} h _ => ⟨t, rfl, h⟩
  | cons b rest ih =>
    intro m t h hx
    rw [List.flatten_cons, List.length_append] at hx ⊢
    have head : ∀ i < b.length, sampleAt b i = x (m + i) := fun i hi => by
      rw [← hx i (by omega), sampleAt_append_left _ _ hi]
    have tail : ∀ i < rest.flatten.length, sampleAt rest.flatten i = x (m + b.length + i) := fun i hi => by
      rw [Nat.add_assoc, ← hx (b.length + i) (by omega), sampleAt_append_right _ _ (Nat.le_add_right _ _),
        Nat.add_sub_cancel_left]
    obtain ⟨u, hexec, hu, houts⟩ := h.block (hb b List.mem_cons_self) head
    obtain ⟨v, hfeed, hv⟩ := ih (fun c hc => hb c (List.mem_cons_of_mem b hc)) hu tail
    refine ⟨v, ?_, Nat.add_assoc m _ _ ▸ hv⟩
    rw [feedBlocks, hexec, ← runOutputs_append]
    dsimp only
    rw [hfeed, houts, Option.map_some]

theorem sampleAt_of_length_le {xs : List Word} {j : Nat} (h : xs.length ≤ j) : sampleAt xs j = zero32 :=
  List.getD_eq_default _ _ h

section
variable {s : State} {blocks : List (List Word)} (hinv : s.Inv) (hp : s.phase = .ready ∨ s.phase = .done ∨ s.phase = .halted)
  (hb : ∀ b ∈ blocks, b.length ≤ 1024)
include hinv hp hb

/-- START and the blocks of a run. -/
theorem feedBlocks_after_start :
    ∃ u, feedBlocks blocks (startEffect s) = some (u, runOutputs s (sampleAt blocks.flatten) 0 blocks.flatten.length) ∧
      RunAt s (sampleAt blocks.flatten) blocks.flatten.length u := by
  have hL : 0 < s.len := hinv.len_pos_of_startable hp
  have start := runAt_startEffect hL (sampleAt blocks.flatten)
  simpa using start.blocks hb fun i _ => by rw [Nat.zero_add]

/-- The output stream of a run is the closed form of its inputs followed by zeros, and its last state is the flushed one. -/
theorem runStream_eq :
    ∃ u, RunAt s (sampleAt blocks.flatten) blocks.flatten.length u ∧
      runStream blocks s =
        some (flushEffect u, runOutputs s (sampleAt blocks.flatten) 0 (blocks.flatten.length + s.len)) := by
  obtain ⟨u, hfeed, hu⟩ := feedBlocks_after_start hinv hp hb
  have hL : s.len ≤ 1001 := legalLen_le hinv.len_legal
  have flush := hu.flush_outputs (by omega) fun i _ => sampleAt_of_length_le (Nat.le_add_right _ _)
  refine ⟨u, hu, ?_⟩
  have outs := runOutputs_append s (sampleAt blocks.flatten) 0 blocks.flatten.length s.len
  rw [Nat.zero_add] at outs
  simp only [runStream, exec_start hp, hfeed, exec_flush hu.phase, flush, outs]

end

theorem length_runOutputs (s : State) (x : Nat → Word) (m n : Nat) : (runOutputs s x m n).length = n := by
  rw [runOutputs, List.length_map, List.length_range]

/-- Output j of a run. -/
theorem runOutputs_getElem? (s : State) (x : Nat → Word) {n j : Nat} (hj : j < n) :
    (runOutputs s x 0 n)[j]? = some (closedOut s.len s.tapWord s.volume x j) := by
  rw [runOutputs, List.getElem?_map, List.getElem?_range hj, Option.map_some, Nat.zero_add]

/-- Settles O29: the ring clause of `RunAt` after the blocks. -/
theorem ringHoldsHistory : Obligations.RingHoldsHistory := by
  intro s blocks hinv hp hb
  obtain ⟨u, hfeed, hu⟩ := feedBlocks_after_start hinv hp hb
  exact ⟨_, u, _, exec_start hp, hfeed, hu.len, hu.ring⟩

/-- Settles O30: `runStream_eq`, output by output. -/
theorem runClosedForm : Obligations.RunClosedForm := by
  intro s blocks hinv hp hb
  obtain ⟨u, -, hrun⟩ := runStream_eq hinv hp hb
  exact ⟨_, _, hrun, length_runOutputs _ _ _ _, fun j hj => runOutputs_getElem? s _ hj⟩

/-- Settles O31: the closed form mentions the concatenation of the blocks alone. -/
theorem chunkingInvariance : Obligations.ChunkingInvariance := by
  intro s blocks blocks' hinv hp hb hb' heq
  obtain ⟨u, -, hrun⟩ := runStream_eq hinv hp hb
  obtain ⟨u', -, hrun'⟩ := runStream_eq hinv hp hb'
  exact ⟨_, _, _, hrun, heq ▸ hrun'⟩

/-- Settles O32: FLUSH adds L outputs to the counts that `RunAt` gives. -/
theorem outputLength : Obligations.OutputLength := by
  intro s blocks hinv hp hb
  obtain ⟨u, hu, hrun⟩ := runStream_eq hinv hp hb
  have length := length_runOutputs s (sampleAt blocks.flatten) 0 (blocks.flatten.length + s.len)
  have samplesIn : (flushEffect u).samplesIn.toNat = blocks.flatten.length % 2 ^ 32 := by
    rw [flushEffect_eq, hu.samplesIn, BitVec.toNat_ofNat]
  have samplesOut : (flushEffect u).samplesOut.toNat = (blocks.flatten.length + s.len) % 2 ^ 32 := by
    rw [flushEffect_eq, hu.samplesOut, hu.len, counter_toNat, BitVec.toNat_ofNat, Nat.mod_add_mod]
  refine ⟨_, _, hrun, by rw [flushEffect_eq], length, samplesIn, by rw [samplesOut, length], ?_, fun hwrap => ?_⟩
  · rw [samplesOut, samplesIn, Nat.mod_add_mod]
  · rw [samplesOut, samplesIn, Nat.mod_eq_of_lt hwrap, Nat.mod_eq_of_lt (Nat.lt_of_le_of_lt (Nat.le_add_right _ _) hwrap)]

end Sys2Proof.Machine
end

section
/-! Zeros and the impulse: a sum of zero products is +0, a sum with one other product is that product, and what the
post-gain makes of them (42_convolver.md rules R188, R189). -/

namespace Sys2Proof.Machine

/-- The words of the two zeros. -/
theorem isZero_of_eq {w : Word} (h : w = 0x00000000 ∨ w = 0x80000000) : isZero w = true := by
  rcases h with rfl | rfl <;> decide

/-- A sum of zero products stays +0, whatever the signs of the zeros. -/
theorem sum_of_zero_terms (n : Nat) {p : Nat → Word} (hp : ∀ k < n, isZero (p k) = true) :
    loopUp n (fun k acc => add32 acc (p k)) zero32 = zero32 :=
  loopUp_induction (P := fun _ acc => acc = zero32) rfl fun k hk acc hacc => by
    rw [hacc]
    exact add32_zero_right (by decide) (hp k hk) (.inr rfl)

/-- A word added to +0: −0 becomes +0. -/
def addedToZero (w : Word) : Word := if w = 0x80000000 then 0x00000000 else w

theorem addedToZero_keeps {w z : Word} (hw : isFinite w = true) (hz : isZero z = true) :
    add32 (addedToZero w) z = addedToZero w := by
  unfold addedToZero
  split
  case isTrue => exact add32_zero_right (by decide) hz (.inr rfl)
  case isFalse hneg =>
    refine add32_zero_right hw hz ?_
    cases h0 : isZero w with
    | false => exact .inl rfl
    | true =>
      obtain ⟨neg, rfl⟩ := (isZero_iff w).1 h0
      cases neg with
      | false => exact .inr rfl
      | true => exact absurd rfl hneg

/-- A sum whose products are zeros but for product j is product j added to +0. -/
theorem sum_of_one_term {n j : Nat} {p : Nat → Word} (hj : j < n) (hfin : isFinite (p j) = true)
    (hp : ∀ k < n, k ≠ j → isZero (p k) = true) :
    loopUp n (fun k acc => add32 acc (p k)) zero32 = addedToZero (p j) := by
  have sum := loopUp_induction (P := fun i acc => acc = if i ≤ j then zero32 else addedToZero (p j)) (n := n)
    (body := fun k acc => add32 acc (p k)) (init := zero32) (if_pos (Nat.zero_le j)).symm fun k hk acc hacc => ?_
  · rw [sum, if_neg (by omega)]
  · rcases Nat.lt_trichotomy k j with hkj | rfl | hjk
    · rw [hacc, if_pos hkj.le, if_pos (by omega)]
      exact add32_zero_right (by decide) (hp k hk hkj.ne) (.inr rfl)
    · rw [hacc, if_pos le_rfl, if_neg (by omega)]
      exact add32_zero_left hfin
    · rw [hacc, if_neg (by omega), if_neg (by omega)]
      exact addedToZero_keeps hfin (hp k hk hjk.ne')

section
variable {len : Nat} {taps x : Nat → Word} {j : Nat} (htaps : ∀ k < len, isFinite (taps k) = true)
include htaps

/-- Where every sample a tap reaches is a zero, the sum is +0. -/
theorem closedAcc_zero (hx : ∀ k < len, k ≤ j → isZero (x (j - k)) = true) : closedAcc len taps x j = zero32 := by
  refine sum_of_zero_terms len fun k hk => mul32_zero (htaps k hk) ?_
  split
  case isTrue hkj => exact hx k hk hkj
  case isFalse => decide

/-- An impulse brings out one tap. -/
theorem closedAcc_impulse (h0 : x 0 = 0x3F800000) (hx : ∀ i, 1 ≤ i → isZero (x i) = true) (hj : j < len) :
    closedAcc len taps x j = addedToZero (taps j) := by
  have product : mul32 (taps j) (if j ≤ j then x (j - j) else zero32) = taps j := by
    rw [if_pos le_rfl, Nat.sub_self, h0, mul32_one (htaps j hj)]
  have sum := sum_of_one_term (p := fun k => mul32 (taps k) (if k ≤ j then x (j - k) else zero32)) hj
  rw [product] at sum
  refine sum (htaps j hj) fun k hk hne => mul32_zero (htaps k hk) ?_
  split
  case isTrue hkj => exact hx _ (by omega)
  case isFalse => decide

end

/-- A sum of +0 through the post-gain: the zero of the sign of a finite gain, and the canonical NaN for any other. -/
theorem postGain_zero (gain : Word) :
    postGain zero32 gain =
      if isFinite gain = true then (if signBit gain = true then 0x80000000 else 0x00000000) else 0x7FC00000 := by
  have scaled : mul32 zero32 outScale32 = zero32 := by decide
  have zero : unpack zero32 = .fin false 0 := by decide
  rw [postGain, scaled]
  cases hg : unpack gain with
  | nan => simp [mul32, zero, hg, isFinite, canonicalNaN]
  | inf t => simp [mul32, zero, hg, isFinite, canonicalNaN]
  | fin t l =>
    rw [if_pos ((isFinite_iff gain).2 ⟨t, l, hg⟩), signBit_of_unpack hg]
    simp only [mul32, zero, hg, Nat.zero_mul, roundTo_zero]
    cases t <;> decide

theorem isZero_postGain_zero {gain : Word} (hg : isFinite gain = true) : isZero (postGain zero32 gain) = true := by
  rw [postGain_zero, if_pos hg]
  split <;> decide

/-- Where every input of a run is a zero, so is every sample, those of the flush included. -/
theorem isZero_sampleAt {xs : List Word} (h : ∀ x ∈ xs, x = 0x00000000 ∨ x = 0x80000000) (i : Nat) :
    isZero (sampleAt xs i) = true := by
  rcases Nat.lt_or_ge i xs.length with hi | hi
  · rw [sampleAt, List.getD_eq_getElem _ _ hi]
    exact isZero_of_eq (h _ (List.getElem_mem hi))
  · rw [sampleAt_of_length_le hi]
    decide

/-- Settles O27: the samples are those of `flushSamples`; straight after START every sum of the closed form is +0. -/
theorem flushRule : Obligations.FlushRule := by
  refine ⟨fun s t hinv htaps hvol hp hstart hstream => ?_, fun s =>
    ⟨fun hp => exec_of_not_permitted fun h => hp ((permitted_iff _ _).1 h), flush_in_stream⟩⟩
  by_cases hperm : permitted .start s.phase = true
  case neg =>
    rw [exec_of_not_permitted hperm] at hstart
    cases hstart
    exact absurd hstream hp
  case pos =>
    have hphase := (permitted_iff .start s.phase).1 hperm
    have hL : 0 < s.len := hinv.len_pos_of_startable hphase
    have hL' : s.len ≤ 1001 := legalLen_le hinv.len_legal
    have start := runAt_startEffect hL fun _ => zero32
    rw [exec_start hphase] at hstart
    cases hstart
    refine ⟨_, exec_flush rfl, fun i hi => ?_⟩
    rw [flushEffect_outWord (s := startEffect s) (Nat.le_trans hL' (by decide)) hL i hi, start.blockOut fun _ _ => rfl, closedOut,
      closedAcc_zero htaps fun _ _ _ => by decide]
    exact isZero_postGain_zero hvol

/-- Settles O33: every sum of the run is +0 (`closedAcc_zero`), and `postGain_zero` says what the gain makes of it. -/
theorem zeroFixedPoint : Obligations.ZeroFixedPoint := by
  intro s blocks hinv htaps hp hb hx
  obtain ⟨u, -, hrun⟩ := runStream_eq hinv hp hb
  refine ⟨_, _, hrun, fun y hy => ?_⟩
  obtain ⟨j, -, rfl⟩ := List.mem_map.1 hy
  rw [closedOut, closedAcc_zero htaps fun k _ _ => isZero_sampleAt hx _]
  exact postGain_zero s.volume

/-- Settles O34: below L the impulse meets tap j (`closedAcc_impulse`), from L on no tap (`closedAcc_zero`). -/
theorem impulseResponse : Obligations.ImpulseResponse := by
  intro s blocks zeros hinv htaps hp hb himpulse hzeros
  obtain ⟨u, -, hrun⟩ := runStream_eq hinv hp hb
  have later : ∀ i, 1 ≤ i → isZero (sampleAt blocks.flatten i) = true := by
    rintro (_ | i) hi
    · omega
    · rw [himpulse]
      exact isZero_sampleAt hzeros i
  refine ⟨_, _, hrun, fun j hj => ?_, fun j y hj hy hvol => ?_⟩
  · rw [runOutputs_getElem? s _ (by omega), closedOut, closedAcc_impulse htaps (by rw [himpulse]; rfl) later hj]
    rfl
  · obtain ⟨hlen, -⟩ := List.getElem?_eq_some_iff.1 hy
    rw [length_runOutputs] at hlen
    rw [runOutputs_getElem? s _ hlen, Option.some_inj] at hy
    rw [← hy, closedOut, closedAcc_zero htaps fun k hk hkj => later _ (by omega)]
    exact isZero_postGain_zero hvol

end Sys2Proof.Machine
end

section
/-! The control commands NOP, ABORT and SRESET, each as its effect in the phases that permit it, and a command written to
CMD as its completion from the accepted state (43_control.md rules R200 to R202). -/

namespace Sys2Proof.Machine

/-! ### The three commands and their completion -/

theorem exec_nop (s : State) : exec .nop s = .next { s with result := .ok } := by
  rw [exec_eq, if_pos ((permitted_iff .nop s.phase).2 trivial)]
  rfl

theorem exec_abort {s : State} (hp : s.phase = .stream ∨ s.phase = .done) :
    exec .abort s = .next { s with phase := .halted, result := .ioError } := by
  rw [exec_eq, if_pos ((permitted_iff .abort s.phase).2 hp)]
  rfl

theorem exec_sreset (s : State) : exec .sreset s = .next (sresetEffect s) := by
  rw [exec_eq, if_pos ((permitted_iff .sreset s.phase).2 trivial)]

theorem dispatch_of_decode {w : Word} {i : Instr} (hw : decode w = .ok i) (s : State) : dispatch w s = exec i s := by
  unfold dispatch
  rw [hw]

/-- A command word written while BUSY = 0 completes as its command does from the accepted state (rules R106, R108, R109). -/
theorem complete_hostWrite_cmd {s t : State} {w : Word} {i : Instr} (h : s.pending = none) (hw : decode w = .ok i)
    (hi : exec i (s.accept w) = .next t) : complete w (s.hostWrite 0x020 w) = .next t.finish.dropInput := by
  rw [hostWrite_cmd h, complete, dispatch_of_decode hw, hi, mapNext_next]

/-- STATUS with BUSY = 0 and OVR = 0 is LAST_OP, RESULT and PHASE alone (10_state.md rule R27). -/
theorem statusWord_of_fields {s : State} {op : BitVec 8} {r : Result} {p : Phase} (h : s.pending = none)
    (hovr : s.ovr = false) (hop : s.lastOp = op) (hr : s.result = r) (hp : s.phase = p) :
    s.statusWord = BitVec.ofNat 32 (op.toNat * 2 ^ 16 + r.code.toNat * 2 ^ 8 + p.code.toNat * 2 ^ 4) := by
  rw [statusWord_eq, busy_none h, hovr, hop, hr, hp, Bool.toNat_false, Nat.zero_mul, Nat.add_zero]

/-! ### The obligations -/

/-- Settles O13: the effect is `sresetEffect`; in its IDLE no tap is readable, and a write while BUSY sets OVR alone. -/
theorem sresetRule : Obligations.SresetRule := by
  intro s
  have status : { sresetEffect s with pending := none }.statusWord = 0x00060000 :=
    statusWord_of_fields (op := 0x06) (r := .ok) (p := .idle) rfl rfl rfl rfl rfl
  exact ⟨_, exec_sreset s, sresetEffect_eq s, status, fun _ hi => hostRead_tap_idle rfl rfl hi,
    fun hbusy => hostWrite_dropped hbusy 0x020 0x00000006⟩

/-- Settles O11: completion gives back the `pending` that acceptance took, and the word's OP byte is LAST_OP. -/
theorem nopRule : Obligations.NopRule := by
  refine fun s => ⟨exec_nop s, fun h => ⟨_, complete_hostWrite_cmd h rfl (exec_nop _), ?_⟩⟩
  rw [State.dropInput, State.finish, ← h]
  rfl

/-- Settles O12: the run halts by `exec_abort`; HALTED permits START, whose effect clears the ring. -/
theorem abortRule : Obligations.AbortRule := by
  refine fun s => ⟨fun hp => ⟨exec_abort hp, ?_, fun h hovr => ?_⟩, fun hp => exec_of_not_permitted ?_⟩
  · exact ⟨_, exec_start (.inr (.inr rfl)), rfl, rfl, fun i hi => startEffect_ringWord _ hi⟩
  · exact ⟨_, complete_hostWrite_cmd h rfl (exec_abort hp),
      statusWord_of_fields (op := 0x05) (r := .ioError) (p := .halted) rfl hovr rfl rfl rfl⟩
  · rw [permitted_iff]
    rcases hp with hp | hp | hp <;> simp [hp]

end Sys2Proof.Machine
end

section
/-! The results of commands and the error flag OVR: what a command that ends with an error has changed, the codes that no
step reports, and what sets and clears OVR (60_exceptions.md rules R212 to R219). -/

namespace Sys2Proof.Machine

/-! ### How a command ends -/

/-- The state a command leaves that ends with an error of its own (rules R212, R214 to R216): RESULT alone has changed,
but for the registers that a failing FilterSpec invalidates. -/
def errorState (s : State) : Result → State
  | .configError => designFail s s.filterSpec.validate
  | r => s.raise r

/-- A command that ends neither with OK nor with IO_ERROR has no effect but its error's. -/
theorem exec_error {i : Instr} {s t : State} {r : Result} (h : exec i s = .next t) (hr : t.result = r) (hok : r ≠ .ok)
    (hio : r ≠ .ioError) : t = errorState s r := by
  subst hr
  by_cases hp : permitted i s.phase = true
  · rw [exec_eq, if_pos hp] at h
    cases h
    cases i with
    | nop => exact absurd rfl hok
    | design =>
      by_cases hv : s.filterSpec.validate = 0
      · exact absurd ((designEffect_result s).trans (if_pos hv)) hok
      · dsimp only
        rw [designEffect_fail hv]
        rfl
    | start => exact absurd rfl hok
    | process n =>
      by_cases hn : n ≤ 1024
      · exact absurd ((processEffect_result n s).trans (if_pos hn)) hok
      · dsimp only
        rw [processEffect_over (Nat.lt_of_not_le hn)]
        rfl
    | flush => exact absurd rfl hok
    | abort => exact absurd rfl hio
    | sreset => exact absurd rfl hok
  · rw [exec_of_not_permitted hp] at h
    cases h
    rfl

theorem dispatch_of_illegal {w : Word} (hw : illegalWord w) (s : State) :
    dispatch w s = .next { s with result := .cmdIllegal } := by
  obtain ⟨e, he⟩ := (decode_error_iff w).2 hw
  unfold dispatch
  rw [he]
  rfl

theorem dispatch_error {w : Word} {s t : State} {r : Result} (h : dispatch w s = .next t) (hr : t.result = r)
    (hok : r ≠ .ok) (hio : r ≠ .ioError) : t = errorState s r := by
  rcases dispatch_cases h with ⟨-, rfl⟩ | ⟨i, -, hi, -⟩
  · subst hr
    rfl
  · exact exec_error hi hr hok hio

/-- A word whose low half is 0x0003 is a PROCESS, whatever its COUNT (30_encoding.md rule R83). -/
theorem decode_process_word {w : Word} (hw : w.toNat % 2 ^ 16 = 0x0003) :
    decode w = .ok (.process (w.toNat / 2 ^ 16)) :=
  decode_of_fields (.process _) (by omega) (by simp only [Laws.Encoding.opcode]; omega) rfl

/-! ### RESULT in STATUS, and the code that is never produced -/

/-- STATUS shows the code of RESULT in bits [11:8] (10_state.md rule R27). -/
theorem statusWord_result (s : State) : s.statusWord.toNat / 2 ^ 8 % 2 ^ 4 = s.result.code.toNat := by
  rw [statusWord_toNat]
  have := s.ovr.toNat_le
  have := s.busy.toNat_le
  omega

theorem Result.code_eq_two_iff (r : Result) : r.code.toNat = 2 ↔ r = .allocError := by
  cases r <;> decide

theorem ownResult_ne_allocError (s : State) (i : Instr) : ownResult s i ≠ .allocError := by
  cases i with
  | design => simp only [ownResult]; split <;> simp
  | process n => simp only [ownResult]; split <;> simp
  | _ => simp [ownResult]

theorem exec_result_ne_allocError {i : Instr} {s t : State} (h : exec i s = .next t) : t.result ≠ .allocError := by
  by_cases hp : permitted i s.phase = true
  · obtain ⟨u, hu, hr⟩ := exec_result_of_permitted hp
    rw [hu] at h
    cases h
    exact hr ▸ ownResult_ne_allocError s i
  · rw [exec_of_not_permitted hp] at h
    cases h
    simp

theorem dispatch_result_ne_allocError {w : Word} {s t : State} (h : dispatch w s = .next t) :
    t.result ≠ .allocError := by
  rcases dispatch_cases h with ⟨-, rfl⟩ | ⟨i, -, hi, -⟩
  · simp
  · exact exec_result_ne_allocError hi

/-- A write of the host has no RESULT of its own, whatever it names and whether or not it is dropped. -/
theorem hostWrite_result (s : State) (a : Offset) (v : Word) : (s.hostWrite a v).result = s.result := by
  rcases hostWrite_cases s a v with ⟨-, he | he⟩ | ⟨-, ⟨i, -, he⟩ | ⟨fa, wi, o, f1, f2, fs, vo, p, l, he⟩⟩ <;> rw [he]
  rfl

theorem step_result_ne_allocError {s t : State} (hs : s.result ≠ .allocError) (h : step s = .next t) :
    t.result ≠ .allocError := by
  rcases step_cases h with ⟨a, rest, -, rfl⟩ | ⟨a, v, rest, -, rfl⟩ | ⟨rest, -, rfl⟩ | ⟨-, -, rfl⟩ |
    ⟨w, u, -, -, hd, rfl⟩
  · exact hs
  · exact (hostWrite_result s a v).symm ▸ hs
  · simp
  · exact hs
  · have hu : u.result ≠ .allocError := dispatch_result_ne_allocError hd
    exact hu

/-! ### What sets and clears OVR -/

@[simp] theorem designEffect_ovr (s : State) : (designEffect s).ovr = s.ovr := by
  by_cases hv : s.filterSpec.validate = 0
  · obtain ⟨w, hw⟩ := window_of_validate hv
    rw [designEffect_pass hv hw]
  · rw [designEffect_fail hv]

@[simp] theorem processEffect_ovr (n : Nat) (s : State) : (processEffect n s).ovr = s.ovr := by
  rcases Nat.lt_or_ge 1024 n with hn | hn
  · rw [processEffect_over hn]
  · rw [processEffect_eq hn]

@[simp] theorem flushEffect_ovr (s : State) : (flushEffect s).ovr = s.ovr := by rw [flushEffect_eq]

/-- SRESET is the one command that touches OVR: it clears it (rule R217). -/
theorem exec_ovr {i : Instr} {s t : State} (h : exec i s = .next t) :
    t.ovr = s.ovr ∨ (i = .sreset ∧ t.ovr = false) := by
  rw [exec_eq] at h
  cases h
  split
  · cases i with
    | sreset => exact .inr ⟨rfl, rfl⟩
    | _ => exact .inl (by simp)
  · exact .inl rfl

theorem dispatch_ovr {w : Word} {s t : State} (h : dispatch w s = .next t) :
    t.ovr = s.ovr ∨ (w = 0x00000006 ∧ t.ovr = false) := by
  rcases dispatch_cases h with ⟨-, rfl⟩ | ⟨i, hw, hi, -⟩
  · exact .inl rfl
  · rcases exec_ovr hi with hovr | ⟨rfl, hovr⟩
    · exact .inl hovr
    · exact .inr ⟨word_of_toNat (decode_ok_toNat hw), hovr⟩

/-- A host write leaves OVR alone unless it is an aligned one while BUSY, which is dropped (40_host_access.md rule R107). -/
theorem hostWrite_ovr_cases (s : State) (a : Offset) (v : Word) :
    (s.hostWrite a v).ovr = s.ovr ∨ (s.busy = true ∧ a.toNat % 4 = 0 ∧ s.hostWrite a v = { s with ovr := true }) := by
  rcases hostWrite_cases s a v with ⟨hb, -⟩ | ⟨-, ⟨i, -, he⟩ | ⟨fa, wi, o, f1, f2, fs, vo, p, l, he⟩⟩
  · rw [hostWrite_dropped hb]
    split
    case isTrue ha => exact .inr ⟨hb, ha, rfl⟩
    case isFalse => exact .inl rfl
  all_goals
    rw [he]
    exact .inl rfl

/-- Every way a step can treat OVR: leave it, clear it by a reset of either kind, or set it by dropping a write. -/
theorem step_ovr_cases {s t : State} (h : step s = .next t) :
    t.ovr = s.ovr ∨
    (t.ovr = false ∧ ((∃ rest, s.inputs = .reset :: rest) ∨ s.completes 0x00000006)) ∨
    (t.ovr = true ∧ ∃ a v rest, s.inputs = .write a v :: rest ∧ s.busy = true ∧ a.toNat % 4 = 0 ∧
      t = { s with ovr := true, inputs := rest }) := by
  rcases step_cases h with ⟨a, rest, -, rfl⟩ | ⟨a, v, rest, hi, rfl⟩ | ⟨rest, hi, rfl⟩ | ⟨-, -, rfl⟩ |
    ⟨w, u, hb, hp, hd, rfl⟩
  · exact .inl rfl
  · rcases hostWrite_ovr_cases s a v with hovr | ⟨hb, ha, hd⟩
    · exact .inl hovr
    · rw [hd]
      exact .inr (.inr ⟨rfl, a, v, rest, hi, hb, ha, rfl⟩)
  · exact .inr (.inl ⟨rfl, .inl ⟨rest, hi⟩⟩)
  · exact .inl rfl
  · rcases dispatch_ovr hd with hovr | ⟨rfl, hovr⟩
    · exact .inl hovr
    · exact .inr (.inl ⟨hovr, .inr ⟨hp, hb⟩⟩)

theorem hazard_of_write {s : State} {a : Offset} {v : Word} {rest : List Input} (hi : s.inputs = .write a v :: rest)
    (hb : s.busy = true) : s.hazard = true := by
  simp only [State.hazard, hi, hb, Bool.and_self]

/-! ### The obligations -/

/-- Settles O15: a DESIGN whose mask is not 0, as `exec_design_fail` says of any such mask. -/
theorem designFails : Obligations.DesignFails := fun s hp hv => exec_design_fail s hp hv rfl

/-- Settles O38: the accepted word completes with CMD_ILLEGAL; completion gives back the `pending` that acceptance took. -/
theorem illegalWordRule : Obligations.IllegalWordRule := by
  intro s w hw h
  have completes : complete w (s.hostWrite 0x020 w) =
      .next { s.accept w with result := .cmdIllegal }.finish.dropInput := by
    rw [hostWrite_cmd h, complete, dispatch_of_illegal hw, mapNext_next]
  refine ⟨_, completes, ?_, opField_toNat w, statusWord_result _⟩
  rw [State.dropInput, State.finish, ← h]
  rfl

/-- Settles O39: each error leaves its `errorState`; which error it is follows from the word and the phase. -/
theorem preciseErrors : Obligations.PreciseErrors := by
  intro s t w h
  refine ⟨fun hr => dispatch_error h hr (by simp) (by simp), fun hr => dispatch_error h hr (by simp) (by simp),
    fun hr => dispatch_error h hr (by simp) (by simp), fun hr => ?_, fun hw => ?_, fun hw hp => ?_, fun hw hp hn => ?_⟩
  · obtain rfl := dispatch_error h hr (by simp) (by simp)
    rfl
  · rw [dispatch_of_illegal hw] at h
    cases h
    rfl
  · have outside : ¬permitted (.process (w.toNat / 2 ^ 16)) s.phase = true := fun hs => hp ((permitted_iff _ _).1 hs)
    rw [dispatch_of_decode (decode_process_word hw), exec_of_not_permitted outside] at h
    cases h
    rfl
  · rw [dispatch_of_decode (decode_process_word hw), exec_process _ hp, processEffect_over hn] at h
    cases h
    rfl

/-- Settles O40: `ownResult` has no ALLOC_ERROR, and code 2 of STATUS is ALLOC_ERROR alone. -/
theorem neverAllocError : Obligations.NeverAllocError := by
  refine ⟨fun _ _ _ => exec_result_ne_allocError, fun s t hs h => ?_⟩
  have result : t.result ≠ .allocError := step_result_ne_allocError hs h
  rw [statusWord_result]
  exact ⟨result, (Result.code_eq_two_iff _).not.2 result⟩

/-- Settles O42: `step_ovr_cases` gives what clears and what sets OVR, and an aligned write while BUSY is dropped. -/
theorem ovrSticky : Obligations.OvrSticky := by
  refine fun s t h => ⟨fun hs ht => ?_, fun hs ht => ?_, fun a v rest hi hb ha => ?_⟩
  · rcases step_ovr_cases h with hovr | ⟨-, hcause⟩ | ⟨hovr, -⟩
    · simp [hs, ht] at hovr
    · exact hcause
    · simp [ht] at hovr
  · rcases step_ovr_cases h with hovr | ⟨hovr, -⟩ | ⟨-, a, v, rest, hi, hb, ha, heq⟩
    · simp [hs, ht] at hovr
    · simp [ht] at hovr
    · exact ⟨a, v, rest, hi, hb, ha, hazard_of_write hi hb, heq⟩
  · rw [step_write hi, hostWrite_dropped hb, if_pos ha] at h
    cases h
    rfl

end Sys2Proof.Machine
end

section
/-! What a step cannot change: the taps of a run, and the gain that START latched; and that the samples of a run do not read
the configuration registers (70_reset_and_hazards.md rules R250, R251). -/

namespace Sys2Proof.Machine

/-! ### The taps -/

/-- Every byte from TAPS on is in t what it is in s, and so is TAP_COUNT, unless t is in IDLE, where no tap is valid. -/
def KeepsTaps (s t : State) : Prop :=
  (t.tapCount = s.tapCount ∨ t.phase = .idle) ∧ ∀ a, 0x3000 ≤ a → t.ramByte a = s.ramByte a

theorem keepsTaps_of_eq {s t : State} (hcount : t.tapCount = s.tapCount) (hmem : t.mem = s.mem)
    (hpower : t.powerOns = s.powerOns) : KeepsTaps s t :=
  ⟨.inl hcount, fun a _ => ramByte_congr hmem hpower a⟩

/-- A tap is four bytes from TAPS on. -/
theorem KeepsTaps.tapWord {s t : State} (h : KeepsTaps s t) (i : Nat) : t.tapWord i = s.tapWord i := by
  have byte (k : Nat) : t.ramByte (tapAddr i + k) = s.ramByte (tapAddr i + k) :=
    h.2 _ (by simp only [tapAddr, tapsBase]; omega)
  rw [State.tapWord, State.tapWord, ramWord_eq, ramWord_eq, byte 1, byte 2, byte 3, ← Nat.add_zero (tapAddr i), byte 0]

/-- IN_BUF ends where OUT_BUF begins, and so before TAPS. -/
theorem keepsTaps_setIn (s : State) {i : Nat} (hi : i < 1024) (v : Word) : KeepsTaps s (s.setIn i v) := by
  refine ⟨.inl rfl, fun a ha => ?_⟩
  have above : inBufAddr i + 4 ≤ a := by simp only [inBufAddr, inBufBase]; omega
  simp only [State.ramByte, State.setIn_mem, State.setIn_powerOns, readByte_writeWord_other _ _ (.inr above)]

/-- OUT_BUF ends where TAPS begins. -/
theorem keepsTaps_processEffect (n : Nat) (s : State) : KeepsTaps s (processEffect n s) := by
  rcases Nat.lt_or_ge 1024 n with hn | hn
  · rw [processEffect_over hn]
    exact keepsTaps_of_eq rfl rfl rfl
  · have count : (processEffect n s).tapCount = s.tapCount := by rw [processEffect_eq hn]
    exact ⟨.inl count, fun a ha => processEffect_ramByte hn s a (.inr (by simp only [outBufBase]; omega))⟩

/-- The L outputs of a FLUSH fit OUT_BUF. -/
theorem keepsTaps_flushEffect {s : State} (hL : s.len ≤ 1024) : KeepsTaps s (flushEffect s) := by
  have count : (flushEffect s).tapCount = s.tapCount := by rw [flushEffect_eq]
  exact ⟨.inl count, fun a ha => flushEffect_ramByte s a (.inr (by simp only [outBufBase]; omega))⟩

/-- Only a DESIGN outside STREAM writes TAPS (rule R251). -/
theorem exec_keepsTaps {i : Instr} {s t : State} (hL : s.len ≤ 1024) (h : exec i s = .next t) :
    (i = .design ∧ s.phase ≠ .stream) ∨ KeepsTaps s t := by
  by_cases hp : permitted i s.phase = true
  · rw [exec_eq, if_pos hp] at h
    cases h
    cases i with
    | nop => exact .inr (keepsTaps_of_eq rfl rfl rfl)
    | design => exact .inl ⟨rfl, (permitted_iff _ _).1 hp⟩
    | start => exact .inr (keepsTaps_of_eq rfl rfl rfl)
    | process n => exact .inr (keepsTaps_processEffect n s)
    | flush => exact .inr (keepsTaps_flushEffect hL)
    | abort => exact .inr (keepsTaps_of_eq rfl rfl rfl)
    | sreset => exact .inr ⟨.inr rfl, fun _ _ => ramByte_congr rfl rfl _⟩
  · rw [exec_of_not_permitted hp] at h
    cases h
    exact .inr (keepsTaps_of_eq rfl rfl rfl)

theorem dispatch_keepsTaps {w : Word} {s t : State} (hL : s.len ≤ 1024) (h : dispatch w s = .next t) :
    (w = 0x00000001 ∧ s.phase ≠ .stream) ∨ KeepsTaps s t := by
  rcases dispatch_cases h with ⟨-, rfl⟩ | ⟨i, hw, hi, -⟩
  · exact .inr (keepsTaps_of_eq rfl rfl rfl)
  · rcases exec_keepsTaps hL hi with ⟨rfl, hp⟩ | hkeeps
    · exact .inl ⟨word_of_toNat (decode_ok_toNat hw), hp⟩
    · exact .inr hkeeps

theorem hostWrite_tapCount (s : State) (a : Offset) (v : Word) : (s.hostWrite a v).tapCount = s.tapCount := by
  rcases hostWrite_cases s a v with ⟨-, he | he⟩ | ⟨-, ⟨i, -, he⟩ | ⟨fa, wi, o, f1, f2, fs, vo, p, l, he⟩⟩ <;> rw [he]
  rfl

/-- No access of the host reaches TAP_COUNT or TAPS. -/
theorem hostWrite_keepsTaps (s : State) (a : Offset) (v : Word) : KeepsTaps s (s.hostWrite a v) := by
  rcases hostWrite_cases s a v with ⟨-, he | he⟩ | ⟨-, ⟨i, hi, he⟩ | ⟨fa, wi, o, f1, f2, fs, vo, p, l, he⟩⟩ <;> rw [he]
  case inr.inl => exact keepsTaps_setIn s (locate_inBuf_lt hi) v
  all_goals exact keepsTaps_of_eq rfl rfl rfl

theorem step_keepsTaps {s t : State} (hL : s.len ≤ 1024) (h : step s = .next t) :
    ((∃ rest, s.inputs = .reset :: rest) ∧ t.phase = .idle) ∨ (s.completes 0x00000001 ∧ s.phase ≠ .stream) ∨
      KeepsTaps s t := by
  rcases step_cases h with ⟨a, rest, -, rfl⟩ | ⟨a, v, rest, -, rfl⟩ | ⟨rest, hi, rfl⟩ | ⟨-, -, rfl⟩ |
    ⟨w, u, hb, hp, hd, rfl⟩
  · exact .inr (.inr (keepsTaps_of_eq rfl rfl rfl))
  · exact .inr (.inr (hostWrite_keepsTaps s a v))
  · exact .inl ⟨⟨rest, hi⟩, rfl⟩
  · exact .inr (.inr (keepsTaps_of_eq rfl rfl rfl))
  · rcases dispatch_keepsTaps hL hd with ⟨rfl, hphase⟩ | hkeeps
    · exact .inr (.inl ⟨⟨hp, hb⟩, hphase⟩)
    · exact .inr (.inr hkeeps)

/-! ### The gain -/

@[simp] theorem designEffect_gain (s : State) : (designEffect s).gain = s.gain := by
  by_cases hv : s.filterSpec.validate = 0
  · obtain ⟨w, hw⟩ := window_of_validate hv
    rw [designEffect_pass hv hw]
  · rw [designEffect_fail hv]

@[simp] theorem processEffect_gain (n : Nat) (s : State) : (processEffect n s).gain = s.gain := by
  rcases Nat.lt_or_ge 1024 n with hn | hn
  · rw [processEffect_over hn]
  · rw [processEffect_eq hn]

@[simp] theorem flushEffect_gain (s : State) : (flushEffect s).gain = s.gain := by rw [flushEffect_eq]

/-- START is the one command that touches GAIN (42_convolver.md rule R170). -/
theorem exec_gain {i : Instr} {s t : State} (h : exec i s = .next t) :
    t.gain = s.gain ∨ (i = .start ∧ t.gain = s.volume) := by
  rw [exec_eq] at h
  cases h
  split
  · cases i with
    | start => exact .inr ⟨rfl, rfl⟩
    | _ => exact .inl (by simp)
  · exact .inl rfl

theorem dispatch_gain {w : Word} {s t : State} (h : dispatch w s = .next t) :
    t.gain = s.gain ∨ (w = 0x00000002 ∧ t.gain = s.volume) := by
  rcases dispatch_cases h with ⟨-, rfl⟩ | ⟨i, hw, hi, -⟩
  · exact .inl rfl
  · rcases exec_gain hi with hgain | ⟨rfl, hgain⟩
    · exact .inl hgain
    · exact .inr ⟨word_of_toNat (decode_ok_toNat hw), hgain⟩

theorem hostWrite_gain (s : State) (a : Offset) (v : Word) : (s.hostWrite a v).gain = s.gain := by
  rcases hostWrite_cases s a v with ⟨-, he | he⟩ | ⟨-, ⟨i, -, he⟩ | ⟨fa, wi, o, f1, f2, fs, vo, p, l, he⟩⟩ <;> rw [he]
  rfl

/-- Every way a step can treat GAIN: leave it, forget it at the external reset, or latch VOLUME into it. -/
theorem step_gain_cases {s t : State} (h : step s = .next t) :
    t.gain = s.gain ∨ (∃ rest, s.inputs = .reset :: rest) ∨ (s.completes 0x00000002 ∧ t.gain = s.volume) := by
  rcases step_cases h with ⟨a, rest, -, rfl⟩ | ⟨a, v, rest, -, rfl⟩ | ⟨rest, hi, rfl⟩ | ⟨-, -, rfl⟩ |
    ⟨w, u, hb, hp, hd, rfl⟩
  · exact .inl rfl
  · exact .inl (hostWrite_gain s a v)
  · exact .inr (.inl ⟨rest, hi⟩)
  · exact .inl rfl
  · rcases dispatch_gain hd with hgain | ⟨rfl, hgain⟩
    · exact .inl hgain
    · exact .inr (.inr ⟨⟨hp, hb⟩, hgain⟩)

/-! ### The configuration registers -/

/-- The state s with the configuration registers of c: the FilterSpec and VOLUME. -/
def State.withConfig (s c : State) : State :=
  { s with family := c.family, window := c.window, order := c.order, f1 := c.f1, f2 := c.f2, fs := c.fs,
           volume := c.volume }

/-- A loop commutes with what each of its passes commutes with. -/
theorem loopUp_comm {α : Type} (n : Nat) {body : Nat → α → α} {f : α → α} (h : ∀ i a, body i (f a) = f (body i a))
    (init : α) : loopUp n body (f init) = f (loopUp n body init) := by
  induction n with
  | zero => rfl
  | succ n ih => rw [loopUp_succ, loopUp_succ, ih, h]

theorem processSamples_withConfig (n : Nat) (s c : State) :
    processSamples n (s.withConfig c) = (processSamples n s).withConfig c :=
  loopUp_comm n (body := fun i t => sampleInto t i (t.inWord i)) (f := (·.withConfig c)) (fun _ _ => rfl) s

theorem flushSamples_withConfig (n : Nat) (s c : State) :
    flushSamples n (s.withConfig c) = (flushSamples n s).withConfig c :=
  loopUp_comm n (body := fun i t => sampleInto t i zero32) (f := (·.withConfig c)) (fun _ _ => rfl) s

theorem processEffect_withConfig (n : Nat) (s c : State) :
    processEffect n (s.withConfig c) = (processEffect n s).withConfig c := by
  rcases Nat.lt_or_ge 1024 n with hn | hn
  · rw [processEffect_over hn, processEffect_over hn]
    rfl
  · rw [processEffect_eq hn, processEffect_eq hn, processSamples_withConfig]
    rfl

theorem flushEffect_withConfig (s c : State) : flushEffect (s.withConfig c) = (flushEffect s).withConfig c := by
  have samples : flushSamples (s.withConfig c).len (s.withConfig c) = (flushSamples s.len s).withConfig c :=
    flushSamples_withConfig s.len s c
  rw [flushEffect_eq, flushEffect_eq, samples]
  rfl

/-- The phase check does not read them either. -/
theorem ifPermitted_withConfig (i : Instr) (s t c : State) :
    ifPermitted i (s.withConfig c) (t.withConfig c) = mapNext (·.withConfig c) (ifPermitted i s t) := by
  have phase : (s.withConfig c).phase = s.phase := rfl
  rw [ifPermitted_eq, ifPermitted_eq, mapNext_next, phase]
  split <;> rfl

theorem exec_process_withConfig (n : Nat) (s c : State) :
    exec (.process n) (s.withConfig c) = mapNext (·.withConfig c) (exec (.process n) s) := by
  have effect := ifPermitted_withConfig (.process n) s (processEffect n s) c
  rw [← processEffect_withConfig] at effect
  exact effect

theorem exec_flush_withConfig (s c : State) :
    exec .flush (s.withConfig c) = mapNext (·.withConfig c) (exec .flush s) := by
  have effect := ifPermitted_withConfig .flush s (flushEffect s) c
  rw [← flushEffect_withConfig] at effect
  exact effect

/-! ### The obligations -/

/-- Settles O43: `step_keepsTaps`, whose first two cases are no step within a run. -/
theorem tapsFixedInRun : Obligations.TapsFixedInRun := by
  intro s t hinv h
  have hL : s.len ≤ 1024 := (legalLen_le hinv.len_legal).trans (by decide)
  rcases step_keepsTaps hL h with ⟨hreset, ht⟩ | ⟨hdesign, hs⟩ | ⟨hcount, hbytes⟩
  · exact ⟨fun _ hstream => by simp [ht] at hstream, .inl hreset⟩
  · exact ⟨fun hstream _ => absurd hstream hs, .inr (.inl ⟨hdesign, hs⟩)⟩
  · exact ⟨fun _ hstream => hcount.resolve_right (by simp [hstream]), .inr (.inr hbytes)⟩

/-- Settles O44: a host write keeps the taps and the gain, `step_gain_cases` gives what changes the gain, and the run
commands commute with a change of the configuration registers. -/
theorem configurationLatch : Obligations.ConfigurationLatch := by
  refine ⟨fun s a v => ?_, fun s t h hne => (step_gain_cases h).resolve_left hne, fun s n fam win ord a b c d => ?_⟩
  · have taps := hostWrite_keepsTaps s a v
    exact ⟨hostWrite_tapCount s a v, hostWrite_gain s a v, fun i _ => taps.tapWord i⟩
  · have commute (config : State) := And.intro (exec_process_withConfig n s config) (exec_flush_withConfig s config)
    exact commute { s with family := fam, window := win, order := ord, f1 := a, f2 := b, fs := c, volume := d }

end Sys2Proof.Machine
end

section
/-! The two resets: what a host reads after each of them, outside IN_BUF and OUT_BUF, is one table but for LAST_OP
(70_reset_and_hazards.md rules R240, R242). -/

namespace Sys2Proof.Machine

/-! ### The table of the registers -/

/-- The register values of R240's table; `op` is LAST_OP, STATUS being 0 but for it. -/
def resetValue (op : BitVec 8) : Register → Word
  | .id => 0x46495254
  | .version => 0x00000007
  | .caps => 0x040003E8
  | .volume => 0x3F800000
  | .status => op.setWidth 32 <<< 16
  | _ => 0x00000000

/-- What R240 leaves of the state that a host can read: nothing is pending, no tap is valid, and the registers have the
values of the table. -/
structure State.IsReset (s : State) (op : BitVec 8) : Prop where
  pending : s.pending = none
  phase : s.phase = .idle
  registers : ∀ r, s.readRegister r = resetValue op r

/-- STATUS with every other field 0 is LAST_OP in its place. -/
theorem statusWord_of_reset {s : State} (hp : s.pending = none) (hovr : s.ovr = false) (hr : s.result = .ok)
    (hphase : s.phase = .idle) : s.statusWord = s.lastOp.setWidth 32 <<< 16 := by
  have lastOp : ∀ op : BitVec 8, BitVec.ofNat 32 (op.toNat * 2 ^ 16 + 0 * 2 ^ 8 + 0 * 2 ^ 4) = op.setWidth 32 <<< 16 := by
    decide
  rw [statusWord_of_fields hp hovr rfl hr hphase]
  exact lastOp s.lastOp

/-- FILTER with every field 0 (10_state.md rule R23). -/
theorem filterWord_of_reset {s : State} (horder : s.order = 0) (hwindow : s.window = 0) (hfamily : s.family = 0) :
    s.filterWord = 0x00000000 := by
  rw [State.filterWord, horder, hwindow, hfamily]
  decide

/-- LAST_OP, the RAMs, the ring, cur, GAIN and what is outside the block may be anything. -/
theorem isReset_of_registers (op : BitVec 8) (s : State) :
    { State.reset with
        lastOp := op, mem := s.mem, ring := s.ring, cur := s.cur, gain := s.gain, powerOns := s.powerOns,
        inputs := s.inputs, readData := s.readData }.IsReset op where
  pending := rfl
  phase := rfl
  registers r := by
    cases r with
    | status => exact statusWord_of_reset rfl rfl rfl rfl
    | filter => exact filterWord_of_reset rfl rfl rfl
    | _ => rfl

theorem isReset_reset : State.reset.IsReset 0x00 := isReset_of_registers 0x00 State.reset

theorem isReset_externalReset (s : State) : s.externalReset.IsReset 0x00 := isReset_of_registers 0x00 s.externalReset

/-- SRESET, once its completion has taken the command from the pending slot. -/
theorem isReset_sresetEffect (s : State) : { sresetEffect s with pending := none }.IsReset 0x06 :=
  isReset_of_registers 0x06 s

/-! ### What the host reads -/

theorem State.IsReset.read {s : State} {op : BitVec 8} (h : s.IsReset op) (r : Register) :
    s.hostRead r.offset = resetValue op r :=
  (hostRead_register h.pending r).trans (h.registers r)

theorem State.IsReset.showsReset {s : State} {op : BitVec 8} (h : s.IsReset op) : s.ShowsReset op where
  pending := h.pending
  id := h.read .id
  version := h.read .version
  caps := h.read .caps
  filter := h.read .filter
  f1 := h.read .f1
  f2 := h.read .f2
  fs := h.read .fs
  volume := h.read .volume
  cmd := h.read .cmd
  status := h.read .status
  cfgErr := h.read .cfgErr
  tapCount := h.read .tapCount
  outCount := h.read .outCount
  samplesIn := h.read .samplesIn
  samplesOut := h.read .samplesOut
  taps _ hi := hostRead_tap_idle h.pending h.phase hi

/-- From 0x3000 on, every aligned offset is one of the 1024 indices of TAPS, those past 1000 being reserved. -/
theorem eq_tapOffset {a : Offset} (h4 : a.toNat % 4 = 0) (ha : 0x3000 ≤ a.toNat) : ∃ j < 1024, a = tapOffset j := by
  have hlt := a.isLt
  have hj : (a.toNat - 0x3000) / 4 < 1024 := by omega
  refine ⟨_, hj, BitVec.eq_of_toNat_eq ?_⟩
  rw [tapOffset_toNat hj]
  omega

/-- IN_BUF and OUT_BUF are the offsets 0x1000 to 0x2FFF (20_memory.md rule R60). -/
theorem locate_ne_buffer {a : Offset} (ha : a.toNat < 0x1000 ∨ 0x3000 ≤ a.toNat) (i : Nat) :
    locate a ≠ .inBuf i ∧ locate a ≠ .outBuf i := by
  by_cases h4 : a.toNat % 4 = 0
  · rcases ha with hlow | hhigh
    · rw [locate_low h4 hlow]
      split <;> simp
    · obtain ⟨j, hj, rfl⟩ := eq_tapOffset h4 hhigh
      rcases Nat.lt_or_ge 1000 j with h | h
      · simp [locate_tap_reserved hj h]
      · simp [locate_tap h]
  · simp [locate_misaligned h4]

/-- A read outside IN_BUF and OUT_BUF after a reset: what is no register is 0. -/
def resetRead (op : BitVec 8) : Location → Word
  | .register r => resetValue op r
  | _ => 0x00000000

theorem State.IsReset.hostRead_eq {s : State} {op : BitVec 8} (h : s.IsReset op) {a : Offset}
    (ha : a.toNat < 0x1000 ∨ 0x3000 ≤ a.toNat) : s.hostRead a = resetRead op (locate a) := by
  rw [hostRead_idle h.pending]
  cases hl : locate a with
  | register r => exact h.registers r
  | misaligned => rfl
  | inBuf i => exact absurd hl (locate_ne_buffer ha i).1
  | outBuf i => exact absurd hl (locate_ne_buffer ha i).2
  | tap i =>
    rw [State.readLocation, h.phase]
    rfl
  | reserved => rfl

/-- LAST_OP shows in STATUS alone. -/
theorem resetValue_eq_of_ne_status (op op' : BitVec 8) {r : Register} (hr : r ≠ .status) :
    resetValue op r = resetValue op' r := by
  cases r with
  | status => exact absurd rfl hr
  | _ => rfl

theorem State.IsReset.hostRead_congr {s t : State} {op op' : BitVec 8} (hs : s.IsReset op) (ht : t.IsReset op')
    {a : Offset} (hstatus : a ≠ 0x024) (ha : a.toNat < 0x1000 ∨ 0x3000 ≤ a.toNat) : s.hostRead a = t.hostRead a := by
  rw [hs.hostRead_eq ha, ht.hostRead_eq ha]
  cases hl : locate a with
  | register r => exact resetValue_eq_of_ne_status op op' fun hr => hstatus (locate_register_iff (hr ▸ hl))
  | _ => rfl

/-! ### The obligations -/

/-- Settles O45: both resets leave the table, and a FilterSpec of zeros fails validation. -/
theorem resetTable : Obligations.ResetTable := by
  refine ⟨isReset_reset.showsReset, fun s => ⟨(isReset_externalReset s).showsReset, ?_, ?_⟩⟩
  · have invalid : s.externalReset.filterSpec.validate ≠ 0 :=
      show State.reset.filterSpec.validate ≠ 0 by decide
    exact ⟨_, exec_design_fail s.externalReset (by simp) invalid rfl, rfl⟩
  · exact ⟨_, exec_sreset s, (isReset_sresetEffect s).showsReset, rfl, rfl, rfl, rfl⟩

/-- Settles O46: outside the buffers both resets read as the table says, the two STATUS words differing in LAST_OP. -/
theorem sresetVersusReset : Obligations.SresetVersusReset := by
  intro s
  have sreset := isReset_sresetEffect s
  have external := isReset_externalReset s
  refine ⟨fun hbusy => hostWrite_dropped hbusy 0x020 0x00000006, _, exec_sreset s, rfl, rfl, rfl, rfl, rfl, rfl,
    fun a hstatus ha => sreset.hostRead_congr external hstatus ha, ?_⟩
  rw [sreset.showsReset.status, external.showsReset.status]
  rfl

end Sys2Proof.Machine
end

section
/-! The encoder and the decoder are each other's inverse (30_encoding.md rules R83, R84). -/

namespace Sys2Proof

/-- The fields of every encoded command are its OP, 0 and its operand. -/
theorem encode_fields (i : Instr) : Laws.Encoding.Statement i := by
  cases i with
  | nop => exact Laws.Encoding.nop
  | design => exact Laws.Encoding.design
  | start => exact Laws.Encoding.start
  | process n => exact Laws.Encoding.process n
  | flush => exact Laws.Encoding.flush
  | abort => exact Laws.Encoding.abort
  | sreset => exact Laws.Encoding.sreset

/-- Settles O4: the fields of the word are the command's (`encode_fields`), and `decode_of_fields` reads them. -/
theorem decodeEncode : Obligations.DecodeEncode := by
  intro i hi
  obtain ⟨hop, hrsv, hcnt⟩ := encode_fields i hi
  rw [opField_toNat] at hop
  rw [countField_toNat] at hcnt
  exact decode_of_fields i ((rsvField_eq_zero_iff _).1 hrsv) hop hcnt

/-- The number of a command fits a word only where COUNT fits its field. -/
theorem wellFormed_of_commandNumber_lt {i : Instr} (h : commandNumber i < 2 ^ 32) : i.WellFormed := by
  cases i with
  | process n =>
    simp only [commandNumber] at h
    exact decide_eq_true (by omega)
  | _ => rfl

theorem encode_toNat {i : Instr} (hi : i.WellFormed) : (encode i).toNat = commandNumber i := by
  cases i with
  | process n => exact encode_process_toNat (of_decide_eq_true hi)
  | _ => rfl

/-- Settles O5: a word that decodes has the number of its command (`decode_ok_toNat`), and so has the command's word. -/
theorem encodeDecode : Obligations.EncodeDecode := by
  intro w i h
  have number : w.toNat = commandNumber i := decode_ok_toNat h
  have hi : i.WellFormed := wellFormed_of_commandNumber_lt (number ▸ w.isLt)
  exact ⟨hi, BitVec.eq_of_toNat_eq ((encode_toNat hi).trans number.symm)⟩

/-- Settles O1: the legal words are the words of their commands; the illegal ones are evaluated. -/
theorem sampleWordsDecode : Obligations.SampleWordsDecode := by
  have legal := decodeEncode
  exact ⟨legal .nop rfl, legal .design rfl, legal .start rfl, legal (.process 0) rfl, legal (.process 5) rfl,
    legal (.process 1024) rfl, legal (.process 1025) rfl, legal (.process 65535) rfl, legal .flush rfl,
    legal .abort rfl, legal .sreset rfl, rfl, rfl, rfl, rfl, rfl⟩

end Sys2Proof
end

section
/-! The steps of the two agents: what a completion, an access of the host and a turn with nothing pending do, and how many
steps a pending command can wait (40_host_access.md rules R100, R108, R114; 70_reset_and_hazards.md rule R252). -/

namespace Sys2Proof.Machine

/-- Settles O6: `step_complete`, with `dispatch` as the word decodes. -/
theorem commandStep : Obligations.CommandStep := by
  rintro s w ⟨hp, hb⟩
  have completion := step_complete hb hp
  refine ⟨completion, fun i hi => ?_, fun e he => ?_⟩
  · rw [completion, dispatch_of_decode hi]
  · rw [completion, dispatch_of_illegal ((decode_error_iff w).1 ⟨e, he⟩)]
    rfl

/-- Settles O7: one step lemma per input, and `step_idle` for a turn of the block with nothing pending. -/
theorem hostAccessSteps : Obligations.HostAccessSteps :=
  fun _ rest _ _ => ⟨step_read, step_write, step_reset, fun hi => step_idle (hi.imp_right fun h => ⟨rest, h⟩)⟩

/-- Settles O8: each step by its input, each command by its phase. -/
theorem stepAnswers : Obligations.StepAnswers := ⟨step_next, exec_next⟩

/-- After the block's turn nothing is pending. -/
theorem pending_of_blockNext {s t : State} (hb : blockNext s) (h : step s = .next t) : t.pending = none := by
  cases hp : s.pending with
  | none =>
    rw [step_idle hb hp] at h
    cases h
    exact hp
  | some w =>
    obtain ⟨u, hu⟩ := dispatch_next w s
    rw [step_complete hb hp, hu] at h
    cases h
    rfl

/-- A step that is not the block's turn takes an input. -/
theorem step_takes_input {s t : State} {x : Input} {rest : List Input} (hi : s.inputs = x :: rest) (hx : x ≠ .block)
    (h : step s = .next t) : t.inputs = rest := by
  cases x with
  | read a => rw [step_read hi] at h; cases h; rfl
  | write a v => rw [step_write hi] at h; cases h; rfl
  | reset => rw [step_reset hi] at h; cases h; rfl
  | block => exact absurd rfl hx

/-- The block's turn comes at the latest when no input is left. -/
theorem run_to_idle {l : List Input} : ∀ {s : State}, s.inputs = l →
    ∃ k ≤ l.length + 1, ∃ t, Host.Core.run Sys2Proof.core k s = .next t ∧ t.pending = none := by
  have turn {s : State} (n : Nat) (hb : blockNext s) :
      ∃ k ≤ n + 1, ∃ t, Host.Core.run Sys2Proof.core k s = .next t ∧ t.pending = none := by
    obtain ⟨t, ht⟩ := step_next s
    exact ⟨1, by omega, t, run_step ht 0, pending_of_blockNext hb ht⟩
  induction l with
  | nil => exact fun hi => turn _ (.inl hi)
  | cons x rest ih =>
    intro s hi
    by_cases hx : x = .block
    · exact turn _ (.inr ⟨rest, hx ▸ hi⟩)
    · obtain ⟨u, hu⟩ := step_next s
      obtain ⟨k, hk, t, hrun, ht⟩ := ih (step_takes_input hi hx hu)
      exact ⟨k + 1, Nat.succ_le_succ hk, t, (run_step hu k).trans hrun, ht⟩

/-- While BUSY = 1 an access of the host changes OVR and the word read at most (rules R105, R107). -/
theorem step_access {s : State} {w : Word} {x : Input} {rest : List Input} (hp : s.pending = some w)
    (hi : s.inputs = x :: rest) (hx : x.isAccess = true) :
    ∃ o r, step s = .next { s with ovr := o, readData := r, inputs := rest } := by
  cases x with
  | read a => exact ⟨s.ovr, s.hostRead a, step_read hi⟩
  | write a v =>
    rw [step_write hi, hostWrite_dropped (busy_some hp)]
    split
    · exact ⟨true, s.readData, rfl⟩
    · exact ⟨s.ovr, s.readData, rfl⟩
  | block => cases hx
  | reset => cases hx

theorem run_accesses {w : Word} {accesses later : List Input} (hx : ∀ x ∈ accesses, x.isAccess = true) :
    ∀ {s : State}, s.pending = some w → s.inputs = accesses ++ later →
      ∃ o r, Host.Core.run Sys2Proof.core accesses.length s = .next { s with ovr := o, readData := r, inputs := later } := by
  induction accesses with
  | nil =>
    intro s _ hi
    have last : s.inputs = later := hi
    exact ⟨s.ovr, s.readData, by rw [← last]; rfl⟩
  | cons x rest ih =>
    intro s hp hi
    rw [List.forall_mem_cons] at hx
    obtain ⟨o, r, hstep⟩ := step_access hp hi hx.1
    obtain ⟨o', r', hrun⟩ := ih hx.2 (s := { s with ovr := o, readData := r, inputs := rest ++ later }) hp rfl
    exact ⟨o', r', (run_step hstep rest.length).trans hrun⟩

/-- Settles O9: `run_to_idle`; and after the accesses (`run_accesses`) the block's turn is the completion. -/
theorem pendingCommandCompletes : Obligations.PendingCommandCompletes := by
  refine ⟨fun s => run_to_idle rfl, fun s w accesses later hp hi hx hlater => ?_⟩
  obtain ⟨o, r, hrun⟩ := run_accesses hx hp hi
  have turn : blockNext { s with ovr := o, readData := r, inputs := later } := hlater
  obtain ⟨t, ht⟩ := step_next { s with ovr := o, readData := r, inputs := later }
  exact ⟨_, t, hrun, rfl, step_complete turn hp, ht, pending_of_blockNext turn ht⟩

end Sys2Proof.Machine
end

section
/-! `exec COMMAND` as a host program writes it: a command does not read the port, so its effect is the same after any polls
(30_encoding.md rule R91; 40_host_access.md rules R106, R108). -/

namespace Sys2Proof.Machine

/-! ### The port -/

/-- The state s with other inputs to come and another word last read. -/
def State.withPort (s : State) (l : List Input) (r : Word) : State := { s with inputs := l, readData := r }

section
variable (s : State) (l : List Input) (r : Word)

theorem designEffect_withPort : designEffect (s.withPort l r) = (designEffect s).withPort l r := by
  by_cases hv : s.filterSpec.validate = 0
  · obtain ⟨w, hw⟩ := window_of_validate hv
    rw [designEffect_pass hv hw, designEffect_pass (s := s.withPort l r) hv hw]
    rfl
  · rw [designEffect_fail hv, designEffect_fail (s := s.withPort l r) hv]
    rfl

theorem processSamples_withPort (n : Nat) : processSamples n (s.withPort l r) = (processSamples n s).withPort l r :=
  loopUp_comm n (body := fun i t => sampleInto t i (t.inWord i)) (f := (·.withPort l r)) (fun _ _ => rfl) s

theorem flushSamples_withPort (n : Nat) : flushSamples n (s.withPort l r) = (flushSamples n s).withPort l r :=
  loopUp_comm n (body := fun i t => sampleInto t i zero32) (f := (·.withPort l r)) (fun _ _ => rfl) s

theorem processEffect_withPort (n : Nat) : processEffect n (s.withPort l r) = (processEffect n s).withPort l r := by
  rcases Nat.lt_or_ge 1024 n with hn | hn
  · rw [processEffect_over hn, processEffect_over hn]
    rfl
  · rw [processEffect_eq hn, processEffect_eq hn, processSamples_withPort]
    rfl

theorem flushEffect_withPort : flushEffect (s.withPort l r) = (flushEffect s).withPort l r := by
  have samples : flushSamples (s.withPort l r).len (s.withPort l r) = (flushSamples s.len s).withPort l r :=
    flushSamples_withPort s l r s.len
  rw [flushEffect_eq, flushEffect_eq, samples]
  rfl

/-- No command reads the inputs or the word last read, or writes them. -/
theorem exec_withPort (i : Instr) : exec i (s.withPort l r) = mapNext (·.withPort l r) (exec i s) := by
  have phase : (s.withPort l r).phase = s.phase := rfl
  rw [exec_eq, exec_eq, mapNext_next, phase]
  split
  · cases i with
    | nop => rfl
    | design => exact congrArg _ (designEffect_withPort s l r)
    | start => rfl
    | process n => exact congrArg _ (processEffect_withPort s l r n)
    | flush => exact congrArg _ (flushEffect_withPort s l r)
    | abort => rfl
    | sreset => rfl
  · rfl

end

/-! ### LAST_OP -/

@[simp] theorem designEffect_lastOp (s : State) : (designEffect s).lastOp = s.lastOp := by
  by_cases hv : s.filterSpec.validate = 0
  · obtain ⟨w, hw⟩ := window_of_validate hv
    rw [designEffect_pass hv hw]
  · rw [designEffect_fail hv]

@[simp] theorem processEffect_lastOp (n : Nat) (s : State) : (processEffect n s).lastOp = s.lastOp := by
  rcases Nat.lt_or_ge 1024 n with hn | hn
  · rw [processEffect_over hn]
  · rw [processEffect_eq hn]

@[simp] theorem flushEffect_lastOp (s : State) : (flushEffect s).lastOp = s.lastOp := by rw [flushEffect_eq]

/-- SRESET is the one command that touches LAST_OP: it sets its own OP (43_control.md rule R202). -/
theorem exec_lastOp {i : Instr} {s t : State} (h : exec i s = .next t) :
    t.lastOp = s.lastOp ∨ (i = .sreset ∧ t.lastOp = 0x06) := by
  rw [exec_eq] at h
  cases h
  split
  · cases i with
    | sreset => exact .inr ⟨rfl, rfl⟩
    | _ => exact .inl (by simp)
  · exact .inl rfl

/-- LAST_OP is bits [7:0] of the accepted word after every command. -/
theorem exec_accept_lastOp {i : Instr} {s t : State} (h : exec i (s.accept (encode i)) = .next t) :
    t.lastOp.toNat = (encode i).toNat % 2 ^ 8 := by
  rcases exec_lastOp h with hop | ⟨rfl, hop⟩
  · rw [hop]
    exact opField_toNat (encode i)
  · rw [hop]
    rfl

/-! ### The steps of exec COMMAND -/

/-- k reads of one offset change the word last read alone. -/
theorem run_reads {a : Offset} {later : List Input} (n k : Nat) : ∀ {s : State},
    s.inputs = List.replicate k (.read a) ++ later →
      ∃ r, Host.Core.run Sys2Proof.core (k + n) s = Host.Core.run Sys2Proof.core n (s.withPort later r) := by
  induction k with
  | zero =>
    intro s hi
    have last : s.inputs = later := hi
    exact ⟨s.readData, by rw [Nat.zero_add, State.withPort, ← last]⟩
  | succ k ih =>
    intro s hi
    obtain ⟨r, hrun⟩ := ih (s := s.withPort (List.replicate k (.read a) ++ later) (s.hostRead a)) rfl
    have first := run_step (step_read hi) (k + n)
    exact ⟨r, by rw [Nat.add_right_comm, first]; exact hrun⟩

/-- The write of CMD while BUSY = 0 accepts the word and takes the input (rule R106). -/
theorem step_write_cmd {s : State} {w : Word} {rest : List Input} (h : s.pending = none)
    (hi : s.inputs = .write 0x020 w :: rest) : step s = .next ((s.accept w).withPort rest s.readData) := by
  rw [step_write hi, hostWrite_cmd h]
  rfl

/-- The block's turn completes an accepted command, whatever the port has read meanwhile (rule R108). -/
theorem step_block_accepted {s t : State} {i : Instr} {rest : List Input} {r : Word} (hi : i.WellFormed)
    (hexec : exec i (s.accept (encode i)) = .next t) :
    step ((s.accept (encode i)).withPort (.block :: rest) r) = .next ({ t with pending := none }.withPort rest r) := by
  rw [step_complete (.inr ⟨rest, rfl⟩) (w := encode i) rfl, dispatch_of_decode (decodeEncode i hi), exec_withPort, hexec]
  rfl

/-- A read of STATUS while BUSY = 0. -/
theorem step_read_status {s : State} {rest : List Input} {r : Word} (h : s.pending = none) :
    step (s.withPort (.read 0x024 :: rest) r) = .next (s.withPort rest s.statusWord) := by
  have status : (s.withPort (.read 0x024 :: rest) r).hostRead 0x024 = s.statusWord :=
    hostRead_register (s := s.withPort (.read 0x024 :: rest) r) h .status
  rw [step_read rfl, status]
  rfl

/-- With BUSY = 0 bit 0 of STATUS is 0. -/
theorem statusWord_even {s : State} (h : s.pending = none) : s.statusWord.toNat % 2 = 0 := by
  rw [statusWord_toNat, busy_none h, Bool.toNat_false]
  omega

/-- Settles O10: the write of CMD, the k polls, the completion and the last poll, one after another. -/
theorem execExpansion : Obligations.ExecExpansion := by
  intro s t i k hi hp hinputs hexec
  obtain ⟨r, hpolls⟩ := run_reads 2 k
    (s := (s.accept (encode i)).withPort (List.replicate k (.read 0x024) ++ [.block, .read 0x024]) s.readData) rfl
  have polls : s.inputs = .write 0x020 (encode i) :: (List.replicate k (.read 0x024) ++ [.block, .read 0x024]) := by
    rw [hinputs, execInputs, pollInputs, List.append_assoc]
    rfl
  have run : Host.Core.run Sys2Proof.core (k + 3) s =
      .next ({ t with pending := none }.withPort [] { t with pending := none }.statusWord) := by
    rw [run_step (step_write_cmd hp polls) (k + 2), hpolls]
    exact (run_step (step_block_accepted hi hexec) 1).trans (run_step (step_read_status rfl) 0)
  have lastOp := exec_accept_lastOp hexec
  exact ⟨_, run, rfl, statusWord_even rfl, lastOp⟩

end Sys2Proof.Machine
end

section
/-! How a run begins and ends: the phase after each command and each step (00_scope.md rule R13, 40_host_access.md rule
R110). -/

namespace Sys2Proof.Machine

@[simp] theorem processEffect_phase (n : Nat) (s : State) : (processEffect n s).phase = s.phase := by
  rcases Nat.lt_or_ge 1024 n with hn | hn
  · rw [processEffect_over hn]
  · rw [processEffect_eq hn]

@[simp] theorem flushEffect_phase (s : State) : (flushEffect s).phase = .done := by rw [flushEffect_eq]

theorem designEffect_phase (s : State) : (designEffect s).phase ≠ .stream := by
  by_cases hv : s.filterSpec.validate = 0
  · obtain ⟨w, hw⟩ := window_of_validate hv
    simp [designEffect_pass hv hw]
  · simp [designEffect_fail hv]

/-- Which commands can change the phase, and to which. -/
theorem exec_phase {i : Instr} {s t : State} (h : exec i s = .next t) :
    t.phase = s.phase ∨ (s.phase ≠ .stream ∧ t.phase ≠ .stream) ∨ (i = .start ∧ t.phase = .stream) ∨
      (i = .flush ∧ t.phase = .done) ∨ (i = .abort ∧ t.phase = .halted) ∨ (i = .sreset ∧ t.phase = .idle) := by
  by_cases hp : permitted i s.phase = true
  · rw [exec_eq, if_pos hp] at h
    cases h
    cases i with
    | nop => exact .inl rfl
    | design => exact .inr (.inl ⟨(permitted_iff _ _).1 hp, designEffect_phase s⟩)
    | start => exact .inr (.inr (.inl ⟨rfl, rfl⟩))
    | process n => exact .inl (processEffect_phase n s)
    | flush => exact .inr (.inr (.inr (.inl ⟨rfl, rfl⟩)))
    | abort => exact .inr (.inr (.inr (.inr (.inl ⟨rfl, rfl⟩))))
    | sreset => exact .inr (.inr (.inr (.inr (.inr ⟨rfl, rfl⟩))))
  · rw [exec_of_not_permitted hp] at h
    cases h
    exact .inl rfl

theorem hostWrite_phase (s : State) (a : Offset) (v : Word) : (s.hostWrite a v).phase = s.phase := by
  rcases hostWrite_cases s a v with ⟨-, he | he⟩ | ⟨-, ⟨i, -, he⟩ | ⟨fa, wi, o, f1, f2, fs, vo, p, l, he⟩⟩ <;> rw [he]
  rfl

/-- The same by the word of the command. -/
theorem dispatch_phase {w : Word} {s t : State} (h : dispatch w s = .next t) :
    t.phase = s.phase ∨ (s.phase ≠ .stream ∧ t.phase ≠ .stream) ∨ (w = 0x00000002 ∧ t.phase = .stream) ∨
      (w = 0x00000004 ∧ t.phase = .done) ∨ (w = 0x00000005 ∧ t.phase = .halted) ∨
      (w = 0x00000006 ∧ t.phase = .idle) := by
  rcases dispatch_cases h with ⟨-, rfl⟩ | ⟨i, hw, hi, -⟩
  · exact .inl rfl
  · obtain ⟨-, rfl⟩ := encodeDecode w i hw
    have word {j : Instr} {p : Phase} : (i = j ∧ t.phase = p) → encode i = encode j ∧ t.phase = p :=
      And.imp_left (congrArg encode)
    exact (exec_phase hi).imp_right (.imp_right (.imp word (.imp word (.imp word word))))

/-- Every way a step can treat the phase. -/
theorem step_phase_cases {s t : State} (h : step s = .next t) :
    t.phase = s.phase ∨ (s.phase ≠ .stream ∧ t.phase ≠ .stream) ∨
      ((∃ rest, s.inputs = .reset :: rest) ∧ t.phase = .idle) ∨ (s.completes 0x00000002 ∧ t.phase = .stream) ∨
      (s.completes 0x00000004 ∧ t.phase = .done) ∨ (s.completes 0x00000005 ∧ t.phase = .halted) ∨
      (s.completes 0x00000006 ∧ t.phase = .idle) := by
  rcases step_cases h with ⟨a, rest, -, rfl⟩ | ⟨a, v, rest, -, rfl⟩ | ⟨rest, hi, rfl⟩ | ⟨-, -, rfl⟩ |
    ⟨w, u, hb, hp, hd, rfl⟩
  · exact .inl rfl
  · exact .inl (hostWrite_phase s a v)
  · exact .inr (.inr (.inl ⟨⟨rest, hi⟩, rfl⟩))
  · exact .inl rfl
  · have completes {v : Word} {p : Phase} : (w = v ∧ u.phase = p) → s.completes v ∧ u.phase = p :=
      And.imp_left fun hw => hw ▸ ⟨hp, hb⟩
    exact (dispatch_phase hd).imp_right
      (.imp_right fun h => .inr (h.imp completes (.imp completes (.imp completes completes))))

/-- Settles O41: each case of `step_phase_cases` is no such step, or the cause the statement names. -/
theorem runLifecycle : Obligations.RunLifecycle := by
  intro s t h
  rcases step_phase_cases h with hphase | ⟨hs, ht⟩ | ⟨hreset, ht⟩ | ⟨hstart, ht⟩ | hflush | habort | hsreset
  · exact ⟨fun hs ht => absurd (hphase ▸ ht) hs, fun hs ht => absurd (hphase.trans hs) ht⟩
  · exact ⟨fun _ hstream => absurd hstream ht, fun hstream => absurd hstream hs⟩
  · exact ⟨fun _ hstream => by simp [ht] at hstream, fun _ _ => .inl hreset⟩
  · exact ⟨fun _ _ => hstart, fun _ hne => absurd ht hne⟩
  · exact ⟨fun _ hstream => by simp [hflush.2] at hstream, fun _ _ => .inr (.inl hflush)⟩
  · exact ⟨fun _ hstream => by simp [habort.2] at hstream, fun _ _ => .inr (.inr (.inl habort))⟩
  · exact ⟨fun _ hstream => by simp [hsreset.2] at hstream, fun _ _ => .inr (.inr (.inr hsreset))⟩

end Sys2Proof.Machine
end

section
/-! The invariants after either reset (70_reset_and_hazards.md rule R243), and the IN_BUF window of the host port
(40_host_access.md rule R103). -/

namespace Sys2Proof.Machine

/-- Settles O47: every clause of the invariant holds of the reset state, which has no tap; SRESET keeps it. -/
theorem resetInvariant : Obligations.ResetInvariant :=
  ⟨reset_inv, fun _ hi => absurd hi (Nat.not_lt_zero _), fun s => ⟨externalReset_inv s, rfl, rfl⟩,
    fun s => ⟨_, exec_sreset s, rfl, rfl, rfl, sresetEffect_inv⟩⟩

theorem hostRead_inBuf {s : State} (h : s.pending = none) {i : Nat} (hi : i < 1024) :
    s.hostRead (inBufOffset i) = s.inWord i := by
  rw [hostRead_idle h, locate_inBuf hi]
  rfl

theorem hostWrite_inBuf {s : State} (h : s.pending = none) {i : Nat} (hi : i < 1024) (v : Word) :
    s.hostWrite (inBufOffset i) v = s.setIn i v := by
  rw [hostWrite_idle h, locate_inBuf hi]
  rfl

theorem ramByte_setIn (s : State) {i a : Nat} (v : Word) (h : a < inBufAddr i ∨ inBufAddr i + 4 ≤ a) :
    (s.setIn i v).ramByte a = s.ramByte a := by
  simp only [State.ramByte, State.setIn_mem, State.setIn_powerOns, readByte_writeWord_other _ _ h]

/-- Byte lane k of a RAM word is the byte at its address plus k (20_memory.md rule R64). -/
theorem ramWord_lane (s : State) (a : Nat) {k : Nat} (hk : k < 4) :
    (s.ramWord a).toNat / 2 ^ (8 * k) % 2 ^ 8 = (s.ramByte (a + k)).toNat := by
  have h0 := (s.ramByte a).isLt
  have h1 := (s.ramByte (a + 1)).isLt
  have h2 := (s.ramByte (a + 2)).isLt
  have h3 := (s.ramByte (a + 3)).isLt
  rw [ramWord_eq, wordOfLanes, append_toNat, append_toNat, append_toNat]
  interval_cases k
  · rw [Nat.add_zero a]
    omega
  all_goals omega

/-- Settles O51: the write is `State.setIn`, the read `State.inWord`, whose bytes are free values where none is written. -/
theorem inBufAccess : Obligations.InBufAccess := by
  intro s i v hi h
  rw [hostWrite_inBuf h hi, hostRead_inBuf h hi]
  refine ⟨?_, rfl, fun a ha => ramByte_setIn s v ha, rfl, fun hnone k hk => ?_⟩
  · have written : (s.setIn i v).inWord i = v := (inWord_setIn s i i v).trans (if_pos rfl)
    exact (hostRead_inBuf (s := s.setIn i v) h hi).trans written
  · have free : s.ramByte (0x1000 + 4 * i + k) = Config.powerOnByte s.powerOns (0x1000 + 4 * i + k) := by
      rw [State.ramByte, hnone k hk, Option.getD_none]
    exact (ramWord_lane s _ hk).trans (congrArg BitVec.toNat free)

end Sys2Proof.Machine
end

section
/-! A DESIGN whose validation succeeds: what it writes, and that it reads the FilterSpec alone, F2 only for the band families
(41_designer.md rules R130, R150; 10_state.md rule R24). -/

namespace Sys2Proof.Machine

/-- The bytes outside TAPS[0..N] are as they were. -/
theorem designPass_ramByte (s : State) (w : Window) {a : Nat}
    (ha : a < tapsBase ∨ tapsBase + 4 * (s.order.toNat + 1) ≤ a) : (designPass s w).ramByte a = s.ramByte a :=
  congrArg (·.getD (Config.powerOnByte s.powerOns a)) (synthesize_readByte s.filterSpec w s.mem a ha)

/-- Settles O14: the lower half holds `designTap` and the upper half its mirror image. -/
theorem designPasses : Obligations.DesignPasses := by
  intro s hp hv
  obtain ⟨w, hw⟩ := window_of_validate hv
  obtain ⟨-, -, hmax⟩ := order_of_validate hv
  have tap {x : ℕ} (hx : x ≤ s.order.toNat) := designPass_tapWord w hv hx
  refine ⟨designPass s w, w, exec_design_pass hp hv hw, hw, rfl, designPass_len w hmax, fun x hx => ⟨?_, ?_⟩,
    fun a ha => designPass_ramByte s w ha⟩
  · rw [tap (by omega), Nat.min_eq_left (by omega)]
    rfl
  · have mirror : min (s.order.toNat - x) (s.order.toNat - (s.order.toNat - x)) = x := by omega
    rw [tap (Nat.sub_le _ _), mirror]
    rfl

/-! ### F2 outside the band families -/

section
variable {f : FilterSpec} (h : f.family.isBand = false) (v : Word)
include h

theorem validate_f2_of_not_band : { f with f2 := v }.validate = f.validate := by
  have range : { f with f2 := v }.f2Range = f.f2Range := by simp only [FilterSpec.f2Range, h, Bool.false_and]
  have order : { f with f2 := v }.fOrder = f.fOrder := by simp only [FilterSpec.fOrder, h, Bool.false_and]
  unfold FilterSpec.validate
  rw [range, order]
  rfl

theorem idealAt_f2_of_not_band (x : ℕ) : idealAt { f with f2 := v } x = idealAt f x := by
  obtain ⟨family, window, order, f1, f2, fs⟩ := f
  cases family with
  | lowpass => rfl
  | highpass => rfl
  | bandpass => cases h
  | bandstop => cases h

theorem synthesize_f2_of_not_band (w : Window) (m : Memory) : synthesize { f with f2 := v } w m = synthesize f w m :=
  loopUp_congr m fun x _ m => by simp only [designTap, idealAt_f2_of_not_band h v x]

end

theorem designEffect_f2_of_not_band {s : State} (h : s.filterSpec.family.isBand = false) (v : Word) :
    designEffect { s with f2 := v } = { designEffect s with f2 := v } := by
  have mask : { s with f2 := v }.filterSpec.validate = s.filterSpec.validate := validate_f2_of_not_band h v
  by_cases hv : s.filterSpec.validate = 0
  · obtain ⟨w, hw⟩ := window_of_validate hv
    have taps : synthesize { s with f2 := v }.filterSpec w s.mem = synthesize s.filterSpec w s.mem :=
      synthesize_f2_of_not_band h v w s.mem
    rw [designEffect_pass hv hw, designEffect_pass (mask.trans hv) hw, taps]
  · rw [designEffect_fail hv, designEffect_fail (mask.trans_ne hv), mask]

/-- Settles O18: the taps are `designTap` of the FilterSpec; without a band neither the mask nor a tap depends on F2. -/
theorem designReadsFilterSpecOnly : Obligations.DesignReadsFilterSpecOnly := by
  refine ⟨fun s s' hp hp' hspec hv => ?_, fun s v hfam => ?_⟩
  · obtain ⟨w, hw⟩ := window_of_validate hv
    have order : s.order.toNat = s'.order.toNat := congrArg FilterSpec.order hspec
    refine ⟨_, _, exec_design_pass hp hv hw, exec_design_pass hp' (hspec ▸ hv) (hspec ▸ hw), fun x hx => ?_⟩
    rw [designPass_tapWord w hv hx, designPass_tapWord w (hspec ▸ hv) (order ▸ hx), hspec, order]
  · have noBand : s.filterSpec.family.isBand = false := by
      rw [← Bool.not_eq_true, isBand_iff]
      rcases hfam with hfam | hfam <;> simp [hfam]
    rw [exec_eq, exec_eq, mapNext_next]
    dsimp only
    split
    · rw [designEffect_f2_of_not_band noBand]
    · rfl

end Sys2Proof.Machine
end

section
/-! The words of a run: what a block and the flush leave in OUT_BUF, the last word of the flush, and that a run depends on
its taps, its volume and its inputs alone (42_convolver.md rules R170 to R174, R190). -/

namespace Sys2Proof.Machine

/-- Settles O28: the cursor of a run is below L, so the block outputs are those of `processEffect` and `flushEffect`. -/
theorem blockOutputs : Obligations.BlockOutputs := by
  intro s hinv hp
  have hcur : s.cur < s.len := hinv.cur_lt hp
  have hL : s.len ≤ 1024 := (legalLen_le hinv.len_legal).trans (by decide)
  exact ⟨fun n hn => ⟨_, exec_process n hp, processEffect_outWord hn hcur⟩, _, exec_flush hp, flushEffect_outWord hL hcur⟩

/-- From the last of L zeros on, every sample a tap reaches is one of the block. -/
theorem blockOut_zeros {s : State} (htaps : s.tapsFinite) {i : Nat} (hi : s.len ≤ i + 1) :
    s.blockOut (fun _ => 0x00000000) i = postGain zero32 s.gain := by
  unfold State.blockOut
  rw [sum_of_zero_terms s.len fun k hk => ?_]
  have recent : s.history (fun _ => 0x00000000) i k = 0x00000000 := if_pos (by omega)
  rw [recent]
  exact mul32_zero (htaps k hk) (by decide)

/-- Settles O35: by output L − 1 the flush has replaced the whole history by zeros (`blockOut_zeros`). -/
theorem flushDrainsTail : Obligations.FlushDrainsTail := by
  intro s hinv htaps hp hgain
  obtain ⟨-, t, hexec, hout⟩ := blockOutputs s hinv hp
  have hcur : s.cur < s.len := hinv.cur_lt hp
  refine ⟨t, hexec, ?_⟩
  rw [hout _ (by omega), blockOut_zeros htaps (by omega)]
  exact isZero_postGain_zero hgain

/-- A written word does not depend on what unwritten bytes read as. -/
theorem tapWord_eq_of_written {s s' : State} {i : Nat} (hw : s.mem.holdsWord (tapAddr i) = true)
    (h : ∀ k < 4, s.mem.readByte (tapAddr i + k) = s'.mem.readByte (tapAddr i + k)) : s.tapWord i = s'.tapWord i := by
  refine (readWord_of_holdsWord hw _ (Config.powerOnByte s'.powerOns)).trans (readWord_congr fun b h1 h2 => ?_)
  have byte := h (b - tapAddr i) (by omega)
  rw [Nat.add_sub_cancel' h1] at byte
  rw [byte]

theorem runOutputs_congr {s s' : State} (hlen : s.len = s'.len) (hvol : s.volume = s'.volume)
    (htaps : ∀ i < s.len, s.tapWord i = s'.tapWord i) (x : Nat → Word) (m n : Nat) :
    runOutputs s x m n = runOutputs s' x m n := by
  unfold runOutputs
  rw [← hlen, ← hvol]
  exact List.map_congr_left fun i _ => closedOut_congr htaps fun _ _ => rfl

/-- Settles O36: the closed form (`runStream_eq`) mentions the taps, the volume and the inputs alone. -/
theorem runForgetsHistory : Obligations.RunForgetsHistory := by
  intro s s' blocks hinv hinv' hp hp' hb hcount hvol hbytes
  obtain ⟨u, -, hrun⟩ := runStream_eq hinv hp hb
  obtain ⟨u', -, hrun'⟩ := runStream_eq hinv' hp' hb
  have hlen : s.len = s'.len := congrArg BitVec.toNat hcount
  have taps : ∀ i < s.len, s.tapWord i = s'.tapWord i := fun i hi =>
    tapWord_eq_of_written (hinv.taps_written i hi) (hbytes i hi)
  rw [← hlen, ← runOutputs_congr hlen hvol taps] at hrun'
  exact ⟨_, _, _, hrun, hrun'⟩

end Sys2Proof.Machine
end

section
/-! Binary32 arithmetic rounds each exact result once, and what it gives for zeros, infinities and NaNs (00_scope.md rule
R10). -/

namespace Sys2Proof.Machine

/-! ### The flipped sign -/

theorem signBit_neg32 (w : Word) : signBit (neg32 w) = !signBit w := by
  simp [signBit, neg32]

theorem wordReal_neg32 (w : Word) : wordReal (neg32 w) = -wordReal w := by
  unfold wordReal
  rw [unpack_neg32_eq]
  cases unpack w with
  | nan => exact neg_zero.symm
  | inf s => exact neg_zero.symm
  | fin s k => cases s <;> simp [Num.toReal, signedUnits, neg_div]

theorem isFinite_neg32 (w : Word) : isFinite (neg32 w) = isFinite w := by
  unfold isFinite
  rw [unpack_neg32_eq]
  cases unpack w <;> rfl

theorem neg32_infWord (p : Bool) : neg32 (infWord p) = infWord (!p) := by cases p <;> decide

/-- Rounding to nearest is symmetric about 0 (rule R10). -/
theorem RoundsTo.neg {x : ℝ} {w : Word} (h : RoundsTo x w) (hx : x ≠ 0) : RoundsTo (-x) (neg32 w) where
  sign := by
    rw [signBit_neg32, Bool.not_eq_true', ← Bool.not_eq_true, h.sign, not_lt, neg_neg_iff_pos]
    exact hx.symm.le_iff_lt
  overflow ho := by
    rw [abs_neg] at ho
    rw [signBit_neg32, ← neg32_infWord, ← h.overflow ho]
  finite ho := by
    rw [abs_neg] at ho
    rw [isFinite_neg32, h.finite ho]
  nearest ho v hv := by
    rw [abs_neg] at ho
    have near := h.nearest ho (neg32 v) ((isFinite_neg32 v).trans hv)
    rw [wordReal_neg32] at near ⊢
    rw [← abs_neg (-wordReal w - -x), ← abs_neg (wordReal v - -x)]
    convert near using 2 <;> ring
  even ho v hv heq hne := by
    rw [abs_neg] at ho
    have lsb : (neg32 w).getLsbD 0 = w.getLsbD 0 := by simp [neg32]
    rw [wordReal_neg32] at heq hne
    rw [lsb]
    refine h.even ho (neg32 v) ((isFinite_neg32 v).trans hv) ?_ ?_ <;> rw [wordReal_neg32]
    · rw [← abs_neg (-wordReal v - x), ← abs_neg (wordReal w - x)]
      convert heq using 2 <;> ring
    · exact fun hc => hne (by rw [← hc, neg_neg])

/-! ### Zeros -/

theorem pack_zero (neg : Bool) : pack neg 0 = if neg = true then 0x80000000 else 0x00000000 := by cases neg <;> rfl

theorem wordReal_eq_zero_iff {w : Word} {s : Bool} {k : ℕ} (h : unpack w = .fin s k) : wordReal w = 0 ↔ k = 0 := by
  rw [← abs_eq_zero, abs_wordReal h]
  simp

/-! ### Sums -/

/-- A nonzero exact sum is rounded once. -/
theorem roundSum_rounds {x : ℤ} (hx : x ≠ 0) (bothNeg : Bool) : RoundsTo ((x : ℝ) / 2 ^ 149) (roundSum x bothNeg) := by
  have rounds := roundTo_rounds (decide (x < 0)) x.natAbs 1 (Int.natAbs_pos.2 hx) one_pos
  have magnitude : ((if decide (x < 0) = true then -1 else 1 : ℝ)) * (x.natAbs / (1 : ℕ)) = x := by
    rw [Nat.cast_one, div_one, Nat.cast_natAbs, Int.cast_abs]
    simp only [decide_eq_true_eq]
    split
    case isTrue h => rw [abs_of_neg (by exact_mod_cast h), neg_one_mul, neg_neg]
    case isFalse h => rw [abs_of_nonneg (by exact_mod_cast not_lt.1 h), one_mul]
  rw [magnitude] at rounds
  rw [roundSum, if_neg hx]
  exact rounds

section
variable {a b : Word} (ha : isFinite a = true) (hb : isFinite b = true)
include ha hb

/-- The exact sum of finite words as a whole number of units. -/
theorem add32_eq_roundSum :
    ∃ x : ℤ, wordReal a + wordReal b = (x : ℝ) / 2 ^ 149 ∧ add32 a b = roundSum x (signBit a && signBit b) := by
  obtain ⟨s, k, ha⟩ := (isFinite_iff a).1 ha
  obtain ⟨t, l, hb⟩ := (isFinite_iff b).1 hb
  refine ⟨signedUnits s k + signedUnits t l, ?_, ?_⟩
  · rw [wordReal_of_unpack ha, wordReal_of_unpack hb, ← add_div, Int.cast_add]
  · rw [add32, ha, hb, signBit_of_unpack ha, signBit_of_unpack hb]

theorem add32_rounds (h : wordReal a + wordReal b ≠ 0) : RoundsTo (wordReal a + wordReal b) (add32 a b) := by
  obtain ⟨x, hx, hsum⟩ := add32_eq_roundSum ha hb
  rw [hx] at h ⊢
  rw [hsum]
  exact roundSum_rounds (by rintro rfl; simp at h) _

theorem add32_cancel (h : wordReal a + wordReal b = 0) : add32 a b = pack (signBit a && signBit b) 0 := by
  obtain ⟨x, hx, hsum⟩ := add32_eq_roundSum ha hb
  have zero : x = 0 := by simpa [h] using hx.symm
  rw [hsum, zero, roundSum, if_pos rfl]

end

theorem add32_inf_inf (p q : Bool) : add32 (infWord p) (infWord q) = if p = q then infWord p else canonicalNaN := by
  simp only [add32, unpack_infWord]

theorem add32_inf_left (p : Bool) {b : Word} (hb : isFinite b = true) : add32 (infWord p) b = infWord p := by
  obtain ⟨t, l, hb⟩ := (isFinite_iff b).1 hb
  simp only [add32, unpack_infWord, hb]

theorem add32_inf_right (p : Bool) {b : Word} (hb : isFinite b = true) : add32 b (infWord p) = infWord p := by
  obtain ⟨t, l, hb⟩ := (isFinite_iff b).1 hb
  simp only [add32, unpack_infWord, hb]

/-- Settles O57: `add32` by its cases, and `sub32` as the sum with the second operand's sign flipped. -/
theorem addRoundsOnce : Obligations.AddRoundsOnce := by
  refine ⟨fun a b ha hb => ?_, by decide, by decide, fun p => ⟨fun b hb => ?_, ?_, ?_, ?_, ?_⟩⟩
  · have hb' : isFinite (neg32 b) = true := (isFinite_neg32 b).trans hb
    have difference : wordReal a - wordReal b = wordReal a + wordReal (neg32 b) := by
      rw [wordReal_neg32, sub_eq_add_neg]
    rw [difference, ← signBit_neg32, ← pack_zero, ← pack_zero]
    exact ⟨add32_rounds ha hb, add32_cancel ha hb, add32_rounds ha hb', add32_cancel ha hb'⟩
  · have hb' : isFinite (neg32 b) = true := (isFinite_neg32 b).trans hb
    refine ⟨add32_inf_left p hb, add32_inf_right p hb, add32_inf_left p hb', ?_⟩
    rw [sub32, neg32_infWord, add32_inf_right _ hb]
  all_goals
    simp only [sub32, neg32_infWord, add32_inf_inf]
    cases p <;> rfl

/-! ### Products and quotients -/

section
variable {a b : Word} {s t : Bool} {k l : ℕ} (ha : unpack a = .fin s k) (hb : unpack b = .fin t l)
include ha hb

theorem mul32_of_zero (h : wordReal a * wordReal b = 0) : mul32 a b = pack (s != t) 0 := by
  have units : k * l = 0 := by
    rw [mul_eq_zero, wordReal_eq_zero_iff ha, wordReal_eq_zero_iff hb] at h
    exact Nat.mul_eq_zero.2 h
  rw [mul32, ha, hb]
  dsimp only
  rw [units, roundTo_zero]

theorem div32_by_zero (h : wordReal b = 0) :
    div32 a b = if wordReal a = 0 then canonicalNaN else infWord (s != t) := by
  rw [wordReal_eq_zero_iff hb] at h
  rw [div32, ha, hb]
  simp only [h, if_true, wordReal_eq_zero_iff ha]

/-- Every product and quotient of finite words. -/
theorem mul32_div32_finite :
    (wordReal a * wordReal b ≠ 0 → RoundsTo (wordReal a * wordReal b) (mul32 a b)) ∧
    (wordReal a * wordReal b = 0 → mul32 a b = pack (s != t) 0) ∧
    (wordReal b ≠ 0 → wordReal a ≠ 0 → RoundsTo (wordReal a / wordReal b) (div32 a b)) ∧
    (wordReal b ≠ 0 → wordReal a = 0 → div32 a b = pack (s != t) 0) ∧
    (wordReal b = 0 → wordReal a ≠ 0 → div32 a b = infWord (s != t)) ∧
    (wordReal b = 0 → wordReal a = 0 → div32 a b = canonicalNaN) := by
  have fa : isFinite a = true := (isFinite_iff a).2 ⟨s, k, ha⟩
  have fb : isFinite b = true := (isFinite_iff b).2 ⟨t, l, hb⟩
  have nonzeroA : wordReal a ≠ 0 → isZero a = false := (isZero_eq_false_iff fa).2
  have nonzeroB : wordReal b ≠ 0 → isZero b = false := (isZero_eq_false_iff fb).2
  refine ⟨fun h => ?_, mul32_of_zero ha hb, fun h0 h => div32_rounds fa fb (nonzeroA h) (nonzeroB h0), fun h0 h => ?_,
    fun h0 h => (div32_by_zero ha hb h0).trans (if_neg h), fun h0 h => (div32_by_zero ha hb h0).trans (if_pos h)⟩
  · obtain ⟨h1, h2⟩ := mul_ne_zero_iff.1 h
    exact mul32_rounds fa fb (nonzeroA h1) (nonzeroB h2)
  · rw [wordReal_eq_zero_iff ha] at h
    subst h
    exact div32_zero_left ha hb ((wordReal_eq_zero_iff hb).not.1 h0)

end

/-- An infinity times a finite word (rule R10). -/
theorem mul32_infWord (p : Bool) {b : Word} {t : Bool} {l : ℕ} (hb : unpack b = .fin t l) :
    mul32 (infWord p) b = if wordReal b = 0 then canonicalNaN else infWord (p != t) := by
  simp only [mul32, unpack_infWord, hb, wordReal_eq_zero_iff hb]

theorem div32_infWord_left (p : Bool) {b : Word} {t : Bool} {l : ℕ} (hb : unpack b = .fin t l) :
    div32 (infWord p) b = infWord (p != t) := by
  simp only [div32, unpack_infWord, hb]

theorem div32_infWord_right (p : Bool) {b : Word} {t : Bool} {l : ℕ} (hb : unpack b = .fin t l) :
    div32 b (infWord p) = pack (p != t) 0 := by
  simp only [div32, unpack_infWord, hb, bne_comm]

/-- Settles O58: finite operands by `mul32_div32_finite`, then one or two infinities. -/
theorem mulRoundsOnce : Obligations.MulRoundsOnce := by
  refine ⟨fun a b ha hb => ?_, fun p b hb => ?_, fun p q => ⟨?_, ?_⟩⟩
  · obtain ⟨s, k, ha⟩ := (isFinite_iff a).1 ha
    obtain ⟨t, l, hb⟩ := (isFinite_iff b).1 hb
    rw [signBit_of_unpack ha, signBit_of_unpack hb, ← pack_zero]
    exact mul32_div32_finite ha hb
  · obtain ⟨t, l, hb⟩ := (isFinite_iff b).1 hb
    rw [signBit_of_unpack hb, mul32_comm b, mul32_infWord p hb, div32_infWord_left p hb, div32_infWord_right p hb,
      pack_zero]
    exact ⟨fun h => ⟨if_neg h, if_neg h⟩, fun h => ⟨if_pos h, if_pos h⟩, rfl, rfl⟩
  · simp only [mul32, unpack_infWord]
  · simp only [div32, unpack_infWord]
    rfl

/-! ### Sine and cosine -/

theorem wordReal_eq_angle {w : Word} {s : Bool} {k : ℕ} (h : unpack w = .fin s k) :
    wordReal w = if s = true then -angleReal k else angleReal k := by
  rw [wordReal_of_unpack h]
  cases s <;> simp [signedUnits, angleReal, neg_div]

theorem sin32_rounds {a : Word} (ha : isFinite a = true) (h0 : isZero a = false) :
    RoundsTo (Real.sin (wordReal a)) (sin32 a) := by
  obtain ⟨s, k, hu⟩ := (isFinite_iff a).1 ha
  have hk : k ≠ 0 := (units_pos hu h0).ne'
  have magnitude : RoundsTo (Real.sin (angleReal k)) (sinUnits k) := sinUnits_rounds hk
  have nonzero : Real.sin (angleReal k) ≠ 0 := (irrational_angle hk).1.ne_zero
  rw [sin32, hu, wordReal_eq_angle hu]
  dsimp only
  rw [if_neg hk]
  cases s with
  | false => exact magnitude
  | true =>
    rw [if_pos rfl, if_pos rfl, Real.sin_neg]
    exact magnitude.neg nonzero

theorem cos32_rounds {a : Word} (ha : isFinite a = true) : RoundsTo (Real.cos (wordReal a)) (cos32 a) := by
  obtain ⟨s, k, hu⟩ := (isFinite_iff a).1 ha
  have even : Real.cos (wordReal a) = Real.cos (angleReal k) := by
    rw [wordReal_eq_angle hu]
    cases s
    · rfl
    · exact Real.cos_neg _
  rw [even, cos32, hu]
  exact cosUnits_rounds k

/-- The sine and the cosine of a zero (log entry 7 for the sign). -/
theorem sin32_cos32_of_isZero {a : Word} (h : isZero a = true) : sin32 a = a ∧ cos32 a = one32 := by
  obtain ⟨neg, rfl⟩ := (isZero_iff a).1 h
  have cosine : cosUnits 0 = one32 := cos32_zero
  rw [sin32, cos32, unpack_zero]
  exact ⟨rfl, cosine⟩

theorem sin32_cos32_of_not_finite {a : Word} (h : isFinite a = false) :
    sin32 a = canonicalNaN ∧ cos32 a = canonicalNaN := by
  unfold sin32 cos32
  cases hu : unpack a with
  | nan => exact ⟨rfl, rfl⟩
  | inf s => exact ⟨rfl, rfl⟩
  | fin s k => rw [(isFinite_iff a).2 ⟨s, k, hu⟩] at h; cases h

/-- Settles O59: `sinUnits_rounds` and `cosUnits_rounds`, the sine being odd and the cosine even. -/
theorem sinCosRoundOnce : Obligations.SinCosRoundOnce :=
  fun _ => ⟨sin32_rounds, cos32_rounds, sin32_cos32_of_isZero, sin32_cos32_of_not_finite⟩

/-! ### Conversions and NaNs -/

theorem wordReal_toF32 {i : ℤ} (h : i.natAbs ≤ 2 ^ 24) : wordReal (toF32 i) = i := by
  have sign : signedUnits (decide (i < 0)) (i.natAbs * 2 ^ 149) = i * 2 ^ 149 := by
    unfold signedUnits
    simp only [decide_eq_true_eq]
    split <;> omega
  rw [wordReal_of_unpack (unpack_toF32_int h), sign, Int.cast_mul, Int.cast_pow, Int.cast_ofNat,
    mul_div_cancel_right₀ _ (by positivity)]

/-- Where a word is a NaN, it is the canonical one (rule R10). -/
def OnlyCanonicalNaN (w : Word) : Prop := unpack w = .nan → w = canonicalNaN

theorem onlyCanonicalNaN_self : OnlyCanonicalNaN canonicalNaN := fun _ => rfl

theorem onlyCanonicalNaN_infWord (p : Bool) : OnlyCanonicalNaN (infWord p) := fun h => by
  rw [unpack_infWord] at h
  cases h

theorem onlyCanonicalNaN_roundTo (neg : Bool) (num den : ℕ) : OnlyCanonicalNaN (roundTo neg num den) :=
  fun h => absurd h (unpack_roundTo_ne_nan neg num den)

theorem onlyCanonicalNaN_of_isFinite {w : Word} (h : isFinite w = true) : OnlyCanonicalNaN w := fun hnan => by
  obtain ⟨s, k, hu⟩ := (isFinite_iff w).1 h
  rw [hnan] at hu
  cases hu

theorem onlyCanonicalNaN_zero (neg : Bool) : OnlyCanonicalNaN (pack neg 0) :=
  onlyCanonicalNaN_of_isFinite ((isFinite_iff _).2 ⟨neg, 0, unpack_zero neg⟩)

theorem onlyCanonicalNaN_add32 (a b : Word) : OnlyCanonicalNaN (add32 a b) := by
  unfold add32
  split
  · exact onlyCanonicalNaN_self
  · exact onlyCanonicalNaN_self
  · split
    · exact onlyCanonicalNaN_infWord _
    · exact onlyCanonicalNaN_self
  · exact onlyCanonicalNaN_infWord _
  · exact onlyCanonicalNaN_infWord _
  · unfold roundSum
    split
    · exact onlyCanonicalNaN_zero _
    · exact onlyCanonicalNaN_roundTo _ _ _

theorem onlyCanonicalNaN_mul32 (a b : Word) : OnlyCanonicalNaN (mul32 a b) := by
  unfold mul32
  split
  · exact onlyCanonicalNaN_self
  · exact onlyCanonicalNaN_self
  · exact onlyCanonicalNaN_infWord _
  · split
    · exact onlyCanonicalNaN_self
    · exact onlyCanonicalNaN_infWord _
  · split
    · exact onlyCanonicalNaN_self
    · exact onlyCanonicalNaN_infWord _
  · exact onlyCanonicalNaN_roundTo _ _ _

theorem onlyCanonicalNaN_div32 (a b : Word) : OnlyCanonicalNaN (div32 a b) := by
  unfold div32
  split
  · exact onlyCanonicalNaN_self
  · exact onlyCanonicalNaN_self
  · exact onlyCanonicalNaN_self
  · exact onlyCanonicalNaN_infWord _
  · exact onlyCanonicalNaN_zero _
  · split
    · split
      · exact onlyCanonicalNaN_self
      · exact onlyCanonicalNaN_infWord _
    · exact onlyCanonicalNaN_roundTo _ _ _

/-- The sine and the cosine of a finite word are finite, those of any other word the canonical NaN. -/
theorem onlyCanonicalNaN_sin32_cos32 (a : Word) : OnlyCanonicalNaN (sin32 a) ∧ OnlyCanonicalNaN (cos32 a) := by
  cases ha : isFinite a with
  | true =>
    have small : |Real.cos (wordReal a)| < overflowBound :=
      ((Real.abs_cos_le_one _).trans one_le_two).trans_lt two_lt_overflow
    exact ⟨onlyCanonicalNaN_of_isFinite (bounded_sin32 ha).1,
      onlyCanonicalNaN_of_isFinite ((cos32_rounds ha).finite small)⟩
  | false =>
    obtain ⟨hsin, hcos⟩ := sin32_cos32_of_not_finite ha
    rw [hsin, hcos]
    exact ⟨onlyCanonicalNaN_self, onlyCanonicalNaN_self⟩

theorem unpack_neg32_nan {b : Word} (h : unpack b = .nan) : unpack (neg32 b) = .nan := by
  rw [unpack_neg32_eq, h]
  rfl

/-- A NaN operand makes a sum, a product and a quotient the canonical NaN. -/
theorem nan_operand {a b : Word} (h : unpack a = .nan ∨ unpack b = .nan) :
    add32 a b = canonicalNaN ∧ mul32 a b = canonicalNaN ∧ div32 a b = canonicalNaN := by
  unfold add32 mul32 div32
  rcases h with h | h
  · rw [h]
    exact ⟨rfl, rfl, rfl⟩
  · rw [h]
    cases unpack a <;> exact ⟨rfl, rfl, rfl⟩

/-- Settles O60: `unpack_toF32_int`, the flipped sign, and the operations by their cases. -/
theorem conversionsAndNaN : Obligations.ConversionsAndNaN := by
  refine ⟨fun i hi => ?_, fun a _ => ⟨wordReal_neg32 a, signBit_neg32 a⟩, fun a b => ⟨fun h => ?_, ?_⟩⟩
  · have small : i.natAbs ≤ 2 ^ 24 := by
      rw [Int.abs_eq_natAbs] at hi
      omega
    exact ⟨(isFinite_iff _).2 ⟨_, _, unpack_toF32_int small⟩, wordReal_toF32 small⟩
  · obtain ⟨hadd, hmul, hdiv⟩ := nan_operand h
    exact ⟨hadd, (nan_operand (h.imp_right unpack_neg32_nan)).1, hmul, hdiv⟩
  · obtain ⟨hsin, hcos⟩ := onlyCanonicalNaN_sin32_cos32 a
    exact ⟨onlyCanonicalNaN_add32 a b, onlyCanonicalNaN_add32 a (neg32 b), onlyCanonicalNaN_mul32 a b,
      onlyCanonicalNaN_div32 a b, hsin, hcos⟩

end Sys2Proof.Machine
end

section
/-! Every tap of a successful DESIGN is finite: each value on the way to it is far below the overflow bound; and no step
makes a valid tap anything else (41_designer.md rule R154). -/

namespace Sys2Proof.Machine

/-! ### Sums, quotients and the two functions -/

theorem Bounded.add {a b : Word} {A B : ℝ} (ha : Bounded a A) (hb : Bounded b B) (hAB : A + B < overflowBound) :
    Bounded (add32 a b) (2 * (A + B)) := by
  have bound : |wordReal a + wordReal b| ≤ A + B := (abs_add_le _ _).trans (add_le_add ha.2 hb.2)
  by_cases h : wordReal a + wordReal b = 0
  · rw [add32_cancel ha.1 hb.1 h]
    exact bounded_pack_zero _ (mul_nonneg zero_le_two ((abs_nonneg _).trans bound))
  · exact (add32_rounds ha.1 hb.1 h).bounded bound hAB

theorem Bounded.sub {a b : Word} {A B : ℝ} (ha : Bounded a A) (hb : Bounded b B) (hAB : A + B < overflowBound) :
    Bounded (sub32 a b) (2 * (A + B)) := ha.add hb.neg hAB

/-- A divisor of magnitude 1 or more does not make the dividend larger. -/
theorem Bounded.div {a b : Word} {A : ℝ} (ha : Bounded a A) (hb : isFinite b = true) (h1 : 1 ≤ |wordReal b|)
    (hA : A < overflowBound) : Bounded (div32 a b) (2 * A) := by
  have hA0 : 0 ≤ A := (abs_nonneg _).trans ha.2
  have nonzero : wordReal b ≠ 0 := abs_pos.1 (one_pos.trans_le h1)
  exact bounded_div32 ha.1 hb ((isZero_eq_false_iff hb).2 nonzero) (ha.2.trans (le_mul_of_one_le_right hA0 h1)) hA

theorem bounded_cos32 {p : Word} (hp : isFinite p = true) : Bounded (cos32 p) 2 :=
  ((cos32_rounds hp).bounded (Real.abs_cos_le_one _) (one_lt_two.trans two_lt_overflow)).mono (by norm_num)

theorem bounded_sin32_two {p : Word} (hp : isFinite p = true) : Bounded (sin32 p) 2 := by
  cases h0 : isZero p with
  | true =>
    obtain ⟨s, rfl⟩ := (isZero_iff p).1 h0
    rw [(sin32_cos32_of_isZero h0).1]
    exact bounded_pack_zero s zero_le_two
  | false =>
    exact ((sin32_rounds hp h0).bounded (Real.abs_sin_le_one _) (one_lt_two.trans two_lt_overflow)).mono (by norm_num)

/-- A multiple c·t, c ≥ 1, is rounded to no less than the word t in magnitude, because t is a word too. -/
theorem RoundsTo.abs_le_of_multiple {c : ℝ} {t w : Word} (h : RoundsTo (c * wordReal t) w) (hc : 1 ≤ c)
    (ht : isFinite t = true) (hO : |c * wordReal t| < overflowBound) : |wordReal t| ≤ |wordReal w| := by
  have near := h.nearest hO t ht
  have distance : |wordReal t - c * wordReal t| = c * |wordReal t| - |wordReal t| := by
    rw [abs_sub_comm, ← sub_one_mul, abs_mul, abs_of_nonneg (sub_nonneg.2 hc), sub_one_mul]
  have triangle := abs_sub_abs_le_abs_sub (c * wordReal t) (wordReal w)
  rw [abs_sub_comm, abs_mul, abs_of_nonneg (zero_le_one.trans hc)] at triangle
  linarith

theorem wordReal_pi32 : wordReal pi32 = 0xC90FDB / 2 ^ 22 := by
  rw [wordReal_of_unpack unpack_pi32]
  norm_num [signedUnits]

/-! ### The constants and the indices -/

/-- A finite value of at most B, by its units. -/
def Num.atMost (B : ℕ) : Num → Bool
  | .nan => false
  | .inf _ => false
  | .fin _ k => decide (k ≤ B * 2 ^ 149)

theorem bounded_of_atMost {w : Word} {B : ℕ} (h : (unpack w).atMost B = true) : Bounded w B := by
  cases hu : unpack w with
  | nan => rw [hu] at h; cases h
  | inf s => rw [hu] at h; cases h
  | fin s k =>
    rw [hu] at h
    have units : (k : ℝ) ≤ B * 2 ^ 149 := by exact_mod_cast of_decide_eq_true h
    exact bounded_of_units hu ((div_le_iff₀ (by positivity)).2 units)

theorem abs_toF32 {i : ℤ} (h0 : i ≠ 0) (h : i.natAbs ≤ 2 ^ 24) : 1 ≤ |wordReal (toF32 i)| := by
  rw [wordReal_toF32 h]
  exact_mod_cast Int.one_le_abs h0

/-! ### The windows -/

section
variable {n x : ℕ} (hn0 : 0 < n) (hn : n ≤ 1000) (hx : x ≤ n)
include hn0 hn

theorem Bounded.div_order {a : Word} {A : ℝ} (ha : Bounded a A) (hA : A < overflowBound) :
    Bounded (div32 a (toF32 n)) (2 * A) :=
  ha.div (bounded_toF32 (i := n) (n := n) le_rfl (by omega)).1 (abs_toF32 (by omega) (by omega)) hA

include hx

/-- The window arguments A1 and A2 are finite (rule R132). -/
theorem isFinite_windowArg {c : Word} (hc : Bounded c (16 : ℕ)) :
    isFinite (div32 (mul32 c (toF32 x)) (toF32 n)) = true := by
  have index : Bounded (toF32 x) (1000 : ℕ) := bounded_toF32 (by omega) (by norm_num)
  have product := hc.mul index (lt_overflow (by norm_num))
  exact (product.div_order hn0 hn (lt_overflow (by norm_num))).1

theorem bounded_cos_windowArg1 : Bounded (cos32 (windowArg1 n x)) 2 :=
  bounded_cos32 (isFinite_windowArg hn0 hn hx (bounded_of_atMost (by decide)))

theorem bounded_cos_windowArg2 : Bounded (cos32 (windowArg2 n x)) 2 :=
  bounded_cos32 (isFinite_windowArg hn0 hn hx (bounded_of_atMost (by decide)))

/-- The raised cosine c − c'·cos(A1) of three of the windows. -/
theorem bounded_raisedCosine {c c' : Word} (hc : Bounded c (1 : ℕ)) (hc' : Bounded c' (1 : ℕ)) :
    Bounded (sub32 c (mul32 c' (cos32 (windowArg1 n x)))) 10 := by
  have term := hc'.mul (bounded_cos_windowArg1 hn0 hn hx) (lt_overflow (by norm_num))
  exact (hc.sub term (lt_overflow (by norm_num))).mono (by norm_num)

theorem bounded_windowAt (w : Window) : Bounded (windowAt w n x) 4096 := by
  cases w with
  | hamming =>
    exact (bounded_raisedCosine hn0 hn hx (bounded_of_atMost (by decide)) (bounded_of_atMost (by decide))).mono
      (by norm_num)
  | hanning =>
    exact (bounded_raisedCosine hn0 hn hx (bounded_of_atMost (by decide)) (bounded_of_atMost (by decide))).mono
      (by norm_num)
  | bartlett =>
    have distance : Bounded (toF32 ((2 * (x : ℤ) - n).natAbs : ℕ)) (1000 : ℕ) := bounded_toF32 (by omega) (by norm_num)
    have ratio := distance.div_order hn0 hn (lt_overflow (by norm_num))
    exact (bounded_one32.sub ratio (lt_overflow (by norm_num))).mono (by norm_num)
  | blackman =>
    have first := bounded_raisedCosine hn0 hn hx (c := c042) (c' := c05) (bounded_of_atMost (by decide))
      (bounded_of_atMost (by decide))
    have constant : Bounded c008 (1 : ℕ) := bounded_of_atMost (by decide)
    have second := constant.mul (bounded_cos_windowArg2 hn0 hn hx) (lt_overflow (by norm_num))
    exact (first.add second (lt_overflow (by norm_num))).mono (by norm_num)
  | rectangular => exact bounded_one32.mono (by norm_num)

end

/-! ### The ideal responses -/

/-- sin(2π·ft·d)/(π·d): the sine is at most 1, and PI32·d is no smaller than d (rule R142). -/
theorem bounded_bandTerm {ft : Word} {d : ℤ} (hft : Bounded ft 1) (hd0 : d ≠ 0) (hd : d.natAbs ≤ 1000) :
    Bounded (bandTerm ft d) 4 := by
  have index : Bounded (toF32 d) (1000 : ℕ) := bounded_toF32 hd (by norm_num)
  have one_le : 1 ≤ |wordReal (toF32 d)| := abs_toF32 hd0 (by omega)
  have nonzero : isZero (toF32 d) = false := (isZero_eq_false_iff index.1).2 (abs_pos.1 (one_pos.trans_le one_le))
  have twoPi : Bounded twoPi32 (8 : ℕ) := bounded_of_atMost (by decide)
  have angle := (twoPi.mul hft (lt_overflow (by norm_num))).mul index (lt_overflow (by norm_num))
  have divisor := bounded_pi32.mul index (lt_overflow (by norm_num))
  have exact_lt : |wordReal pi32 * wordReal (toF32 d)| < overflowBound := by
    rw [abs_mul]
    exact (mul_le_mul bounded_pi32.2 index.2 (abs_nonneg _) (by norm_num)).trans_lt (lt_overflow (by norm_num))
  have large : |wordReal (toF32 d)| ≤ |wordReal (mul32 pi32 (toF32 d))| :=
    (mul32_rounds bounded_pi32.1 index.1 (by decide) nonzero).abs_le_of_multiple (by rw [wordReal_pi32]; norm_num)
      index.1 exact_lt
  exact ((bounded_sin32_two angle.1).div divisor.1 (one_le.trans large) two_lt_overflow).mono (by norm_num)

section
variable {f : FilterSpec} (h : f.validate = 0)
include h

/-- The upper cutoff of a band family is checked as the lower one is (rule R131). -/
theorem bounded_ft2 (hband : f.family.isBand = true) : Bounded f.ft2 1 := by
  obtain ⟨-, -, -, -, -, hf2, -⟩ := (validate_zero_iff f).1 h
  rw [FilterSpec.f2Range, hband, Bool.true_and] at hf2
  exact bounded_cutoff_ratio (isFinite_fs_of_validate h) hf2

theorem bounded_band_width (hband : f.family.isBand = true) : Bounded (mul32 two32 (sub32 f.ft2 f.ft1)) 16 := by
  have width := (bounded_ft2 h hband).sub (bounded_ft1 h) (lt_overflow (by norm_num))
  exact (bounded_two32.mul width (lt_overflow (by norm_num))).mono (by norm_num)

section
variable {x : ℕ} (hx : x ≤ f.order / 2)
include hx

theorem bounded_sinc_sincArg : Bounded (sinc32 (f.sincArg x)) 4 := by
  obtain ⟨-, -, hN⟩ := order_of_validate h
  have index : Bounded (toF32 (2 * (x : ℤ) - f.order)) (1000 : ℕ) := bounded_toF32 (by omega) (by norm_num)
  exact bounded_sinc32 (index.mul (bounded_ft1 h) (lt_overflow (by norm_num))) (by norm_num)

/-- Beside the centre both terms of a band response are bounded. -/
theorem bounded_bandTerms (hband : f.family.isBand = true) (hc : x ≠ f.order / 2) :
    Bounded (bandTerm f.ft1 (tapDistance f.order x)) 4 ∧ Bounded (bandTerm f.ft2 (tapDistance f.order x)) 4 := by
  obtain ⟨-, -, hN⟩ := order_of_validate h
  have nonzero : tapDistance f.order x ≠ 0 := (tapDistance_eq_zero_iff f.order x).not.2 hc
  have small : (tapDistance f.order x).natAbs ≤ 1000 := by
    unfold tapDistance
    omega
  exact ⟨bounded_bandTerm (bounded_ft1 h) nonzero small, bounded_bandTerm (bounded_ft2 h hband) nonzero small⟩

theorem bounded_idealAt : Bounded (idealAt f x) 64 := by
  have double := bounded_double_ft1 h
  have sinc := bounded_sinc_sincArg h hx
  cases hfam : f.family with
  | lowpass =>
    rw [idealAt_lowpass hfam]
    exact (double.mul sinc (lt_overflow (by norm_num))).mono (by norm_num)
  | highpass =>
    rw [idealAt_highpass hfam]
    split
    case isTrue => exact (bounded_one32.sub double (lt_overflow (by norm_num))).mono (by norm_num)
    case isFalse => exact (double.neg.mul sinc (lt_overflow (by norm_num))).mono (by norm_num)
  | bandpass =>
    have band : f.family.isBand = true := by rw [hfam]; rfl
    rw [idealAt_bandpass hfam]
    split
    case isTrue => exact (bounded_band_width h band).mono (by norm_num)
    case isFalse hc =>
      obtain ⟨term1, term2⟩ := bounded_bandTerms h hx band hc
      exact (term2.sub term1 (lt_overflow (by norm_num))).mono (by norm_num)
  | bandstop =>
    have band : f.family.isBand = true := by rw [hfam]; rfl
    rw [idealAt_bandstop hfam]
    split
    case isTrue => exact (bounded_one32.sub (bounded_band_width h band) (lt_overflow (by norm_num))).mono (by norm_num)
    case isFalse hc =>
      obtain ⟨term1, term2⟩ := bounded_bandTerms h hx band hc
      exact (term1.sub term2 (lt_overflow (by norm_num))).mono (by norm_num)

theorem isFinite_designTap (w : Window) : isFinite (designTap f w x) = true := by
  obtain ⟨-, hmin, hmax⟩ := order_of_validate h
  have window := bounded_windowAt (n := f.order) (x := x) (by omega) hmax (by omega) w
  exact (window.mul (bounded_idealAt h hx) (lt_overflow (by norm_num))).1

end

end

/-! ### The taps of a state -/

theorem tapsFinite_of_len {s : State} (h : s.len = 0) : s.tapsFinite := fun _ hi => by omega

theorem designPass_tapsFinite {s : State} (w : Window) (hv : s.filterSpec.validate = 0) :
    (designPass s w).tapsFinite := by
  intro i hi
  obtain ⟨-, -, hmax⟩ := order_of_validate hv
  rw [designPass_len w hmax] at hi
  rw [designPass_tapWord w hv (Nat.lt_succ_iff.1 hi)]
  exact isFinite_designTap hv (by simp only [State.filterSpec]; omega) w

/-- Whether the FilterSpec validates or not, no valid tap is a NaN or an infinity after a DESIGN. -/
theorem exec_design_tapsFinite {s t : State} (hp : s.phase ≠ .stream) (h : exec .design s = .next t) : t.tapsFinite := by
  by_cases hv : s.filterSpec.validate = 0
  · obtain ⟨w, hw⟩ := window_of_validate hv
    rw [exec_design_pass hp hv hw] at h
    cases h
    exact designPass_tapsFinite w hv
  · rw [exec_design_fail s hp hv rfl] at h
    cases h
    exact tapsFinite_of_len rfl

theorem KeepsTaps.tapsFinite {s t : State} (h : KeepsTaps s t) (hs : s.tapsFinite) (ht : t.Inv) : t.tapsFinite := by
  rcases h.1 with hcount | hidle
  · intro i hi
    rw [h.tapWord i]
    exact hs i (by rwa [State.len, ← hcount])
  · exact tapsFinite_of_len (ht.idle_iff.1 hidle)

theorem step_tapsFinite {s t : State} (hinv : s.Inv) (hs : s.tapsFinite) (h : step s = .next t) : t.tapsFinite := by
  have ht : t.Inv := step_inv hinv h
  rcases step_keepsTaps ((legalLen_le hinv.len_legal).trans (by decide)) h with ⟨-, hidle⟩ | ⟨hdesign, hp⟩ | hkeeps
  · exact tapsFinite_of_len (ht.idle_iff.1 hidle)
  · obtain ⟨u, hu⟩ := exec_next .design s
    obtain ⟨-, completion, -⟩ := commandStep s 0x00000001 hdesign
    have taps : u.tapsFinite := exec_design_tapsFinite hp hu
    rw [completion .design rfl, hu] at h
    cases h
    exact taps
  · exact hkeeps.tapsFinite hs ht

/-- Settles O23: a tap is a product of bounded factors (`isFinite_designTap`), and only a DESIGN writes one. -/
theorem everyTapFinite : Obligations.EveryTapFinite := by
  refine ⟨fun s hp hv => ?_, fun _ _ => step_tapsFinite⟩
  obtain ⟨w, hw⟩ := window_of_validate hv
  exact ⟨_, exec_design_pass hp hv hw, designPass_tapsFinite w hv⟩

end Sys2Proof.Machine
end
